-- ==== Sys2Proof/Word.lean ====
section
/-! DEFINITION. The word types of HUFFCORE: one width each, fixed by 00_scope.md R8 and 10_state.md. -/

namespace Sys2Proof

/-- A 32-bit host register, operand or command word (REG_W, 00_scope.md R8). -/
abbrev Word := BitVec 32

/-- A byte of a FIFO, or a symbol (SYM_W = 8, 00_scope.md R8). -/
abbrev Byte := BitVec 8

/-- An index of the node arena, or NIL (IDX_W = 9, 00_scope.md R8). -/
abbrev NodeIdx := BitVec 9

/-- A heap priority: 31 bits, never negative (PRIO_W, 00_scope.md R8; 10_state.md R26). -/
abbrev Prio := BitVec 31

/-- A table with one entry for each of the 256 symbols (00_scope.md R8). -/
abbrev SymTable (α : Type) := Vector α 256

end Sys2Proof
end

