-- ==== Sys2Proof/Config.lean ====
section
/-! DEFINITION. What is fixed for the machine and never changes: the fixed parameters of 00_scope.md R8, the
open parameters of R9 as uninterpreted constants, and the unspecified values of 20_memory.md R68. -/

namespace Sys2Proof.Config

/-- HEAP_CAP (00_scope.md R8). -/
abbrev heapCap : Nat := 256

/-- NODE_CAP (00_scope.md R8). -/
abbrev nodeCap : Nat := 511

/-- CODE_MAX (00_scope.md R8). -/
abbrev codeMax : Nat := 32

/-- NIL, the null node index (00_scope.md R8). -/
abbrev nilIdx : NodeIdx := 0x1FF#9

/-- The largest legal priority, merged priority and TOTAL: 2^31 − 1 (00_scope.md R8, 41_tree_builder.md R142, R143). -/
abbrev prioMax : Nat := 2 ^ 31 - 1

/-- The depth of the input FIFO of the machine that comes out of reset, less one: IN_DEPTH is an OPEN parameter
in 1..255 (00_scope.md R9, 92_eei_decisions.md D24), so the constant has no body (assumption 5). -/
opaque inDepth : Fin 255

/-- The depth of the output FIFO of the machine that comes out of reset, less one (00_scope.md R9; assumption 5). -/
opaque outDepth : Fin 255

/-- The unspecified 32-bit value that the n-th such read returns (20_memory.md R68, 93_implementation_defined.md U1):
a free value without a body (assumptions 6 and 7). -/
opaque freeRead : Nat → Word

end Sys2Proof.Config
end

