-- ==== Sys2Proof/Machine/State.lean ====
section
/-! DEFINITION. Everything HUFFCORE holds (10_state.md R20), in the eight groups of R20, as plain data; what the host
does next (20_memory.md R90), also as plain data; the reset values (10_state.md R42); faults and refusals. -/

namespace Sys2Proof.Machine

/-- Error codes (60_exceptions.md R222). Values 11 to 15 are reserved and never produced (93_implementation_defined.md
U4), so the type omits them. Their numbers are `ErrCode.number` (Machine/Flags.lean). -/
inductive ErrCode where
  | none | illegal | null | state | arg | heapEmpty | capacity | corrupt | degenerate | noCode | abort
  deriving DecidableEq, Repr

/-- Group 1 of 10_state.md R20: the command and operand registers (R21, R22; 60_exceptions.md R221). -/
structure Regs where
  /-- CUR_CMD (10_state.md R22). -/
  curCmd : Word
  /-- ARG0 (10_state.md R21). -/
  arg0 : Word
  /-- RES0 (10_state.md R21). -/
  res0 : Word
  /-- RES1 (10_state.md R21). -/
  res1 : Word
  /-- ECMD (60_exceptions.md R221). -/
  ecmd : Word
  /-- EINFO (60_exceptions.md R221). -/
  einfo : Word
  deriving DecidableEq, Repr

/-- Group 2 of 10_state.md R20: the stored bits of STATUS (R23) and CTRL (R24), and ABORT_REQ (R25). The bits HEAP_ALLOC,
TREE_VALID, CODES_VALID and IN_EOS of STATUS stand with the structures they describe; HOLD and IN_EXH are derived. -/
structure Stat where
  /-- STATUS.BUSY. -/
  busy : Bool
  /-- STATUS.DONE. -/
  done : Bool
  /-- STATUS.ERR. -/
  err : Bool
  /-- STATUS.ECODE. -/
  ecode : ErrCode
  /-- STATUS.PARTIAL. -/
  partialCode : Bool
  /-- STATUS.CMDOVR. -/
  cmdOvr : Bool
  /-- STATUS.IN_OVF. -/
  inOvf : Bool
  /-- CTRL.IE. -/
  ie : Bool
  /-- ABORT_REQ, hidden (10_state.md R25). -/
  abortReq : Bool
  deriving DecidableEq, Repr

/-- One heap entry (10_state.md R26): PRIO, C (is-composite) and PAY. -/
structure HeapEntry where
  prio : Prio
  comp : Bool
  pay : NodeIdx
  deriving DecidableEq, Repr

/-- Group 3: the heap (10_state.md R26). `entries` is HEAP[0..HEAP_SIZE−1]; its length is HEAP_SIZE (assumption 9). -/
structure Heap where
  alloc : Bool
  entries : List HeapEntry
  deriving DecidableEq, Repr

/-- One node of the arena (10_state.md R28): a leaf has SYM, an internal node LEFT, RIGHT and PRIO; a leaf's PRIO is 0
(41_tree_builder.md R140; assumption 10). -/
inductive Node where
  | leaf (sym : Byte)
  | internal (left right : NodeIdx) (prio : Word)
  deriving DecidableEq, Repr

/-- Group 4: the node arena (10_state.md R28, R29). `nodes` is NODE[0..NODE_COUNT−1]; its length is NODE_COUNT
(assumption 9). -/
structure Arena where
  nodes : List Node
  root : NodeIdx
  valid : Bool
  deriving DecidableEq, Repr

/-- Group 5: the frequency table (10_state.md R31). -/
structure FreqTable where
  count : SymTable Word
  total : Word
  deriving DecidableEq, Repr

/-- Group 6: the code table (10_state.md R32, R33). -/
structure CodeTable where
  len : SymTable (BitVec 6)
  bits : SymTable Word
  valid : Bool
  deriving DecidableEq, Repr

/-- Group 7, the input side: the input FIFO, oldest byte first (10_state.md R34), and the bit reader (R36). -/
structure BitReader where
  fifo : List Byte
  rdBuf : Byte
  rdCnt : BitVec 4
  rdBits : Word
  eos : Bool
  deriving DecidableEq, Repr

/-- Group 7, the output side: the output FIFO, oldest byte first (10_state.md R35), and the bit writer (R37). -/
structure BitWriter where
  fifo : List Byte
  wrAcc : Byte
  wrCnt : BitVec 3
  wrBits : Word
  deriving DecidableEq, Repr

/-- What ReadBit returned to the running command: a bit, or EXH (20_memory.md R71). -/
inductive ReadRes where
  | bit (b : Bool)
  | exh
  deriving DecidableEq, Repr

/-- Which child of an internal node is being reconstructed (43_tree_codec.md R172). -/
inductive Side where
  | left
  | right
  deriving DecidableEq, Repr

/-- One entry of the explicit stack of DESERIALIZE_TREE: an internal node, and the child being read (43_tree_codec.md R172). -/
structure Frame where
  node : NodeIdx
  side : Side
  deriving DecidableEq, Repr

/-- ENGINE_CONT (10_state.md R39): where the running command stands. Its representation is the model's own (assumption
20). Every constructor but `idle`, `start` and `heldStart` names the point just after a bit operation (20_memory.md R91) and
holds that operation's result and the values the rest of the command needs. -/
inductive EngineCont where
  /-- Empty: no command is running (10_state.md R39). -/
  | idle
  /-- A command has been accepted; none of its unit steps is taken (60_exceptions.md R230). -/
  | start
  /-- As `start`, of a DECODE_N whose first unit step was held when the host wrote ARG0, which does not lift the hold
  (20_memory.md R78; assumption 24). -/
  | heldStart
  /-- ReadByte (20_memory.md R76) of FREQ_COUNT or ENCODE_EOS: `k` bits were read before, value `v`, now `r`. -/
  | rawByte (k : Nat) (v : Byte) (r : ReadRes)
  /-- EmitCode (44_stream_codec.md R182): `rem` bits of the code of `sym` remain. -/
  | emit (sym : Byte) (rem : Nat)
  /-- SERIALIZE_TREE (43_tree_codec.md R170): `rem` bits of `sym` remain, then the nodes of `stack`, top first. -/
  | ser (stack : List NodeIdx) (sym : Byte) (rem : Nat)
  /-- DESERIALIZE_TREE (43_tree_codec.md R172): a control bit was read; `first` if it was the first. -/
  | desCtl (stack : List Frame) (first : Bool) (r : ReadRes)
  /-- DESERIALIZE_TREE: a bit of the symbol of leaf `n` was read, `k` bits were read before. -/
  | desSym (stack : List Frame) (n : NodeIdx) (k : Nat) (v : Byte) (r : ReadRes)
  /-- DecodeOne (44_stream_codec.md R183) at node `n`; `limit` is the latched N of DECODE_N. -/
  | walk (n : NodeIdx) (started : Bool) (limit : Word) (r : ReadRes)
  /-- DECODE_N or DECODE_EOS: `rem` bits of the output byte `sym` remain (44_stream_codec.md R185, R186). -/
  | outSym (sym : Byte) (rem : Nat) (limit : Word)
  /-- PUT_BITS (45_bitcursor.md R201): `rem` bits of the latched value remain. -/
  | putBits (v : Word) (rem : Nat)
  /-- GET_BITS (45_bitcursor.md R202): `k` bits were read before, value `v`, now `r`. -/
  | getBits (k : Nat) (v : Word) (r : ReadRes)
  /-- FLUSH (45_bitcursor.md R203): a padding bit was written. -/
  | flush
  deriving DecidableEq, Repr

/-- One turn of the interleaving of host and engine (20_memory.md R82, R91; assumption 3). -/
inductive Turn where
  /-- The engine has the turn: one unit step, if one is enabled. -/
  | engine
  /-- The host waits: the engine has every turn until STATUS.DONE = 1 (30_encoding.md R112 WAIT; assumption 15). -/
  | wait
  /-- A host read of `width` bits at `off` (20_memory.md R61). -/
  | read (width : Nat) (off : BitVec 14)
  /-- A host write of `v`, `width` bits wide, at `off` (20_memory.md R61). -/
  | write (width : Nat) (off : BitVec 14) (v : Word)
  /-- The block's reset input changes to `level`: `true` asserts it, `false` deasserts it (70_reset_and_hazards.md R260;
  assumption 13). -/
  | resetPin (level : Bool)
  deriving DecidableEq, Repr

/-- The open parameters (00_scope.md R9), each stored less one, so that every value is legal: 1..255. -/
structure Params where
  inDepth : Fin 255
  outDepth : Fin 255
  deriving DecidableEq, Repr

/-- What lies outside the block: its reset input (70_reset_and_hazards.md R260); and the MODEL's own part of the state: the
open parameters (assumption 5), the turns to come, what the host has read (newest first), and how many unspecified values
have been drawn (assumptions 3 and 6). -/
structure Outside where
  /-- The reset input is asserted (70_reset_and_hazards.md R260). -/
  resetIn : Bool
  params : Params
  agenda : List Turn
  hostReads : List Word
  draws : Nat
  deriving DecidableEq, Repr

/-- The whole machine (10_state.md R20). -/
structure State where
  regs : Regs
  stat : Stat
  heap : Heap
  arena : Arena
  freq : FreqTable
  codes : CodeTable
  inp : BitReader
  out : BitWriter
  cont : EngineCont
  symcnt : Word
  ext : Outside
  deriving DecidableEq, Repr

/-- HEAP_SIZE (10_state.md R26). -/
abbrev Heap.size (h : Heap) : Nat := h.entries.length

/-- NODE_COUNT (10_state.md R28). -/
abbrev Arena.count (a : Arena) : Nat := a.nodes.length

/-- IN_DEPTH, in 1..255 (00_scope.md R9). -/
abbrev Params.inCap (p : Params) : Nat := p.inDepth.val + 1

/-- OUT_DEPTH, in 1..255 (00_scope.md R9). -/
abbrev Params.outCap (p : Params) : Nat := p.outDepth.val + 1

/-- Where the machine stops. None of these is a stop of the spec: each names a state that the spec says cannot occur, so
that a total function has an answer there. SAFE: the model stops where no state of the hardware exists. -/
inductive Fault where
  /-- Raised by BUILD_CODES, SERIALIZE_TREE and DECODE_* when a node index they follow is not allocated, or when a walk of
  BUILD_CODES does not end: TREE_VALID = 1 over an arena that is no tree, excluded by 10_state.md R29 (safe; assumption 11). -/
  | brokenTree
  /-- Raised by a command of several unit steps when ENGINE_CONT is empty or belongs to another command, excluded by
  10_state.md R39 and 60_exceptions.md R230 (safe; assumption 11). -/
  | foreignCont
  /-- Raised by BUILD_TREE if its merge loop did not end within HEAP_CAP + 1 rounds: never (41_tree_builder.md R143; the
  lemma `mergeAll_ends` of Laws/Tree.lean) (safe; assumption 11). -/
  | loopBound
  deriving DecidableEq, Repr

/-- What the model refuses. -/
inductive Refusal where
  /-- An instruction without a meaning yet: no arm of exec answers it. -/
  | notModelled (mnemonic : String)
  /-- A host access that is not 32 bits wide or not 4-byte aligned: "A model refuses it: the host has no such step"
  (20_memory.md R61). Raised by the host port only. UNSAFE if a real host issued one (93_implementation_defined.md U3;
  assumption 12). -/
  | protocolViolation
  deriving DecidableEq, Repr

/-- FREQ and TOTAL at reset and after FREQ_CLEAR (10_state.md R42). -/
def FreqTable.zero : FreqTable := { count := Vector.replicate 256 0, total := 0 }

/-- The code table at reset (10_state.md R42). -/
def CodeTable.zero : CodeTable := { len := Vector.replicate 256 0, bits := Vector.replicate 256 0, valid := false }

/-- The arena at reset and after TREE_CLEAR (10_state.md R42, 41_tree_builder.md R148). -/
def Arena.empty : Arena := { nodes := [], root := Config.nilIdx, valid := false }

/-- The input side at reset (10_state.md R42). -/
def BitReader.empty : BitReader := { fifo := [], rdBuf := 0, rdCnt := 0, rdBits := 0, eos := false }

/-- The output side at reset (10_state.md R42). -/
def BitWriter.empty : BitWriter := { fifo := [], wrAcc := 0, wrCnt := 0, wrBits := 0 }

/-- The machine right after reset (10_state.md R42, 70_reset_and_hazards.md R262). The values of `ext` are the model's own:
the parameters are uninterpreted, and nothing is pending (assumptions 3, 5 and 6); the reset input is deasserted (R260). -/
def State.reset : State :=
  { regs := { curCmd := 0, arg0 := 0, res0 := 0, res1 := 0, ecmd := 0, einfo := 0 }
    stat :=
      { busy := false, done := false, err := false, ecode := .none, partialCode := false, cmdOvr := false,
        inOvf := false, ie := false, abortReq := false }
    heap := { alloc := false, entries := [] }
    arena := Arena.empty
    freq := FreqTable.zero
    codes := CodeTable.zero
    inp := BitReader.empty
    out := BitWriter.empty
    cont := .idle
    symcnt := 0
    ext :=
      { resetIn := false, params := { inDepth := Config.inDepth, outDepth := Config.outDepth }, agenda := [],
        hostReads := [], draws := 0 } }

end Sys2Proof.Machine
end

