-- ==== Sys2Proof/Machine/Ops.lean ====
section
/-! DEFINITION. The named operations every command is built from: completion and errors (60_exceptions.md R221, R230,
R231, R233), the bit cursor (20_memory.md R71, R73), one unit step (R91, R78), the heap procedures (40_heap.md R121,
R123), the arena procedures (41_tree_builder.md R140), table accesses and the release rules. -/

namespace Sys2Proof.Machine

/-- The outcome of one engine step. -/
abbrev Result := Host.Outcome State Fault Refusal

/-! ## Completion, errors and acceptance -/

/-- Completion (60_exceptions.md R231): the last unit step of every command. -/
def complete (s : State) : State :=
  { s with stat := { s.stat with busy := false, done := true }, cont := .idle }

/-- `raise E_X(info)` (60_exceptions.md R221), the release rule being applied already. RES0, RES1 and SYMCNT keep their
values (R224). This is what takes the place of an exception entry in HUFFCORE (R220). -/
def raise (e : ErrCode) (info : Word) (s : State) : State :=
  complete
    { s with
      regs := { s.regs with ecmd := s.regs.curCmd, einfo := info }
      stat := { s.stat with err := true, ecode := e } }

/-- Acceptance of the command word `w` by an idle engine (60_exceptions.md R230). There is no return from an error: the
next acceptance clears its status (R235). -/
def accept (w : Word) (s : State) : State :=
  { s with
    regs := { s.regs with curCmd := w }
    stat :=
      { s.stat with busy := true, done := false, err := false, ecode := .none, partialCode := false, abortReq := false }
    cont := .start }

/-! ## Bits and tables -/

/-- `(v << 1) | b` in the width of `v` (20_memory.md R72, R73). -/
def shiftIn {w : Nat} (v : BitVec w) (b : Bool) : BitVec w := (v <<< 1) ||| (BitVec.ofBool b).setWidth w

/-- Entry `s` of a symbol table (00_scope.md R11). -/
def symGet {α : Type} (t : SymTable α) (s : Byte) : α := t[s.toNat]'s.isLt

/-- Entry `s` of a symbol table replaced (00_scope.md R11). -/
def symSet {α : Type} (t : SymTable α) (s : Byte) (x : α) : SymTable α := t.set s.toNat x s.isLt

/-! ## The bit cursor -/

/-- What a ReadBit does: it holds, it returns EXH and changes nothing, or it returns a bit (20_memory.md R71). -/
inductive ReadOut where
  | hold
  | exh
  | bit (b : Bool) (r : BitReader)
  deriving DecidableEq, Repr

/-- The next bit of a reader whose RD_CNT is not 0 (20_memory.md R71). -/
def takeBit (r : BitReader) : ReadOut :=
  .bit (r.rdBuf.getLsbD (r.rdCnt - 1).toNat) { r with rdCnt := r.rdCnt - 1, rdBits := r.rdBits + 1 }

/-- ReadBit (20_memory.md R71). -/
def readBit (r : BitReader) : ReadOut :=
  if r.rdCnt = 0 then
    match r.fifo with
    | b :: rest => takeBit { r with fifo := rest, rdBuf := b, rdCnt := 8 }
    | [] => if r.eos then .exh else .hold
  else takeBit r

/-- The input is exhausted (20_memory.md R70). -/
def inExhausted (r : BitReader) : Bool := r.rdCnt = 0 && r.fifo.isEmpty && r.eos

/-- WriteBit with an output FIFO of `cap` bytes; `none` is the hold (20_memory.md R73). -/
def writeBit (cap : Nat) (b : Bool) (w : BitWriter) : Option BitWriter :=
  if w.wrCnt = 7 && w.fifo.length = cap then none
  else if w.wrCnt = 7 then
    some { fifo := w.fifo ++ [shiftIn w.wrAcc b], wrAcc := 0, wrCnt := 0, wrBits := w.wrBits + 1 }
  else some { w with wrAcc := shiftIn w.wrAcc b, wrCnt := w.wrCnt + 1, wrBits := w.wrBits + 1 }

/-! ## One unit step -/

/-- What the non-bit work of a command's next unit step leads to (20_memory.md R91): the work itself has been done in the
state each case carries. -/
inductive Work where
  /-- The command completes (60_exceptions.md R231). -/
  | finish (t : State)
  /-- The command raises an error; its release rule is applied in `t` (60_exceptions.md R221). -/
  | fail (e : ErrCode) (info : Word) (t : State)
  /-- A ReadBit comes next; `k` says where the command stands after it. -/
  | read (t : State) (k : ReadRes → EngineCont)
  /-- A WriteBit of `b` comes next; `c` says where the command stands after it. -/
  | write (b : Bool) (t : State) (c : EngineCont)
  /-- The state is one the spec says cannot occur. -/
  | broken (f : Fault)

/-- The bit operation of the step cannot proceed (20_memory.md R78). -/
def Work.blocked : Work → Bool
  | .read t _ => readBit t.inp = .hold
  | .write b t _ => writeBit t.ext.params.outCap b t.out = none
  | .finish _ | .fail _ _ _ | .broken _ => false

/-- One unit step (20_memory.md R91) of a command with release rule `release` and next work `work s`:
- ABORT_REQ is tested first; in the first unit step the abort releases nothing (60_exceptions.md R233);
- the work and at most one bit operation take place together, or, if the bit operation cannot proceed, nothing does: the
  step is not enabled and the state stays as it is (20_memory.md R78; assumptions 1, 2 and 14). -/
def unitStep (release : State → State) (work : State → Work) (s : State) : Result :=
  if s.stat.abortReq then .next (raise .abort 0 (if s.cont = .start then s else release s))
  else
    match work s with
    | .finish t => .next (complete t)
    | .fail e info t => .next (raise e info t)
    | .read t k =>
      match readBit t.inp with
      | .hold => .next s
      | .exh => .next { t with cont := k .exh }
      | .bit b r => .next { t with inp := r, cont := k (.bit b) }
    | .write b t c =>
      match writeBit t.ext.params.outCap b t.out with
      | none => .next s
      | some w => .next { t with out := w, cont := c }
    | .broken f => .fault f

/-! ## Release rules -/

/-- A command without a release rule ("Release on error: none"). -/
def releaseNone (s : State) : State := s

/-- The release rule of FREQ_COUNT (41_tree_builder.md R142). -/
def releaseFreq (s : State) : State := { s with freq := FreqTable.zero }

/-- The release rule of DESERIALIZE_TREE (43_tree_codec.md R172). -/
def releaseArena (s : State) : State := { s with arena := Arena.empty }

/-- The release rule of BUILD_TREE (41_tree_builder.md R143). -/
def releaseBuild (s : State) : State := { s with arena := Arena.empty, heap := { alloc := false, entries := [] } }

/-- The release rule of BUILD_CODES (42_code_table.md R160). -/
def releaseCodes (s : State) : State := { s with codes := CodeTable.zero }

/-- What stands in the place of a release rule for a command that counts the symbols it writes: SYMCNT counts the symbols
completed before the raise (60_exceptions.md R224, 44_stream_codec.md R181), so also the one whose last bit is written and
which the pseudocode counts after that bit (assumption 2). -/
def countWritten (s : State) : State :=
  match s.cont with
  | .emit _ 0 | .outSym _ 0 _ => { s with symcnt := s.symcnt + 1 }
  | _ => s

/-! ## The heap procedures -/

/-- The sift-up loop of HeapInsert (40_heap.md R121) from slot `i`. `fuel` bounds the loop; `i` itself is enough, since
each round goes to the parent. -/
def siftUp : Nat → Nat → List HeapEntry → List HeapEntry
  | 0, _, h => h
  | fuel + 1, i, h =>
    if i = 0 then h
    else
      match h[(i - 1) / 2]?, h[i]? with
      | some p, some c =>
        if c.prio < p.prio then siftUp fuel ((i - 1) / 2) ((h.set ((i - 1) / 2) c).set i p) else h
      | _, _ => h

/-- HeapInsert(p, c, pay) (40_heap.md R121). -/
def heapInsert (h : List HeapEntry) (e : HeapEntry) : List HeapEntry := siftUp h.length h.length (h ++ [e])

/-- The child that the sift-down compares with (40_heap.md R123): the right one only if it exists and is strictly smaller. -/
def smallerChild (h : List HeapEntry) (i : Nat) : Nat :=
  match h[2 * i + 1]?, h[2 * i + 2]? with
  | some l, some r => if r.prio < l.prio then 2 * i + 2 else 2 * i + 1
  | _, _ => 2 * i + 1

/-- The sift-down loop of HeapExtract (40_heap.md R123) from slot `i`. `fuel` bounds the loop; the size of the heap is
enough, since each round goes to a child. -/
def siftDown : Nat → Nat → List HeapEntry → List HeapEntry
  | 0, _, h => h
  | fuel + 1, i, h =>
    match h[smallerChild h i]?, h[i]? with
    | some c, some e =>
      if c.prio < e.prio then siftDown fuel (smallerChild h i) ((h.set (smallerChild h i) e).set i c) else h
    | _, _ => h

/-- HeapExtract() (40_heap.md R123): the root and the heap that is left; `none` if the heap is empty. -/
def heapExtract (h : List HeapEntry) : Option (HeapEntry × List HeapEntry) :=
  match h with
  | [] => none
  | top :: _ =>
    match h.getLast? with
    | none => none
    | some last => some (top, siftDown h.length 0 (h.dropLast.set 0 last))

/-! ## The arena procedures -/

/-- AllocNode (41_tree_builder.md R140): the index of the new node, and the nodes with it. -/
def allocNode (ns : List Node) (n : Node) : NodeIdx × List Node := (BitVec.ofNat 9 ns.length, ns ++ [n])

/-- Promote (41_tree_builder.md R140): a composite entry names its node; a bare one becomes a new leaf. -/
def promote (ns : List Node) (e : HeapEntry) : NodeIdx × List Node :=
  if e.comp then (e.pay, ns) else allocNode ns (.leaf (e.pay.setWidth 8))

/-- NODE[i], if it is allocated (10_state.md R28). -/
def nodeAt (ns : List Node) (i : NodeIdx) : Option Node := ns[i.toNat]?

/-- NODE[i].SYM <- v for a leaf i (43_tree_codec.md R172). -/
def setSym (ns : List Node) (i : NodeIdx) (v : Byte) : List Node := ns.set i.toNat (.leaf v)

/-- NODE[p].LEFT <- n or NODE[p].RIGHT <- n for an internal node p (43_tree_codec.md R172). -/
def setChild (ns : List Node) (p : NodeIdx) (side : Side) (n : NodeIdx) : List Node :=
  match nodeAt ns p with
  | some (.internal l r prio) =>
    match side with
    | .left => ns.set p.toNat (.internal n r prio)
    | .right => ns.set p.toNat (.internal l n prio)
  | _ => ns

end Sys2Proof.Machine
end

