-- ==== Sys2Proof/Machine/Flags.lean ====
section
/-! DEFINITION. The status and control words: the numbers of the error codes (60_exceptions.md R222), STATUS and CTRL as
the host reads and writes them (10_state.md R23, R24), and the interrupt line (10_state.md R41). -/

namespace Sys2Proof.Machine

/-- ECODE (60_exceptions.md R222). -/
def ErrCode.number : ErrCode → BitVec 4
  | .none => 0
  | .illegal => 1
  | .null => 2
  | .state => 3
  | .arg => 4
  | .heapEmpty => 5
  | .capacity => 6
  | .corrupt => 7
  | .degenerate => 8
  | .noCode => 9
  | .abort => 10

/-- STATUS as read (10_state.md R23), bit 31 on the left; `hold` is the derived bit HOLD (20_memory.md R78). -/
def statusWord (hold : Bool) (s : State) : Word :=
  0#16 ++ BitVec.ofBool (inExhausted s.inp) ++ BitVec.ofBool s.inp.eos ++ BitVec.ofBool s.codes.valid
    ++ BitVec.ofBool s.arena.valid ++ BitVec.ofBool s.heap.alloc ++ BitVec.ofBool s.stat.inOvf
    ++ BitVec.ofBool s.stat.cmdOvr ++ BitVec.ofBool s.stat.partialCode ++ s.stat.ecode.number ++ BitVec.ofBool hold
    ++ BitVec.ofBool s.stat.err ++ BitVec.ofBool s.stat.done ++ BitVec.ofBool s.stat.busy

/-- A write of `v` to STATUS (10_state.md R23): W1C of DONE, CMDOVR and IN_OVF, no other bit. -/
def writeStatus (v : Word) (s : State) : State :=
  { s with
    stat :=
      { s.stat with
        done := s.stat.done && !v.getLsbD 1
        cmdOvr := s.stat.cmdOvr && !v.getLsbD 9
        inOvf := s.stat.inOvf && !v.getLsbD 10 } }

/-- CTRL as read (10_state.md R24): IE, and IN_EOS in bit 1; ABORT, SRST and the reserved bits read 0. -/
def ctrlWord (s : State) : Word := 0#30 ++ BitVec.ofBool s.inp.eos ++ BitVec.ofBool s.stat.ie

/-- A write of `v` to CTRL without SRST (10_state.md R24): IE takes bit 0; bit 1 sets IN_EOS; bit 2 sets ABORT_REQ while
BUSY = 1; bits 31:4 are ignored. -/
def writeCtrl (v : Word) (s : State) : State :=
  { s with
    stat := { s.stat with ie := v.getLsbD 0, abortReq := s.stat.abortReq || (v.getLsbD 2 && s.stat.busy) }
    inp := { s.inp with eos := s.inp.eos || v.getLsbD 1 } }

/-- The interrupt output (10_state.md R41, 60_exceptions.md R240). -/
def irq (s : State) : Bool := s.stat.ie && s.stat.done

end Sys2Proof.Machine
end

