-- ==== Sys2Proof/Syntax.lean ====
section
/-! DEFINITION. The commands of HUFFCORE: one constructor for each row of spec/opcode_table.json
(30_encoding.md R107), with the operand fields of its format (R101 to R105). -/

namespace Sys2Proof

inductive Instr where
  /-- NOP, 45_bitcursor.md R200. -/
  | nop
  /-- HEAP_CREATE, 40_heap.md R120. -/
  | heapCreate
  /-- HEAP_DESTROY, 40_heap.md R126. -/
  | heapDestroy
  /-- HEAP_ADD, format FH: is-composite C and payload PAY (30_encoding.md R102, 40_heap.md R122). -/
  | heapAdd (c : Bool) (pay : NodeIdx)
  /-- HEAP_REMOVE, 40_heap.md R124. -/
  | heapRemove
  /-- HEAP_SIZE, 40_heap.md R125. -/
  | heapSize
  /-- FREQ_CLEAR, 41_tree_builder.md R141. -/
  | freqClear
  /-- FREQ_COUNT, 41_tree_builder.md R142. -/
  | freqCount
  /-- BUILD_TREE, 41_tree_builder.md R143. -/
  | buildTree
  /-- TREE_CLEAR, 41_tree_builder.md R148. -/
  | treeClear
  /-- BUILD_CODES, 42_code_table.md R160. -/
  | buildCodes
  /-- SERIALIZE_TREE, 43_tree_codec.md R170. -/
  | serializeTree
  /-- DESERIALIZE_TREE, 43_tree_codec.md R172. -/
  | deserializeTree
  /-- ENCODE_SYM, format FS: the symbol SYM (30_encoding.md R103, 44_stream_codec.md R180). -/
  | encodeSym (sym : Byte)
  /-- ENCODE_EOS, 44_stream_codec.md R181. -/
  | encodeEos
  /-- DECODE_SYM, 44_stream_codec.md R184. -/
  | decodeSym
  /-- DECODE_N, 44_stream_codec.md R185. -/
  | decodeN
  /-- DECODE_EOS, 44_stream_codec.md R186. -/
  | decodeEos
  /-- PUT_BITS, format FB: the bit count N, a 6-bit field (30_encoding.md R104, 45_bitcursor.md R201). -/
  | putBits (n : BitVec 6)
  /-- GET_BITS, format FB (30_encoding.md R104, 45_bitcursor.md R202). -/
  | getBits (n : BitVec 6)
  /-- FLUSH, 45_bitcursor.md R203. -/
  | flush
  /-- STREAM_RESET, format FR: O resets the output side, I the input side (30_encoding.md R105, 45_bitcursor.md R204). -/
  | streamReset (o i : Bool)
  deriving DecidableEq, Repr

end Sys2Proof
end

