-- ==== Sys2Proof/WellFormed.lean ====
section
/-! DEFINITION. Which terms of Instr are commands: the one range check of the formats (30_encoding.md R104, R110 (c)). -/

namespace Sys2Proof

/-- The legal bit counts of format FB: 1 to 32 (30_encoding.md R104). -/
def bitCountLegal (n : BitVec 6) : Bool := 1 ≤ n.toNat && n.toNat ≤ 32

/-- A term is a command unless it is of format FB with N outside 1..32 (30_encoding.md R110 (c)): every other operand
field takes every value its width admits (R102, R103, R105). -/
def WellFormed : Instr → Bool
  | .nop | .heapCreate | .heapDestroy | .heapAdd _ _ | .heapRemove | .heapSize => true
  | .freqClear | .freqCount | .buildTree | .treeClear | .buildCodes => true
  | .serializeTree | .deserializeTree => true
  | .encodeSym _ | .encodeEos | .decodeSym | .decodeN | .decodeEos => true
  | .putBits n => bitCountLegal n
  | .getBits n => bitCountLegal n
  | .flush | .streamReset _ _ => true

end Sys2Proof
end

