-- ==== Sys2Proof/Decode.lean ====
section
/-! DEFINITION. The decoder, total on every 32-bit command word (30_encoding.md R109), and after it the encoder,
written from the same formats and the same opcode map (R101 to R108). -/

namespace Sys2Proof

/-- Why a command word is illegal: the three cases of 30_encoding.md R110. -/
inductive Illegal where
  /-- R110 (a): OPC is not in the opcode map. -/
  | unassignedOpcode
  /-- R110 (b): a bit marked "must be 0" in the format is 1. -/
  | reservedBit
  /-- R110 (c): format FB with N = 0 or N > 32. -/
  | bitCount
  deriving DecidableEq, Repr

/-- What the decoder finds in a word: a command, or the reason it is illegal. -/
inductive Decoded where
  | ok (i : Instr)
  | illegal (why : Illegal)
  deriving DecidableEq, Repr

/-- Bits 31:24, the opcode OPC (30_encoding.md R100). -/
def opcodeOf (w : Word) : Byte := w.extractLsb' 24 8

/-- Format F0 (30_encoding.md R101): bits 23:0 must be 0. -/
def decodeF0 (i : Instr) (w : Word) : Decoded :=
  if w.extractLsb' 0 24 = 0#24 then .ok i else .illegal .reservedBit

/-- Format FH (30_encoding.md R102): bits 23:10 must be 0; C is bit 9 and PAY bits 8:0. -/
def decodeFH (mk : Bool → NodeIdx → Instr) (w : Word) : Decoded :=
  if w.extractLsb' 10 14 = 0#14 then .ok (mk (w.getLsbD 9) (w.extractLsb' 0 9)) else .illegal .reservedBit

/-- Format FS (30_encoding.md R103): bits 23:8 must be 0; SYM is bits 7:0. -/
def decodeFS (mk : Byte → Instr) (w : Word) : Decoded :=
  if w.extractLsb' 8 16 = 0#16 then .ok (mk (w.extractLsb' 0 8)) else .illegal .reservedBit

/-- Format FB (30_encoding.md R104): bits 23:6 must be 0; N is bits 5:0, legal in 1..32. -/
def decodeFB (mk : BitVec 6 → Instr) (w : Word) : Decoded :=
  if w.extractLsb' 6 18 = 0#18 then
    if bitCountLegal (w.extractLsb' 0 6) then .ok (mk (w.extractLsb' 0 6)) else .illegal .bitCount
  else .illegal .reservedBit

/-- Format FR (30_encoding.md R105): bits 23:2 must be 0; O is bit 1 and I bit 0. -/
def decodeFR (mk : Bool → Bool → Instr) (w : Word) : Decoded :=
  if w.extractLsb' 2 22 = 0#22 then .ok (mk (w.getLsbD 1) (w.getLsbD 0)) else .illegal .reservedBit

/-- The opcode map (30_encoding.md R107); every other opcode is illegal (R110 (a)). -/
def decode (w : Word) : Decoded :=
  match (opcodeOf w).toNat with
  | 0x00 => decodeF0 .nop w
  | 0x01 => decodeF0 .heapCreate w
  | 0x02 => decodeF0 .heapDestroy w
  | 0x03 => decodeFH .heapAdd w
  | 0x04 => decodeF0 .heapRemove w
  | 0x05 => decodeF0 .heapSize w
  | 0x10 => decodeF0 .freqClear w
  | 0x11 => decodeF0 .freqCount w
  | 0x12 => decodeF0 .buildTree w
  | 0x13 => decodeF0 .treeClear w
  | 0x14 => decodeF0 .buildCodes w
  | 0x20 => decodeF0 .serializeTree w
  | 0x21 => decodeF0 .deserializeTree w
  | 0x30 => decodeFS .encodeSym w
  | 0x31 => decodeF0 .encodeEos w
  | 0x38 => decodeF0 .decodeSym w
  | 0x39 => decodeF0 .decodeN w
  | 0x3A => decodeF0 .decodeEos w
  | 0x40 => decodeFB .putBits w
  | 0x41 => decodeFB .getBits w
  | 0x42 => decodeF0 .flush w
  | 0x43 => decodeFR .streamReset w
  | _ => .illegal .unassignedOpcode

/-- The instruction the decoder reads from a table row's word: bit 0 of the number is bit 0 of the one command word
(30_encoding.md R100), and bits at and above `nbits` are 0. -/
def decodeTableWord (nbits w : Nat) : Option Instr :=
  match decode (BitVec.ofNat 32 (w % 2 ^ nbits)) with
  | .ok i => some i
  | .illegal _ => none

/-- A word of format F0 (30_encoding.md R101). -/
def encodeF0 (opc : Byte) : Word := opc ++ 0#24

/-- A word of format FH (30_encoding.md R102). -/
def encodeFH (opc : Byte) (c : Bool) (pay : NodeIdx) : Word := opc ++ 0#14 ++ BitVec.ofBool c ++ pay

/-- A word of format FS (30_encoding.md R103). -/
def encodeFS (opc sym : Byte) : Word := opc ++ 0#16 ++ sym

/-- A word of format FB (30_encoding.md R104). -/
def encodeFB (opc : Byte) (n : BitVec 6) : Word := opc ++ 0#18 ++ n

/-- A word of format FR (30_encoding.md R105). -/
def encodeFR (opc : Byte) (o i : Bool) : Word := opc ++ 0#22 ++ BitVec.ofBool o ++ BitVec.ofBool i

/-- The command word of an instruction (30_encoding.md R107). -/
def encode : Instr → Word
  | .nop => encodeF0 0x00
  | .heapCreate => encodeF0 0x01
  | .heapDestroy => encodeF0 0x02
  | .heapAdd c pay => encodeFH 0x03 c pay
  | .heapRemove => encodeF0 0x04
  | .heapSize => encodeF0 0x05
  | .freqClear => encodeF0 0x10
  | .freqCount => encodeF0 0x11
  | .buildTree => encodeF0 0x12
  | .treeClear => encodeF0 0x13
  | .buildCodes => encodeF0 0x14
  | .serializeTree => encodeF0 0x20
  | .deserializeTree => encodeF0 0x21
  | .encodeSym sym => encodeFS 0x30 sym
  | .encodeEos => encodeF0 0x31
  | .decodeSym => encodeF0 0x38
  | .decodeN => encodeF0 0x39
  | .decodeEos => encodeF0 0x3A
  | .putBits n => encodeFB 0x40 n
  | .getBits n => encodeFB 0x41 n
  | .flush => encodeF0 0x42
  | .streamReset o i => encodeFR 0x43 o i

end Sys2Proof
end

