-- ==== Sys2Proof/Machine/Operands.lean ====
section
/-! DEFINITION. Operand assembly (30_encoding.md R106): the operands commands take from ARG0 and from the command word,
and the 32-bit forms in which fields go to EINFO, RES0 and RES1. Nothing is sign-extended, scaled or shifted. -/

namespace Sys2Proof.Machine

/-- ARG0 as a priority is negative (30_encoding.md R102, 40_heap.md R122): bit 31 is set. -/
def argNegative (v : Word) : Bool := v.getLsbD 31

/-- ARG0[30:0] as a priority (30_encoding.md R106). -/
def argPrio (v : Word) : Prio := v.setWidth 31

/-- zext_32({C, PAY}): C in bit 9, PAY in bits 8:0 (40_heap.md R122, R124). -/
def payWord (c : Bool) (pay : NodeIdx) : Word := (BitVec.ofBool c ++ pay).setWidth 32

/-- The payload is the null payload: C = 1 with PAY = NIL (40_heap.md R122). -/
def payNull (c : Bool) (pay : NodeIdx) : Bool := c && pay = Config.nilIdx

/-- The payload of a bare entry is not a symbol: C = 0 with PAY[8] = 1 (40_heap.md R122). -/
def payNotSymbol (c : Bool) (pay : NodeIdx) : Bool := !c && pay.getLsbD 8

/-- The heap entry that HEAP_ADD inserts (40_heap.md R122). -/
def addEntry (arg : Word) (c : Bool) (pay : NodeIdx) : HeapEntry := { prio := argPrio arg, comp := c, pay := pay }

/-- A symbol zero-extended to 32 bits (30_encoding.md R106). -/
def symWord (v : Byte) : Word := v.setWidth 32

/-- A count as a 32-bit word. -/
def natWord (n : Nat) : Word := BitVec.ofNat 32 n

/-- Bit `k` of the value operand of PUT_BITS (30_encoding.md R104); bits above N−1 are never asked for. -/
def fieldBit (v : Word) (k : Nat) : Bool := v.getLsbD k

end Sys2Proof.Machine
end

