-- ==== Sys2Proof/Machine/BitCursor.lean ====
section
/-! DEFINITION. The bit cursor commands (45_bitcursor.md R201 to R204). -/

namespace Sys2Proof.Machine

/-- WriteBits with `rem` bits to go (20_memory.md R74): bit rem − 1 of the latched value is next. -/
def putNext (v : Word) (rem : Nat) (s : State) : Work :=
  match rem with
  | 0 => .finish s
  | k + 1 => .write (fieldBit v k) s (.putBits v k)

/-- PUT_BITS (45_bitcursor.md R201). ARG0 is latched in the first unit step (70_reset_and_hazards.md R279); N outside 1..32 is
E_ILLEGAL with the command word (30_encoding.md R110), and no decoded word has it (assumption 19). -/
def workPutBits (n : BitVec 6) (s : State) : Work :=
  if !bitCountLegal n then .fail .illegal s.regs.curCmd s
  else
    match s.cont with
    | .start => putNext s.regs.arg0 n.toNat s
    | .putBits v rem => putNext v rem s
    | _ => .broken .foreignCont

def execPutBits (n : BitVec 6) (s : State) : Result := unitStep releaseNone (workPutBits n) s

/-- GET_BITS (45_bitcursor.md R202): ReadBits(N), the first bit most significant (20_memory.md R72). -/
def workGetBits (n : BitVec 6) (s : State) : Work :=
  if !bitCountLegal n then .fail .illegal s.regs.curCmd s
  else
    match s.cont with
    | .start => .read s (.getBits 0 0)
    | .getBits k v r =>
      match r with
      | .exh => .fail .corrupt (natWord k) s
      | .bit b =>
        if k + 1 = n.toNat then .finish { s with regs := { s.regs with res0 := shiftIn v b } }
        else .read s (.getBits (k + 1) (shiftIn v b))
    | _ => .broken .foreignCont

def execGetBits (n : BitVec 6) (s : State) : Result := unitStep releaseNone (workGetBits n) s

/-- FLUSH (45_bitcursor.md R203): 0 bits while WR_CNT is not 0. -/
def workFlush (s : State) : Work :=
  match s.cont with
  | .start | .flush => if s.out.wrCnt = 0 then .finish s else .write false s .flush
  | _ => .broken .foreignCont

def execFlush (s : State) : Result := unitStep releaseNone workFlush s

/-- STREAM_RESET (45_bitcursor.md R204): one unit step. -/
def workStreamReset (o i : Bool) (s : State) : Work :=
  .finish { s with inp := if i then BitReader.empty else s.inp, out := if o then BitWriter.empty else s.out }

def execStreamReset (o i : Bool) (s : State) : Result := unitStep releaseNone (workStreamReset o i) s

end Sys2Proof.Machine
end

