-- ==== Sys2Proof/Machine/CodeBuilder.lean ====
section
/-! DEFINITION. The code table builder (42_code_table.md R160 to R163). -/

namespace Sys2Proof.Machine

/-- One entry of the explicit stack of BUILD_CODES: a node with its own copy of the path (42_code_table.md R160). -/
structure PathEntry where
  node : NodeIdx
  len : Nat
  bits : Word
  deriving DecidableEq, Repr

/-- How the walk of BUILD_CODES ends. -/
inductive CodesOut where
  /-- Every leaf has its code; the tables are CODE_LEN and CODE_BITS. -/
  | table (len : SymTable (BitVec 6)) (bits : SymTable Word)
  /-- The leaf of symbol `sym` lies deeper than CODE_MAX. -/
  | tooDeep (sym : Byte)
  /-- The arena is not a tree (assumption 11). -/
  | broken
  deriving DecidableEq, Repr

/-- The loop of BUILD_CODES (42_code_table.md R160): leaves in preorder, a later leaf of the same symbol overwriting an
earlier one (R163). `fuel` bounds the number of visits; a tree has at most NODE_CAP nodes. -/
def codeWalk (ns : List Node) : Nat → List PathEntry → SymTable (BitVec 6) → SymTable Word → CodesOut
  | _, [], len, bits => .table len bits
  | 0, _ :: _, _, _ => .broken
  | fuel + 1, p :: st, len, bits =>
    match nodeAt ns p.node with
    | none => .broken
    | some (.leaf sym) =>
      if Config.codeMax < p.len then .tooDeep sym
      else codeWalk ns fuel st (symSet len sym (BitVec.ofNat 6 p.len)) (symSet bits sym p.bits)
    | some (.internal l r _) =>
      codeWalk ns fuel
        ({ node := l, len := p.len + 1, bits := shiftIn p.bits false }
          :: { node := r, len := p.len + 1, bits := shiftIn p.bits true } :: st)
        len bits

/-- The code table of the tree at `root` (42_code_table.md R160); a lone root leaf has the code `0` (R162). -/
def codesOf (a : Arena) : CodesOut :=
  match nodeAt a.nodes a.root with
  | none => .broken
  | some (.leaf sym) => .table (symSet CodeTable.zero.len sym 1) (symSet CodeTable.zero.bits sym 0)
  | some (.internal _ _ _) =>
    codeWalk a.nodes Config.nodeCap [{ node := a.root, len := 0, bits := 0 }] CodeTable.zero.len CodeTable.zero.bits

/-- BUILD_CODES (42_code_table.md R160). Without a tree it raises E_STATE before it clears anything, so an older table and its
CODES_VALID stay (10_state.md R33 and the flags line of R160 can be read otherwise: assumption 23). -/
def workBuildCodes (s : State) : Work :=
  if !s.arena.valid then .fail .state 0 s
  else
    match codesOf s.arena with
    | .table len bits => .finish { s with codes := { len := len, bits := bits, valid := true } }
    | .tooDeep sym => .fail .capacity (symWord sym) (releaseCodes s)
    | .broken => .broken .brokenTree

def execBuildCodes (s : State) : Result := unitStep releaseCodes workBuildCodes s

end Sys2Proof.Machine
end

