-- ==== Sys2Proof/Machine/HeapCmds.lean ====
section
/-! DEFINITION. The priority heap commands (40_heap.md R120 to R126) and NOP (45_bitcursor.md R200): one unit step each. -/

namespace Sys2Proof.Machine

/-- NOP (45_bitcursor.md R200). -/
def workNop (s : State) : Work := .finish s

def execNop (s : State) : Result := unitStep releaseNone workNop s

/-- HEAP_CREATE (40_heap.md R120). -/
def workHeapCreate (s : State) : Work := .finish { s with heap := { alloc := true, entries := [] } }

def execHeapCreate (s : State) : Result := unitStep releaseNone workHeapCreate s

/-- HEAP_DESTROY (40_heap.md R126). -/
def workHeapDestroy (s : State) : Work :=
  if !s.heap.alloc then .fail .null 0 s else .finish { s with heap := { alloc := false, entries := [] } }

def execHeapDestroy (s : State) : Result := unitStep releaseNone workHeapDestroy s

/-- HEAP_ADD (40_heap.md R122): the checks in the order of the rule, each before any change. -/
def workHeapAdd (c : Bool) (pay : NodeIdx) (s : State) : Work :=
  if !s.heap.alloc then .fail .null 0 s
  else if argNegative s.regs.arg0 then .fail .arg s.regs.arg0 s
  else if payNull c pay then .fail .arg (payWord c pay) s
  else if payNotSymbol c pay then .fail .arg (payWord c pay) s
  else if s.heap.size = Config.heapCap then .fail .capacity (natWord s.heap.size) s
  else .finish { s with heap := { s.heap with entries := heapInsert s.heap.entries (addEntry s.regs.arg0 c pay) } }

def execHeapAdd (c : Bool) (pay : NodeIdx) (s : State) : Result := unitStep releaseNone (workHeapAdd c pay) s

/-- HEAP_REMOVE (40_heap.md R124): RES0 is the priority, RES1 is {C, PAY}. -/
def workHeapRemove (s : State) : Work :=
  if !s.heap.alloc then .fail .null 0 s
  else
    match heapExtract s.heap.entries with
    | none => .fail .heapEmpty 0 s
    | some (e, h) =>
      .finish
        { s with
          heap := { s.heap with entries := h }
          regs := { s.regs with res0 := e.prio.setWidth 32, res1 := payWord e.comp e.pay } }

def execHeapRemove (s : State) : Result := unitStep releaseNone workHeapRemove s

/-- HEAP_SIZE (40_heap.md R125). -/
def workHeapSize (s : State) : Work :=
  if !s.heap.alloc then .fail .null 0 s
  else .finish { s with regs := { s.regs with res0 := natWord s.heap.size } }

def execHeapSize (s : State) : Result := unitStep releaseNone workHeapSize s

end Sys2Proof.Machine
end

