-- ==== Sys2Proof/Machine/TreeBuilder.lean ====
section
/-! DEFINITION. The frequency table and the tree builder (41_tree_builder.md R141 to R148). -/

namespace Sys2Proof.Machine

/-- What ReadByte (20_memory.md R76) makes of the result of one ReadBit. -/
inductive RawOut where
  /-- Fewer than 8 bits so far. -/
  | more (k : Nat) (v : Byte)
  /-- The byte is complete. -/
  | byte (v : Byte)
  /-- END: a clean end of input. -/
  | ended
  /-- The input ended `k` bits into a byte. -/
  | cut (k : Nat)
  deriving DecidableEq, Repr

/-- ReadByte (20_memory.md R76) after `k` bits of value `v`, with the result `r` of the next ReadBit. -/
def rawByte (k : Nat) (v : Byte) (r : ReadRes) : RawOut :=
  match r with
  | .exh => if k = 0 then .ended else .cut k
  | .bit b => if k + 1 = 8 then .byte (shiftIn v b) else .more (k + 1) (shiftIn v b)

/-- FREQ_CLEAR (41_tree_builder.md R141). -/
def workFreqClear (s : State) : Work := .finish { s with freq := FreqTable.zero }

def execFreqClear (s : State) : Result := unitStep releaseNone workFreqClear s

/-- One occurrence of the byte `v` counted (41_tree_builder.md R142). -/
def countByte (f : FreqTable) (v : Byte) : FreqTable :=
  { count := symSet f.count v (symGet f.count v + 1), total := f.total + 1 }

/-- FREQ_COUNT (41_tree_builder.md R142): clears, then counts bytes until the input is exhausted. -/
def workFreqCount (s : State) : Work :=
  match s.cont with
  | .start => .read { s with freq := FreqTable.zero } (.rawByte 0 0)
  | .rawByte k v r =>
    match rawByte k v r with
    | .more k' v' => .read s (.rawByte k' v')
    | .ended => .finish s
    | .cut n => .fail .corrupt (natWord n) (releaseFreq s)
    | .byte v' =>
      if s.freq.total.toNat = Config.prioMax then .fail .capacity (symWord v') (releaseFreq s)
      else .read { s with freq := countByte s.freq v' } (.rawByte 0 0)
  | _ => .broken .foreignCont

def execFreqCount (s : State) : Result := unitStep releaseFreq workFreqCount s

/-- The leaf entries of the symbols with FREQ > 0, in ascending symbol order (41_tree_builder.md R143, R145). -/
def leafEntries (f : SymTable Word) : List HeapEntry :=
  f.toList.zipIdx.filterMap fun p =>
    if p.1 = 0 then none else some { prio := p.1.setWidth 31, comp := false, pay := BitVec.ofNat 9 p.2 }

/-- How the merge of BUILD_TREE ends (41_tree_builder.md R143). -/
inductive MergeOut where
  /-- The tree is complete. -/
  | tree (root : NodeIdx) (nodes : List Node)
  /-- The heap was empty: the table has no symbol. -/
  | empty
  /-- A merged priority exceeds 2^31 − 1. -/
  | overflow (sum : Nat)
  /-- The loop bound ran out: it never does (assumption 11). -/
  | unfinished
  deriving DecidableEq, Repr

/-- One merge of BUILD_TREE (41_tree_builder.md R143): `e1`, then `e2` are promoted, then the internal node with the first as
LEFT and the second as RIGHT is allocated; the composite entry that goes back to the heap, and the nodes. -/
def mergeTwo (ns : List Node) (e1 e2 : HeapEntry) : HeapEntry × List Node :=
  let p1 := promote ns e1
  let p2 := promote p1.2 e2
  let p3 := allocNode p2.2 (.internal p1.1 p2.1 (natWord (e1.prio.toNat + e2.prio.toNat)))
  ({ prio := BitVec.ofNat 31 (e1.prio.toNat + e2.prio.toNat), comp := true, pay := p3.1 }, p3.2)

/-- The merge loop of BUILD_TREE and its last extraction (41_tree_builder.md R143). `fuel` bounds the loop: each round
takes two entries and inserts one. -/
def mergeAll : Nat → List HeapEntry → List Node → MergeOut
  | 0, _, _ => .unfinished
  | fuel + 1, h, ns =>
    match heapExtract h with
    | none => .empty
    | some (e1, h1) =>
      match heapExtract h1 with
      | none => .tree (promote ns e1).1 (promote ns e1).2
      | some (e2, h2) =>
        if Config.prioMax < e1.prio.toNat + e2.prio.toNat then .overflow (e1.prio.toNat + e2.prio.toNat)
        else mergeAll fuel (heapInsert h2 (mergeTwo ns e1 e2).1) (mergeTwo ns e1 e2).2

/-- The whole of BUILD_TREE as a function of the frequency table (41_tree_builder.md R145). -/
def huffmanMerge (f : SymTable Word) : MergeOut :=
  mergeAll (Config.heapCap + 1) ((leafEntries f).foldl heapInsert []) []

/-- BUILD_TREE (41_tree_builder.md R143). HEAP_ALLOC = 0 and HEAP_SIZE = 0 afterwards, always. -/
def workBuildTree (s : State) : Work :=
  match huffmanMerge s.freq.count with
  | .tree root nodes =>
    .finish
      { s with
        arena := { nodes := nodes, root := root, valid := true }
        heap := { alloc := false, entries := [] } }
  | .empty => .fail .degenerate 0 (releaseBuild s)
  | .overflow sum => .fail .capacity (natWord sum) (releaseBuild s)
  | .unfinished => .broken .loopBound

def execBuildTree (s : State) : Result := unitStep releaseBuild workBuildTree s

/-- TREE_CLEAR (41_tree_builder.md R148). -/
def workTreeClear (s : State) : Work := .finish { s with arena := Arena.empty }

def execTreeClear (s : State) : Result := unitStep releaseNone workTreeClear s

end Sys2Proof.Machine
end

