-- ==== Sys2Proof/Machine/StreamCodec.lean ====
section
/-! DEFINITION. The stream encoder and the tree-walk decoder (44_stream_codec.md R180 to R186). -/

namespace Sys2Proof.Machine

/-! ## Encoder -/

/-- EmitCode(v) with `rem` bits to go, then `after` (44_stream_codec.md R182): bit rem − 1 of CODE_BITS[v] is next. -/
def emitNext (v : Byte) (rem : Nat) (after : State → Work) (s : State) : Work :=
  match rem with
  | 0 => after s
  | k + 1 => .write ((symGet s.codes.bits v).getLsbD k) s (.emit v k)

/-- EmitCode(v) from its start (44_stream_codec.md R182): bit CODE_LEN[v] − 1 of CODE_BITS[v], the root edge, is first. -/
def emitStart (v : Byte) (s : State) : Work :=
  emitNext v (symGet s.codes.len v).toNat (.fail .noCode (symWord v)) s

/-- ENCODE_SYM (44_stream_codec.md R180). -/
def workEncodeSym (sym : Byte) (s : State) : Work :=
  match s.cont with
  | .start =>
    if !s.codes.valid then .fail .state 0 { s with symcnt := 0 } else emitStart sym { s with symcnt := 0 }
  | .emit v rem => emitNext v rem (fun t => .finish { t with symcnt := 1 }) s
  | _ => .broken .foreignCont

def execEncodeSym (sym : Byte) (s : State) : Result := unitStep countWritten (workEncodeSym sym) s

/-- ENCODE_EOS (44_stream_codec.md R181). -/
def workEncodeEos (s : State) : Work :=
  match s.cont with
  | .start =>
    if !s.codes.valid then .fail .state 0 { s with symcnt := 0 } else .read { s with symcnt := 0 } (.rawByte 0 0)
  | .rawByte k v r =>
    match rawByte k v r with
    | .more k' v' => .read s (.rawByte k' v')
    | .ended => .finish s
    | .cut n => .fail .corrupt (natWord n) s
    | .byte v' => emitStart v' s
  | .emit v rem => emitNext v rem (fun t => .read { t with symcnt := t.symcnt + 1 } (.rawByte 0 0)) s
  | _ => .broken .foreignCont

def execEncodeEos (s : State) : Result := unitStep countWritten workEncodeEos s

/-! ## Decoder -/

/-- What DecodeOne (44_stream_codec.md R183) makes of the result of one ReadBit at node `n`. -/
inductive WalkOut where
  /-- A leaf is reached: its symbol. -/
  | sym (v : Byte)
  /-- The walk goes on at the child. -/
  | go (n : NodeIdx)
  /-- The input is exhausted. -/
  | exhausted
  /-- A `1` bit under a single-leaf root. -/
  | badBit
  /-- A node that is not allocated (assumption 11). -/
  | broken
  deriving DecidableEq, Repr

/-- The symbol or the next node after the edge to `c` (44_stream_codec.md R183). -/
def arriveAt (ns : List Node) (c : NodeIdx) : WalkOut :=
  match nodeAt ns c with
  | none => .broken
  | some (.leaf sym) => .sym sym
  | some (.internal _ _ _) => .go c

/-- One edge of DecodeOne (44_stream_codec.md R183): 0 goes left, 1 goes right; under a single-leaf root the only code
is `0`. -/
def walkStep (ns : List Node) (n : NodeIdx) (r : ReadRes) : WalkOut :=
  match nodeAt ns n with
  | none => .broken
  | some (.leaf sym) =>
    match r with
    | .exh => .exhausted
    | .bit true => .badBit
    | .bit false => .sym sym
  | some (.internal left right _) =>
    match r with
    | .exh => .exhausted
    | .bit b => arriveAt ns (if b then right else left)

/-- DecodeOne begins at ROOT: its first bit operation (44_stream_codec.md R183). -/
def walkStart (limit : Word) (s : State) : Work := .read s (.walk s.arena.root false limit)

/-- DECODE_SYM (44_stream_codec.md R184). -/
def workDecodeSym (s : State) : Work :=
  match s.cont with
  | .start =>
    if !s.arena.valid then .fail .state 0 { s with symcnt := 0 } else walkStart 0 { s with symcnt := 0 }
  | .walk n _ limit r =>
    match walkStep s.arena.nodes n r with
    | .sym v => .finish { s with regs := { s.regs with res0 := symWord v }, symcnt := 1 }
    | .go c => .read s (.walk c true limit)
    | .exhausted => .fail .corrupt s.symcnt s
    | .badBit => .fail .corrupt s.symcnt s
    | .broken => .broken .brokenTree
  | _ => .broken .foreignCont

def execDecodeSym (s : State) : Result := unitStep releaseNone workDecodeSym s

/-- WriteBits(8, v) with `rem` bits to go, then `after` (20_memory.md R74). -/
def outNext (v : Byte) (rem : Nat) (limit : Word) (after : State → Work) (s : State) : Work :=
  match rem with
  | 0 => after s
  | k + 1 => .write (v.getLsbD k) s (.outSym v k limit)

/-- The loop test of DECODE_N (44_stream_codec.md R185): another symbol while SYMCNT < N. -/
def decodeNLoop (limit : Word) (s : State) : Work :=
  if s.symcnt < limit then walkStart limit s else .finish s

/-- DECODE_N in its first unit step (44_stream_codec.md R185): N is ARG0 as this step finds it (70_reset_and_hazards.md R279). -/
def decodeNStart (s : State) : Work :=
  if !s.arena.valid then .fail .state 0 { s with symcnt := 0 } else decodeNLoop s.regs.arg0 { s with symcnt := 0 }

/-- DECODE_N (44_stream_codec.md R185). A hold of the first unit step during which ARG0 was written lasts, whatever the new N,
until its ReadBit can proceed (20_memory.md R78; assumption 24). -/
def workDecodeN (s : State) : Work :=
  match s.cont with
  | .start => decodeNStart s
  | .heldStart => if readBit s.inp = .hold then walkStart s.regs.arg0 s else decodeNStart s
  | .walk n _ limit r =>
    match walkStep s.arena.nodes n r with
    | .sym v => outNext v 8 limit (decodeNLoop limit) s
    | .go c => .read s (.walk c true limit)
    | .exhausted => .fail .corrupt s.symcnt s
    | .badBit => .fail .corrupt s.symcnt s
    | .broken => .broken .brokenTree
  | .outSym v rem limit => outNext v rem limit (fun t => decodeNLoop limit { t with symcnt := t.symcnt + 1 }) s
  | _ => .broken .foreignCont

def execDecodeN (s : State) : Result := unitStep countWritten workDecodeN s

/-- DECODE_EOS (44_stream_codec.md R186): exhaustion ends it without an error, with PARTIAL = 1 inside a code. -/
def workDecodeEos (s : State) : Work :=
  match s.cont with
  | .start =>
    if !s.arena.valid then .fail .state 0 { s with symcnt := 0 } else walkStart 0 { s with symcnt := 0 }
  | .walk n started limit r =>
    match walkStep s.arena.nodes n r with
    | .sym v => outNext v 8 limit (walkStart limit) s
    | .go c => .read s (.walk c true limit)
    | .exhausted => .finish { s with stat := { s.stat with partialCode := s.stat.partialCode || started } }
    | .badBit => .fail .corrupt s.symcnt s
    | .broken => .broken .brokenTree
  | .outSym v rem limit => outNext v rem limit (fun t => walkStart limit { t with symcnt := t.symcnt + 1 }) s
  | _ => .broken .foreignCont

def execDecodeEos (s : State) : Result := unitStep countWritten workDecodeEos s

end Sys2Proof.Machine
end

