-- ==== Sys2Proof/Machine/TreeCodec.lean ====
section
/-! DEFINITION. The preorder tree codec (43_tree_codec.md R170 to R174). -/

namespace Sys2Proof.Machine

/-- The loop of SERIALIZE_TREE with the stack `st`, top first (43_tree_codec.md R170): a leaf writes 1 and then its
symbol, an internal node writes 0 and pushes its children. -/
def serNext (st : List NodeIdx) (s : State) : Work :=
  match st with
  | [] => .finish s
  | n :: st' =>
    match nodeAt s.arena.nodes n with
    | none => .broken .brokenTree
    | some (.leaf sym) => .write true s (.ser st' sym 8)
    | some (.internal l r _) => .write false s (.ser (l :: r :: st') 0 0)

/-- SERIALIZE_TREE (43_tree_codec.md R170). -/
def workSerializeTree (s : State) : Work :=
  match s.cont with
  | .start => if !s.arena.valid then .fail .state 0 s else serNext [s.arena.root] s
  | .ser st sym rem =>
    match rem with
    | 0 => serNext st s
    | k + 1 => .write (sym.getLsbD k) s (.ser st sym k)
  | _ => .broken .foreignCont

def execSerializeTree (s : State) : Result := unitStep releaseNone workSerializeTree s

/-- The subtree at `n` is complete (43_tree_codec.md R172): it becomes the child its parent waits for, or the root. -/
def deliver : NodeIdx → List Frame → State → Work
  | n, [], s => .finish { s with arena := { s.arena with root := n, valid := true } }
  | n, f :: st, s =>
    match f.side with
    | .left =>
      .read { s with arena := { s.arena with nodes := setChild s.arena.nodes f.node .left n } }
        (.desCtl ({ f with side := .right } :: st) false)
    | .right => deliver f.node st { s with arena := { s.arena with nodes := setChild s.arena.nodes f.node .right n } }

/-- DESERIALIZE_TREE after a control bit `b` (43_tree_codec.md R172): a node is allocated, unless the arena is full. -/
def desControl (st : List Frame) (b : Bool) (s : State) : Work :=
  if s.arena.count = Config.nodeCap then .fail .capacity (natWord s.arena.count) (releaseArena s)
  else if b then
    let p := allocNode s.arena.nodes (.leaf 0)
    .read { s with arena := { s.arena with nodes := p.2 } } (.desSym st p.1 0 0)
  else
    let p := allocNode s.arena.nodes (.internal Config.nilIdx Config.nilIdx 0)
    .read { s with arena := { s.arena with nodes := p.2 } } (.desCtl ({ node := p.1, side := .left } :: st) false)

/-- DESERIALIZE_TREE (43_tree_codec.md R172, R173). EINFO is the number of nodes allocated when the exhaustion was found,
before the release. -/
def workDeserializeTree (s : State) : Work :=
  match s.cont with
  | .start => .read { s with arena := Arena.empty } (.desCtl [] true)
  | .desCtl st first r =>
    match r with
    | .exh =>
      if first then .fail .degenerate 0 (releaseArena s)
      else .fail .corrupt (natWord s.arena.count) (releaseArena s)
    | .bit b => desControl st b s
  | .desSym st n k v r =>
    match r with
    | .exh => .fail .corrupt (natWord s.arena.count) (releaseArena s)
    | .bit b =>
      if k + 1 = 8 then
        deliver n st { s with arena := { s.arena with nodes := setSym s.arena.nodes n (shiftIn v b) } }
      else .read s (.desSym st n (k + 1) (shiftIn v b))
  | _ => .broken .foreignCont

def execDeserializeTree (s : State) : Result := unitStep releaseArena workDeserializeTree s

end Sys2Proof.Machine
end

