-- ==== Sys2Proof/Machine/Dispatch.lean ====
section
/-! DEFINITION. One unit step of each command (20_memory.md R91): one arm per constructor of Instr. -/

namespace Sys2Proof.Machine

def exec (i : Instr) (s : State) : Host.Outcome State Fault Refusal :=
  match i with
  | .nop => Sys2Proof.Machine.execNop s
  | .heapCreate => Sys2Proof.Machine.execHeapCreate s
  | .heapDestroy => Sys2Proof.Machine.execHeapDestroy s
  | .heapAdd c pay => Sys2Proof.Machine.execHeapAdd c pay s
  | .heapRemove => Sys2Proof.Machine.execHeapRemove s
  | .heapSize => Sys2Proof.Machine.execHeapSize s
  | .freqClear => Sys2Proof.Machine.execFreqClear s
  | .freqCount => Sys2Proof.Machine.execFreqCount s
  | .buildTree => Sys2Proof.Machine.execBuildTree s
  | .treeClear => Sys2Proof.Machine.execTreeClear s
  | .buildCodes => Sys2Proof.Machine.execBuildCodes s
  | .serializeTree => Sys2Proof.Machine.execSerializeTree s
  | .deserializeTree => Sys2Proof.Machine.execDeserializeTree s
  | .encodeSym sym => Sys2Proof.Machine.execEncodeSym sym s
  | .encodeEos => Sys2Proof.Machine.execEncodeEos s
  | .decodeSym => Sys2Proof.Machine.execDecodeSym s
  | .decodeN => Sys2Proof.Machine.execDecodeN s
  | .decodeEos => Sys2Proof.Machine.execDecodeEos s
  | .putBits n => Sys2Proof.Machine.execPutBits n s
  | .getBits n => Sys2Proof.Machine.execGetBits n s
  | .flush => Sys2Proof.Machine.execFlush s
  | .streamReset outp inp => Sys2Proof.Machine.execStreamReset outp inp s

end Sys2Proof.Machine
end

