-- ==== Sys2Proof/Machine/Hold.lean ====
section
/-! DEFINITION. Whether the engine's next unit step is held (20_memory.md R78): the bit STATUS.HOLD, derived and not
stored (10_state.md R23). -/

namespace Sys2Proof.Machine

/-- An illegal command word (60_exceptions.md R232): E_ILLEGAL with the word, nothing else changed (30_encoding.md R110). -/
def workIllegal (s : State) : Work := .fail .illegal s.regs.curCmd s

/-- The work of the next unit step of each command. -/
def workOf : Instr → State → Work
  | .nop => workNop
  | .heapCreate => workHeapCreate
  | .heapDestroy => workHeapDestroy
  | .heapAdd c pay => workHeapAdd c pay
  | .heapRemove => workHeapRemove
  | .heapSize => workHeapSize
  | .freqClear => workFreqClear
  | .freqCount => workFreqCount
  | .buildTree => workBuildTree
  | .treeClear => workTreeClear
  | .buildCodes => workBuildCodes
  | .serializeTree => workSerializeTree
  | .deserializeTree => workDeserializeTree
  | .encodeSym sym => workEncodeSym sym
  | .encodeEos => workEncodeEos
  | .decodeSym => workDecodeSym
  | .decodeN => workDecodeN
  | .decodeEos => workDecodeEos
  | .putBits n => workPutBits n
  | .getBits n => workGetBits n
  | .flush => workFlush
  | .streamReset o i => workStreamReset o i

/-- The bit operation of the next unit step of the command `i` cannot proceed (20_memory.md R78). -/
def blocked (i : Instr) (s : State) : Bool := (workOf i s).blocked

/-- STATUS.HOLD (10_state.md R23, 20_memory.md R78): BUSY = 1 and the next unit step is not enabled. ABORT_REQ enables it
(60_exceptions.md R233; assumption 17). -/
def held (s : State) : Bool :=
  s.stat.busy && !s.stat.abortReq &&
    match decode s.regs.curCmd with
    | .ok i => blocked i s
    | .illegal _ => false

/-- A DECODE_N is held in its first unit step. Of the commands that read ARG0 there (70_reset_and_hazards.md R279) it is the
only one whose hold depends on ARG0 (assumption 24). -/
def heldAtCount (s : State) : Bool := decode s.regs.curCmd = .ok .decodeN && s.cont = .start && held s

end Sys2Proof.Machine
end

