-- ==== Sys2Proof/Machine/HostPort.lean ====
section
/-! DEFINITION. The register port: the address map (20_memory.md R63), the words of the registers and windows (R63, R64,
10_state.md R40), and the effects of host reads and writes (R61, R62, R65 to R68; 60_exceptions.md R230; 10_state.md R23,
R24; 70_reset_and_hazards.md R260, R261). -/

namespace Sys2Proof.Machine

/-- The registers and windows of the aperture (20_memory.md R63). -/
inductive Reg where
  | id | ctrl | status | cmd | arg0 | res0 | res1 | ecmd | einfo | heapSize | root | nodeCount | total | symcnt | cursor
  | rdBits | wrBits | fifo | inData | outData | param0 | param1
  | freq (s : Byte)
  | codeLen (s : Byte)
  | codeBits (s : Byte)
  | node (i : NodeIdx)
  | nodePrio (i : NodeIdx)
  | heapPrio (i : Byte)
  | heapPay (i : Byte)
  /-- An offset that maps to nothing (20_memory.md R62). -/
  | unmapped
  deriving DecidableEq, Repr

/-- The named registers, by word number (20_memory.md R63). -/
def namedReg : Nat → Reg
  | 0 => .id
  | 1 => .ctrl
  | 2 => .status
  | 3 => .cmd
  | 4 => .arg0
  | 5 => .res0
  | 6 => .res1
  | 7 => .ecmd
  | 8 => .einfo
  | 9 => .heapSize
  | 10 => .root
  | 11 => .nodeCount
  | 12 => .total
  | 13 => .symcnt
  | 14 => .cursor
  | 15 => .rdBits
  | 16 => .wrBits
  | 17 => .fifo
  | 18 => .inData
  | 19 => .outData
  | 20 => .param0
  | 21 => .param1
  | _ => .unmapped

/-- What a 4-byte aligned offset maps to (20_memory.md R63): 0x17FC, 0x1FFC and 0x2800..0x3FFF map to nothing. -/
def regAt (off : BitVec 14) : Reg :=
  let a := off.toNat
  if a < 0x400 then namedReg (a / 4)
  else if a < 0x800 then .freq (BitVec.ofNat 8 ((a - 0x400) / 4))
  else if a < 0xC00 then .codeLen (BitVec.ofNat 8 ((a - 0x800) / 4))
  else if a < 0x1000 then .codeBits (BitVec.ofNat 8 ((a - 0xC00) / 4))
  else if a < 0x17FC then .node (BitVec.ofNat 9 ((a - 0x1000) / 4))
  else if a < 0x1800 then .unmapped
  else if a < 0x1FFC then .nodePrio (BitVec.ofNat 9 ((a - 0x1800) / 4))
  else if a < 0x2000 then .unmapped
  else if a < 0x2400 then .heapPrio (BitVec.ofNat 8 ((a - 0x2000) / 4))
  else if a < 0x2800 then .heapPay (BitVec.ofNat 8 ((a - 0x2400) / 4))
  else .unmapped

/-- ID (10_state.md R40, 00_scope.md R2). -/
def idWord : Word := 0x48554601#32

/-- PARAM0 = {NODE_CAP, HEAP_CAP} (10_state.md R40). -/
def param0Word : Word := BitVec.ofNat 16 Config.nodeCap ++ BitVec.ofNat 16 Config.heapCap

/-- PARAM1 = {0, OUT_DEPTH, IN_DEPTH, CODE_MAX} (10_state.md R40). -/
def param1Word (p : Params) : Word :=
  0#8 ++ BitVec.ofNat 8 p.outCap ++ BitVec.ofNat 8 p.inCap ++ BitVec.ofNat 8 Config.codeMax

/-- CURSOR (20_memory.md R63): RD_CNT in 3:0, RD_BUF in 15:8, WR_CNT in 18:16, WR_ACC in 31:24. -/
def cursorWord (s : State) : Word :=
  s.out.wrAcc ++ 0#5 ++ s.out.wrCnt ++ s.inp.rdBuf ++ 0#4 ++ s.inp.rdCnt

/-- FIFO (20_memory.md R63): IN_LEVEL in 7:0, OUT_LEVEL in 15:8. -/
def fifoWord (s : State) : Word :=
  0#16 ++ BitVec.ofNat 8 s.out.fifo.length ++ BitVec.ofNat 8 s.inp.fifo.length

/-- NODE[i] as the window shows it (20_memory.md R64): bit 31 allocated, bit 30 LEAF; SYM in 7:0, or LEFT in 17:9 and RIGHT
in 8:0; 0 beyond NODE_COUNT. -/
def nodeWord (ns : List Node) (i : NodeIdx) : Word :=
  match nodeAt ns i with
  | some (.leaf sym) => 0b11#2 ++ 0#22 ++ sym
  | some (.internal l r _) => 0b10#2 ++ 0#12 ++ l ++ r
  | none => 0

/-- NODE_PRIO[i] (20_memory.md R64); a leaf's PRIO is 0 (10_state.md R28). -/
def nodePrioWord (ns : List Node) (i : NodeIdx) : Word :=
  match nodeAt ns i with
  | some (.internal _ _ prio) => prio
  | some (.leaf _) => 0
  | none => 0

/-- HEAP_PRIO[i] (20_memory.md R64). -/
def heapPrioWord (h : Heap) (i : Byte) : Word :=
  match h.entries[i.toNat]? with
  | some e => e.prio.setWidth 32
  | none => 0

/-- HEAP_PAY[i] = {0, C, PAY} (20_memory.md R64). -/
def heapPayWord (h : Heap) (i : Byte) : Word :=
  match h.entries[i.toNat]? with
  | some e => 0#22 ++ BitVec.ofBool e.comp ++ e.pay
  | none => 0

/-- A read of OUT_DATA (20_memory.md R67): the oldest byte with bit 8 set, and it leaves the FIFO; or 0. -/
def popOut (s : State) : Word × State :=
  match s.out.fifo with
  | b :: rest => (0#23 ++ 1#1 ++ b, { s with out := { s.out with fifo := rest } })
  | [] => (0, s)

/-- An unspecified value (20_memory.md R68, 93_implementation_defined.md U1): a fresh free value per read. -/
def drawRead (s : State) : Word × State :=
  (Config.freeRead s.ext.draws, { s with ext := { s.ext with draws := s.ext.draws + 1 } })

/-- The registers whose reads are exact while BUSY = 1 (20_memory.md R68). An unmapped offset is no register: it reads 0
(R62; assumption 8). -/
def exactWhileBusy : Reg → Bool
  | .id | .ctrl | .status | .cmd | .arg0 | .fifo | .outData | .param0 | .param1 | .unmapped => true
  | .res0 | .res1 | .ecmd | .einfo | .heapSize | .root | .nodeCount | .total | .symcnt | .cursor | .rdBits | .wrBits
  | .inData => false
  | .freq _ | .codeLen _ | .codeBits _ | .node _ | .nodePrio _ | .heapPrio _ | .heapPay _ => false

/-- A read of a register with its exact value and its side effect (20_memory.md R63, R64, R65). IN_DATA is write-only: the
value of a read is not stated, hence free (assumption 7). -/
def readExact (s : State) : Reg → Word × State
  | .id => (idWord, s)
  | .ctrl => (ctrlWord s, s)
  | .status => (statusWord (held s) s, s)
  | .cmd => (s.regs.curCmd, s)
  | .arg0 => (s.regs.arg0, s)
  | .res0 => (s.regs.res0, s)
  | .res1 => (s.regs.res1, s)
  | .ecmd => (s.regs.ecmd, s)
  | .einfo => (s.regs.einfo, s)
  | .heapSize => (BitVec.ofNat 32 s.heap.size, s)
  | .root => (s.arena.root.setWidth 32, s)
  | .nodeCount => (BitVec.ofNat 32 s.arena.count, s)
  | .total => (s.freq.total, s)
  | .symcnt => (s.symcnt, s)
  | .cursor => (cursorWord s, s)
  | .rdBits => (s.inp.rdBits, s)
  | .wrBits => (s.out.wrBits, s)
  | .fifo => (fifoWord s, s)
  | .inData => drawRead s
  | .outData => popOut s
  | .param0 => (param0Word, s)
  | .param1 => (param1Word s.ext.params, s)
  | .freq i => (symGet s.freq.count i, s)
  | .codeLen i => ((symGet s.codes.len i).setWidth 32, s)
  | .codeBits i => (symGet s.codes.bits i, s)
  | .node i => (nodeWord s.arena.nodes i, s)
  | .nodePrio i => (nodePrioWord s.arena.nodes i, s)
  | .heapPrio i => (heapPrioWord s.heap i, s)
  | .heapPay i => (heapPayWord s.heap i, s)
  | .unmapped => (0, s)

/-- A host read of a register: exact, or unspecified while BUSY = 1 (20_memory.md R68). -/
def readReg (r : Reg) (s : State) : Word × State :=
  if s.stat.busy && !exactWhileBusy r then drawRead s else readExact s r

/-- A reset of the block (70_reset_and_hazards.md R260, R261): every state element of the block takes its reset value
(10_state.md R42). What lies outside the block stays: the parameters, the turns to come, what the host has read, and the
count of drawn values (assumption 22). The reset input itself is an input and stays too. -/
def resetBlock (s : State) : State := { State.reset with ext := s.ext }

/-- A push to IN_DATA (20_memory.md R66). -/
def pushIn (v : Word) (s : State) : State :=
  if !s.inp.eos && s.inp.fifo.length < s.ext.params.inCap then
    { s with inp := { s.inp with fifo := s.inp.fifo ++ [v.setWidth 8] } }
  else { s with stat := { s.stat with inOvf := true } }

/-- A write to CMD (60_exceptions.md R230): accepted when idle, dropped with CMDOVR when busy. -/
def writeCmd (v : Word) (s : State) : State :=
  if s.stat.busy then { s with stat := { s.stat with cmdOvr := true } } else accept v s

/-- A write to ARG0 stores the value (10_state.md R21). A command that is running sees it only if its first unit step is still to
come (70_reset_and_hazards.md R279, 60_exceptions.md R230), and it lifts no hold (20_memory.md R78; assumption 24). -/
def writeArg (v : Word) (s : State) : State :=
  { s with regs := { s.regs with arg0 := v }, cont := if heldAtCount s then .heldStart else s.cont }

/-- A host write to a register (20_memory.md R65). Read-only registers, windows and unmapped offsets ignore it (R62). A CTRL
write with SRST = 1 is a reset and nothing else (10_state.md R24). -/
def writeReg (r : Reg) (v : Word) (s : State) : State :=
  match r with
  | .ctrl => if v.getLsbD 3 then resetBlock s else writeCtrl v s
  | .status => writeStatus v s
  | .cmd => writeCmd v s
  | .arg0 => writeArg v s
  | .inData => pushIn v s
  | .id | .res0 | .res1 | .ecmd | .einfo | .heapSize | .root | .nodeCount | .total | .symcnt | .cursor | .rdBits
  | .wrBits | .fifo | .outData | .param0 | .param1 | .unmapped => s
  | .freq _ | .codeLen _ | .codeBits _ | .node _ | .nodePrio _ | .heapPrio _ | .heapPay _ => s

/-- Only 32-bit accesses at multiples of 4 exist (20_memory.md R61). -/
def accessLegal (width : Nat) (off : BitVec 14) : Bool := width = 32 && off.toNat % 4 = 0

/-- The word of a read goes to the host (20_memory.md R61; assumption 3). -/
def returnWord (p : Word × State) : State := { p.2 with ext := { p.2.ext with hostReads := p.1 :: p.2.ext.hostReads } }

/-- A host read (20_memory.md R61, R65). -/
def hostRead (width : Nat) (off : BitVec 14) (s : State) : Result :=
  if accessLegal width off then .next (returnWord (readReg (regAt off) s)) else .refused .protocolViolation

/-- A host write (20_memory.md R61, R65). -/
def hostWrite (width : Nat) (off : BitVec 14) (v : Word) (s : State) : Result :=
  if accessLegal width off then .next (writeReg (regAt off) v s) else .refused .protocolViolation

end Sys2Proof.Machine
end

