-- ==== Sys2Proof/Machine/Engine.lean ====
section
/-! DEFINITION. The engine's turn and the turns of the interleaving (20_memory.md R82, R90, R91, R92). -/

namespace Sys2Proof.Machine

/-- The only unit step of an illegal command word (60_exceptions.md R232); an abort comes first (R225). -/
def execIllegal (s : State) : Result := unitStep releaseNone workIllegal s

/-- The engine's turn: one unit step of the running command, decoded from CUR_CMD (60_exceptions.md R232); an idle engine
has no step to take and the state stays (70_reset_and_hazards.md R263). -/
def engineTurn (s : State) : Result :=
  if s.stat.busy then
    match decode s.regs.curCmd with
    | .ok i => exec i s
    | .illegal _ => execIllegal s
  else .next s

/-- The agenda replaced. -/
def withAgenda (a : List Turn) (s : State) : State := { s with ext := { s.ext with agenda := a } }

/-- The reset input changes (70_reset_and_hazards.md R260): asserted, every state element of the block takes its reset
value; deasserted, the block is as it is, in the reset state if it was asserted (assumption 13). -/
def setResetPin (level : Bool) (s : State) : State :=
  let t := { s with ext := { s.ext with resetIn := level } }
  if level then resetBlock t else t

/-- A turn while the reset input is deasserted: the one at the head of the agenda, or, when the agenda is used up, the
engine's, which is the fairness of 20_memory.md R92 (assumption 3). -/
def runTurn (s : State) : Result :=
  match s.ext.agenda with
  | [] => engineTurn s
  | .engine :: rest => engineTurn (withAgenda rest s)
  | .wait :: rest => if s.stat.done then .next (withAgenda rest s) else engineTurn s
  | .read width off :: rest => hostRead width off (withAgenda rest s)
  | .write width off v :: rest => hostWrite width off v (withAgenda rest s)
  | .resetPin level :: rest => .next (setResetPin level (withAgenda rest s))

/-- A turn while the reset input is asserted (70_reset_and_hazards.md R260): every state element of the block has its reset
value, so the engine is idle, DONE stays 0, a read returns what the reset state reads as, and a write changes nothing
(assumption 13). -/
def resetTurn (s : State) : Result :=
  match s.ext.agenda with
  | [] => .next (resetBlock s)
  | .engine :: rest => .next (resetBlock (withAgenda rest s))
  | .wait :: _ => .next (resetBlock s)
  | .read width off :: rest => hostRead width off (resetBlock (withAgenda rest s))
  | .write width off _ :: rest =>
    if accessLegal width off then .next (resetBlock (withAgenda rest s)) else .refused .protocolViolation
  | .resetPin level :: rest => .next (setResetPin level (resetBlock (withAgenda rest s)))

/-- One step of the whole machine (20_memory.md R82, R91). -/
def takeTurn (s : State) : Result := if s.ext.resetIn then resetTurn s else runTurn s

/-- The machine with the command word `w` just accepted (60_exceptions.md R230), its reset input deasserted and the engine
next to move. It stands for the host's CMD write that brings a command to run (assumption 4). -/
def loadCommand (w : Word) (s : State) : State :=
  accept w { s with ext := { s.ext with resetIn := false, agenda := [] } }

end Sys2Proof.Machine
end

