-- ==== Sys2Proof/Machine/Step.lean ====
section
/-! DEFINITION. The step of the machine: one turn of the interleaving of host and engine (20_memory.md R82, R91). -/

namespace Sys2Proof.Machine

def step (s : State) : Host.Outcome State Fault Refusal := takeTurn s

/-- `s` with the command word of `nbits` bits `w` accepted, so that the very next step is its first unit step (HUFFCORE has
no program memory and no fetch: 10_state.md R22; assumption 4). -/
def State.withFetchWord (s : State) (nbits w : Nat) : State := loadCommand (BitVec.ofNat 32 (w % 2 ^ nbits)) s

end Sys2Proof.Machine
end

