-- ==== Sys2Proof/Safety.lean ====
section
/-! DEFINITION. The terms claims are made in: whole runs of one command, bit streams in stream order, trees and the arena
that holds one, and the invariants that rule out the states no run reaches. -/

namespace Sys2Proof.Machine

/-! ## Runs of one command -/

/-- `n` unit steps of the command `i` (20_memory.md R91) with no host access between them. -/
def runUnits (i : Instr) : Nat → State → Result
  | 0, s => .next s
  | n + 1, s =>
    match exec i s with
    | .next t => runUnits i n t
    | .fault f => .fault f
    | .refused r => .refused r

/-- A command is accepted, none of its unit steps is taken and no abort is requested (60_exceptions.md R230). -/
def Ready (s : State) : Prop := s.cont = .start ∧ s.stat.abortReq = false

/-- The next unit step of a DECODE_N is its first, and no hold that outlasted a write of ARG0 stands any more (20_memory.md R78,
70_reset_and_hazards.md R279; assumption 24). -/
def AtFirstStep (s : State) : Prop := s.cont = .start ∨ s.cont = .heldStart ∧ readBit s.inp ≠ .hold

/-- The unit step of `i` from `s` has the ReadBit of 20_memory.md R71 as its bit operation, `t` being `s` with the work before
it done: with an empty, unterminated input the step is held and nothing changes (R78); otherwise the work is done, and the
command stands after the operation at `k` of what it returned, EXH or a bit. -/
def StepReads (i : Instr) (s t : State) (k : ReadRes → EngineCont) : Prop :=
  (readBit s.inp = .hold → exec i s = .next s) ∧
    (readBit s.inp = .exh → exec i s = .next { t with cont := k .exh }) ∧
    ∀ b r, readBit s.inp = .bit b r → exec i s = .next { t with inp := r, cont := k (.bit b) }

/-- The unit step of `i` from `s` has the WriteBit of `b` (20_memory.md R73) as its bit operation, `t` being `s` with the work
before it done: if the bit completes a byte for which the output FIFO has no room the step is held and nothing changes (R78);
otherwise the work is done, the bit is written, and the command stands at `c`. -/
def StepWrites (i : Instr) (s t : State) (b : Bool) (c : EngineCont) : Prop :=
  (writeBit s.ext.params.outCap b s.out = none → exec i s = .next s) ∧
    ∀ w, writeBit s.ext.params.outCap b s.out = some w → exec i s = .next { t with out := w, cont := c }

/-! ## Bit streams, in stream order (20_memory.md R75) -/

/-- The low `n` bits of `v`, most significant first (20_memory.md R74). -/
def bitsOf {w : Nat} : Nat → BitVec w → List Bool
  | 0, _ => []
  | k + 1, v => v.getLsbD k :: bitsOf k v

/-- The number whose bits these are, the first most significant (20_memory.md R72). -/
def ofBits {w : Nat} (bs : List Bool) : BitVec w := bs.foldl shiftIn 0

/-- A string of bytes as bits (20_memory.md R75). -/
def bytesBits (l : List Byte) : List Bool := l.flatMap (bitsOf 8)

/-- The unread input bits the block holds: the rest of RD_BUF, then the input FIFO (10_state.md R34, R36). -/
def inBits (r : BitReader) : List Bool := bitsOf r.rdCnt.toNat r.rdBuf ++ bytesBits r.fifo

/-- The output bits the block holds: the output FIFO, then WR_ACC (10_state.md R35, R37). -/
def outBits (w : BitWriter) : List Bool := bytesBits w.fifo ++ bitsOf w.wrCnt.toNat w.wrAcc

/-- `n` more bits can be written without a hold (20_memory.md R73, R78). -/
def outRoom (cap n : Nat) (w : BitWriter) : Prop := 8 * w.fifo.length + w.wrCnt.toNat + n < 8 * (cap + 1)

/-! ## The heap -/

/-- The heap invariant (10_state.md R27). -/
def HeapOrdered (h : List HeapEntry) : Prop :=
  ∀ (i : Nat) (p c : HeapEntry), 0 < i → h[(i - 1) / 2]? = some p → h[i]? = some c → p.prio ≤ c.prio

/-- The loop of HeapInsert (40_heap.md R121) from slot `i` of the first heap ends with the second: an entry is swapped with its
parent while the parent's PRIO is strictly greater. -/
inductive SiftsUp : List HeapEntry → Nat → List HeapEntry → Prop where
  | root (h : List HeapEntry) : SiftsUp h 0 h
  | stays (h : List HeapEntry) (i : Nat) (p c : HeapEntry) : 0 < i → h[(i - 1) / 2]? = some p → h[i]? = some c →
      p.prio ≤ c.prio → SiftsUp h i h
  | swaps (h h' : List HeapEntry) (i : Nat) (p c : HeapEntry) : 0 < i → h[(i - 1) / 2]? = some p → h[i]? = some c →
      c.prio < p.prio → SiftsUp ((h.set ((i - 1) / 2) c).set i p) ((i - 1) / 2) h' → SiftsUp h i h'

/-- The child that HeapExtract looks at (40_heap.md R123) from slot `i`: the right one if it exists and has a strictly smaller
PRIO, else the left one, so the left one on a tie. -/
def LooksAt (h : List HeapEntry) (i j : Nat) (c : HeapEntry) : Prop :=
  ∃ l, h[2 * i + 1]? = some l ∧
    ((∃ r, h[2 * i + 2]? = some r ∧ r.prio < l.prio ∧ j = 2 * i + 2 ∧ c = r) ∨
      (∀ r, h[2 * i + 2]? = some r → l.prio ≤ r.prio) ∧ j = 2 * i + 1 ∧ c = l)

/-- The loop of HeapExtract (40_heap.md R123) from slot `i` of the first heap ends with the second: an entry is swapped with the
child looked at while that child's PRIO is strictly smaller. -/
inductive SiftsDown : List HeapEntry → Nat → List HeapEntry → Prop where
  | leaf (h : List HeapEntry) (i : Nat) : h.length ≤ 2 * i + 1 → SiftsDown h i h
  | stays (h : List HeapEntry) (i j : Nat) (e c : HeapEntry) : h[i]? = some e → LooksAt h i j c → e.prio ≤ c.prio →
      SiftsDown h i h
  | swaps (h h' : List HeapEntry) (i j : Nat) (e c : HeapEntry) : h[i]? = some e → LooksAt h i j c → c.prio < e.prio →
      SiftsDown ((h.set j e).set i c) j h' → SiftsDown h i h'

/-! ## Trees -/

/-- A binary tree in which a node has no child or exactly two (10_state.md R29), the leaves carrying symbols. -/
inductive CodeTree where
  | leaf (sym : Byte)
  | node (left right : CodeTree)
  deriving DecidableEq, Repr

/-- The number of nodes. -/
def CodeTree.size : CodeTree → Nat
  | .leaf _ => 1
  | .node l r => l.size + r.size + 1

/-- The depth of the deepest leaf. -/
def CodeTree.depth : CodeTree → Nat
  | .leaf _ => 0
  | .node l r => max l.depth r.depth + 1

/-- The symbols of the leaves, in preorder. -/
def CodeTree.leaves : CodeTree → List Byte
  | .leaf sym => [sym]
  | .node l r => l.leaves ++ r.leaves

/-- The sum of the frequencies of the leaves (41_tree_builder.md R149). -/
def CodeTree.weight (f : SymTable Word) (t : CodeTree) : Nat := (t.leaves.map fun v => (symGet f v).toNat).sum

/-- The serialised tree (43_tree_codec.md R170). -/
def CodeTree.preorder : CodeTree → List Bool
  | .leaf sym => true :: bitsOf 8 sym
  | .node l r => false :: (l.preorder ++ r.preorder)

/-- Every leaf, in preorder, with its root-to-leaf path: left edge 0, right edge 1 (42_code_table.md R161). -/
def CodeTree.edges : CodeTree → List (Byte × List Bool)
  | .leaf sym => [(sym, [])]
  | .node l r => (l.edges.map fun e => (e.1, false :: e.2)) ++ r.edges.map fun e => (e.1, true :: e.2)

/-- Every leaf, in preorder, with its code: its path, or `0` for a lone root (42_code_table.md R162). -/
def CodeTree.codes : CodeTree → List (Byte × List Bool)
  | .leaf sym => [(sym, [false])]
  | .node l r => (CodeTree.node l r).edges

/-- The code BUILD_CODES keeps for a symbol: that of its last leaf in preorder (42_code_table.md R163). -/
def lastCode (l : List (Byte × List Bool)) (v : Byte) : Option (List Bool) :=
  ((l.filter fun e => e.1 = v).map Prod.snd).getLast?

/-- The node `i` of the arena is the root of the tree `t`, and `ix` lists the nodes of `t` in preorder. -/
def Holds (ns : List Node) : CodeTree → NodeIdx → List NodeIdx → Prop
  | .leaf sym, i, ix => nodeAt ns i = some (.leaf sym) ∧ ix = [i]
  | .node l r, i, ix =>
    ∃ (a b : NodeIdx) (prio : Word) (xs ys : List NodeIdx),
      nodeAt ns i = some (.internal a b prio) ∧ Holds ns l a xs ∧ Holds ns r b ys ∧ ix = i :: (xs ++ ys)

/-- As `Holds`, and the PRIO of every internal node is the sum of the frequencies of the leaves below it
(41_tree_builder.md R149 (e)). -/
def HoldsWeighted (f : SymTable Word) (ns : List Node) : CodeTree → NodeIdx → List NodeIdx → Prop
  | .leaf sym, i, ix => nodeAt ns i = some (.leaf sym) ∧ ix = [i]
  | .node l r, i, ix =>
    ∃ (a b : NodeIdx) (prio : Word) (xs ys : List NodeIdx),
      nodeAt ns i = some (.internal a b prio) ∧ prio.toNat = (CodeTree.node l r).weight f ∧
        HoldsWeighted f ns l a xs ∧ HoldsWeighted f ns r b ys ∧ ix = i :: (xs ++ ys)

/-- The arena holds a tree rooted at ROOT and reaches no node twice: what TREE_VALID = 1 says (10_state.md R29). -/
def TreeOk (a : Arena) : Prop := ∃ (t : CodeTree) (ix : List NodeIdx), Holds a.nodes t a.root ix ∧ ix.Nodup

/-! ## The frequency table -/

/-- The sum of FREQ[s] over all s (10_state.md R31). -/
def freqSum (f : SymTable Word) : Nat := (f.toList.map BitVec.toNat).sum

/-- The symbols with FREQ[s] > 0, in ascending order (41_tree_builder.md R149). -/
def usedSymbols (f : SymTable Word) : List Byte :=
  (List.range 256).filterMap fun n =>
    if symGet f (BitVec.ofNat 8 n) = 0 then none else some (BitVec.ofNat 8 n)

/-! ## The merge of BUILD_TREE (41_tree_builder.md R140, R143, R144) -/

/-- The heap the merge begins with: a leaf entry for each symbol with FREQ > 0, inserted in ascending symbol order
(41_tree_builder.md R143, R145). -/
def firstHeap (f : SymTable Word) : List HeapEntry :=
  (usedSymbols f).foldl
    (fun h v => heapInsert h { prio := (symGet f v).setWidth 31, comp := false, pay := v.setWidth 9 }) []

/-- Promote (41_tree_builder.md R140) of the entry `e` gives node `i` and the nodes `ns'`: a composite entry names its node,
a bare one becomes a new leaf. -/
def Promotes (ns : List Node) (e : HeapEntry) (i : NodeIdx) (ns' : List Node) : Prop :=
  if e.comp then i = e.pay ∧ ns' = ns
  else i = BitVec.ofNat 9 ns.length ∧ ns' = ns ++ [.leaf (e.pay.setWidth 8)]

/-- One merge, from heap and nodes `a` to heap and nodes `b` (41_tree_builder.md R143, R144): the two least entries are
taken; the first, promoted first, becomes LEFT, the second RIGHT, of a new node; the node goes back to the heap with the sum
of the priorities. -/
def MergeStep (a b : List HeapEntry × List Node) : Prop :=
  ∃ (e1 e2 : HeapEntry) (h1 h2 : List HeapEntry) (l r : NodeIdx) (ns1 ns2 : List Node),
    heapExtract a.1 = some (e1, h1) ∧ heapExtract h1 = some (e2, h2) ∧
      e1.prio ≤ e2.prio ∧ (∀ x ∈ h2, e2.prio ≤ x.prio) ∧ e1.prio.toNat + e2.prio.toNat ≤ Config.prioMax ∧
      Promotes a.2 e1 l ns1 ∧ Promotes ns1 e2 r ns2 ∧
      b.2 = ns2 ++ [.internal l r (BitVec.ofNat 32 (e1.prio.toNat + e2.prio.toNat))] ∧
      b.1 =
        heapInsert h2
          { prio := BitVec.ofNat 31 (e1.prio.toNat + e2.prio.toNat), comp := true, pay := BitVec.ofNat 9 ns2.length }

/-! ## The opcode map as match and mask (30_encoding.md R108) -/

/-- One row of the opcode map: its match and mask, and whether its format is FB, whose bits 5:0 must be in 1..32. -/
structure OpcodeRow where
  name : String
  matchWord : Word
  mask : Word
  counted : Bool
  deriving DecidableEq, Repr

/-- The rows of 30_encoding.md R107 with the masks of R108. -/
def opcodeRows : List OpcodeRow :=
  [ { name := "NOP", matchWord := 0x00000000#32, mask := 0xFFFFFFFF#32, counted := false },
    { name := "HEAP_CREATE", matchWord := 0x01000000#32, mask := 0xFFFFFFFF#32, counted := false },
    { name := "HEAP_DESTROY", matchWord := 0x02000000#32, mask := 0xFFFFFFFF#32, counted := false },
    { name := "HEAP_ADD", matchWord := 0x03000000#32, mask := 0xFFFFFC00#32, counted := false },
    { name := "HEAP_REMOVE", matchWord := 0x04000000#32, mask := 0xFFFFFFFF#32, counted := false },
    { name := "HEAP_SIZE", matchWord := 0x05000000#32, mask := 0xFFFFFFFF#32, counted := false },
    { name := "FREQ_CLEAR", matchWord := 0x10000000#32, mask := 0xFFFFFFFF#32, counted := false },
    { name := "FREQ_COUNT", matchWord := 0x11000000#32, mask := 0xFFFFFFFF#32, counted := false },
    { name := "BUILD_TREE", matchWord := 0x12000000#32, mask := 0xFFFFFFFF#32, counted := false },
    { name := "TREE_CLEAR", matchWord := 0x13000000#32, mask := 0xFFFFFFFF#32, counted := false },
    { name := "BUILD_CODES", matchWord := 0x14000000#32, mask := 0xFFFFFFFF#32, counted := false },
    { name := "SERIALIZE_TREE", matchWord := 0x20000000#32, mask := 0xFFFFFFFF#32, counted := false },
    { name := "DESERIALIZE_TREE", matchWord := 0x21000000#32, mask := 0xFFFFFFFF#32, counted := false },
    { name := "ENCODE_SYM", matchWord := 0x30000000#32, mask := 0xFFFFFF00#32, counted := false },
    { name := "ENCODE_EOS", matchWord := 0x31000000#32, mask := 0xFFFFFFFF#32, counted := false },
    { name := "DECODE_SYM", matchWord := 0x38000000#32, mask := 0xFFFFFFFF#32, counted := false },
    { name := "DECODE_N", matchWord := 0x39000000#32, mask := 0xFFFFFFFF#32, counted := false },
    { name := "DECODE_EOS", matchWord := 0x3A000000#32, mask := 0xFFFFFFFF#32, counted := false },
    { name := "PUT_BITS", matchWord := 0x40000000#32, mask := 0xFFFFFFC0#32, counted := true },
    { name := "GET_BITS", matchWord := 0x41000000#32, mask := 0xFFFFFFC0#32, counted := true },
    { name := "FLUSH", matchWord := 0x42000000#32, mask := 0xFFFFFFFF#32, counted := false },
    { name := "STREAM_RESET", matchWord := 0x43000000#32, mask := 0xFFFFFFFC#32, counted := false } ]

/-- The row selects the word (30_encoding.md R108). -/
def OpcodeRow.selects (row : OpcodeRow) (w : Word) : Prop :=
  w &&& row.mask = row.matchWord ∧
    (row.counted = true → 1 ≤ (w &&& 0x3F#32).toNat ∧ (w &&& 0x3F#32).toNat ≤ 32)

/-- The mnemonic of a command (30_encoding.md R107). -/
def mnemonicOf : Instr → String
  | .nop => "NOP"
  | .heapCreate => "HEAP_CREATE"
  | .heapDestroy => "HEAP_DESTROY"
  | .heapAdd _ _ => "HEAP_ADD"
  | .heapRemove => "HEAP_REMOVE"
  | .heapSize => "HEAP_SIZE"
  | .freqClear => "FREQ_CLEAR"
  | .freqCount => "FREQ_COUNT"
  | .buildTree => "BUILD_TREE"
  | .treeClear => "TREE_CLEAR"
  | .buildCodes => "BUILD_CODES"
  | .serializeTree => "SERIALIZE_TREE"
  | .deserializeTree => "DESERIALIZE_TREE"
  | .encodeSym _ => "ENCODE_SYM"
  | .encodeEos => "ENCODE_EOS"
  | .decodeSym => "DECODE_SYM"
  | .decodeN => "DECODE_N"
  | .decodeEos => "DECODE_EOS"
  | .putBits _ => "PUT_BITS"
  | .getBits _ => "GET_BITS"
  | .flush => "FLUSH"
  | .streamReset _ _ => "STREAM_RESET"

/-! ## Reset -/

/-- Every state element of the block has its reset value (10_state.md R42). -/
def AtReset (t : State) : Prop :=
  t.regs = { curCmd := 0, arg0 := 0, res0 := 0, res1 := 0, ecmd := 0, einfo := 0 } ∧
    t.stat =
      { busy := false, done := false, err := false, ecode := .none, partialCode := false, cmdOvr := false,
        inOvf := false, ie := false, abortReq := false } ∧
    t.heap = { alloc := false, entries := [] } ∧ t.arena = { nodes := [], root := 0x1FF#9, valid := false } ∧
    (∀ u : Byte, symGet t.freq.count u = 0 ∧ symGet t.codes.len u = 0 ∧ symGet t.codes.bits u = 0) ∧
    t.freq.total = 0 ∧ t.codes.valid = false ∧
    t.inp = { fifo := [], rdBuf := 0, rdCnt := 0, rdBits := 0, eos := false } ∧
    t.out = { fifo := [], wrAcc := 0, wrCnt := 0, wrBits := 0 } ∧ t.symcnt = 0 ∧ t.cont = .idle

/-! ## Invariants -/

/-- The values ENGINE_CONT can have while the command `i` runs (10_state.md R39): a command of one unit step has only
`start`. -/
def contFits (i : Instr) (c : EngineCont) : Prop :=
  match i with
  | .nop | .heapCreate | .heapDestroy | .heapAdd _ _ | .heapRemove | .heapSize => c = .start
  | .freqClear | .buildTree | .treeClear | .buildCodes | .streamReset _ _ => c = .start
  | .freqCount => c = .start ∨ ∃ k v r, c = .rawByte k v r ∧ k < 8
  | .serializeTree => c = .start ∨ ∃ st sym rem, c = .ser st sym rem ∧ rem ≤ 8
  | .deserializeTree =>
    c = .start ∨ (∃ st first r, c = .desCtl st first r) ∨ ∃ st n k v r, c = .desSym st n k v r ∧ k < 8
  | .encodeSym sym => c = .start ∨ ∃ rem, c = .emit sym rem
  | .encodeEos => c = .start ∨ (∃ k v r, c = .rawByte k v r ∧ k < 8) ∨ ∃ v rem, c = .emit v rem
  | .decodeSym => c = .start ∨ ∃ n b l r, c = .walk n b l r
  | .decodeN =>
    c = .start ∨ c = .heldStart ∨ (∃ n b l r, c = .walk n b l r) ∨ ∃ v rem l, c = .outSym v rem l ∧ rem < 8
  | .decodeEos => c = .start ∨ (∃ n b l r, c = .walk n b l r) ∨ ∃ v rem l, c = .outSym v rem l ∧ rem < 8
  | .putBits n => c = .start ∨ ∃ v rem, c = .putBits v rem ∧ rem < n.toNat
  | .getBits n => c = .start ∨ ∃ k v r, c = .getBits k v r ∧ k < n.toNat
  | .flush => c = .start ∨ c = .flush

/-- The engine is consistent: ENGINE_CONT is empty exactly when BUSY = 0 (10_state.md R39), and while BUSY = 1 it belongs to
the command in CUR_CMD; an illegal word has only its first unit step (60_exceptions.md R232). -/
def EngineOk (s : State) : Prop :=
  (s.stat.busy = false → s.cont = .idle) ∧
    (s.stat.busy = true →
      match decode s.regs.curCmd with
      | .ok i => contFits i s.cont
      | .illegal _ => s.cont = .start)

/-- Every value lies in the range the spec gives it: HEAP_SIZE ≤ 256, no entry without a heap, a bare payload is a symbol and
a composite one is not NIL (10_state.md R26, 20_memory.md R64); NODE_COUNT ≤ 511 (R28); CODE_LEN ≤ 32 and no code bit above
the length (R32); IN_LEVEL ≤ IN_DEPTH, OUT_LEVEL ≤ OUT_DEPTH (R34, R35); RD_CNT ≤ 8 (R36); the partial output byte lies in
the low WR_CNT bits of WR_ACC (R37). -/
structure InRange (s : State) : Prop where
  heapSize : s.heap.size ≤ Config.heapCap
  heapGone : s.heap.alloc = false → s.heap.entries = []
  payload : ∀ e ∈ s.heap.entries, payNull e.comp e.pay = false ∧ payNotSymbol e.comp e.pay = false
  nodeCount : s.arena.count ≤ Config.nodeCap
  codeLen : ∀ v : Byte, (symGet s.codes.len v).toNat ≤ Config.codeMax
  codeBits : ∀ v : Byte, (symGet s.codes.bits v).toNat < 2 ^ (symGet s.codes.len v).toNat
  inLevel : s.inp.fifo.length ≤ s.ext.params.inCap
  outLevel : s.out.fifo.length ≤ s.ext.params.outCap
  rdCnt : s.inp.rdCnt.toNat ≤ 8
  wrAcc : s.out.wrAcc.toNat < 2 ^ s.out.wrCnt.toNat

/-- TOTAL is the sum of the counts and at most 2^31 − 1 (10_state.md R31). -/
def FreqOk (s : State) : Prop := s.freq.total.toNat = freqSum s.freq.count ∧ freqSum s.freq.count ≤ Config.prioMax

/-- The explicit stack of a running DESERIALIZE_TREE (43_tree_codec.md R172), `ix` listing the nodes it uses: each entry is
an allocated internal node, and one that waits for its right child has a complete left subtree. -/
def StackOk (ns : List Node) : List Frame → List NodeIdx → Prop
  | [], ix => ix = []
  | f :: st, ix =>
    ∃ (a b : NodeIdx) (prio : Word) (rest : List NodeIdx),
      nodeAt ns f.node = some (.internal a b prio) ∧ StackOk ns st rest ∧
        match f.side with
        | .left => ix = f.node :: rest
        | .right => ∃ (t : CodeTree) (xs : List NodeIdx), Holds ns t a xs ∧ ix = f.node :: (xs ++ rest)

/-- The arena is as the spec says: TREE_VALID = 1 only over a tree (10_state.md R29), and a running tree walk stands on
nodes of it; while DESERIALIZE_TREE runs TREE_VALID is 0 and it uses no node twice (43_tree_codec.md R172). -/
def ArenaOk (s : State) : Prop :=
  (s.arena.valid = true → TreeOk s.arena) ∧
    match s.cont with
    | .walk n _ _ _ => s.arena.valid = true ∧ ∃ t ix, Holds s.arena.nodes t n ix
    | .outSym _ _ _ => s.arena.valid = true
    | .ser st _ _ => s.arena.valid = true ∧ ∀ n ∈ st, ∃ t ix, Holds s.arena.nodes t n ix
    | .desCtl st _ _ => s.arena.valid = false ∧ ∃ ix, StackOk s.arena.nodes st ix ∧ ix.Nodup
    | .desSym st n _ _ _ =>
      s.arena.valid = false ∧ (∃ sym, nodeAt s.arena.nodes n = some (.leaf sym)) ∧
        ∃ ix, StackOk s.arena.nodes st ix ∧ (n :: ix).Nodup
    | .idle | .start | .heldStart | .rawByte _ _ _ | .emit _ _ | .putBits _ _ | .getBits _ _ _ | .flush => True

/-- What holds in every state the machine reaches, for its engine, its ranges and its arena. -/
structure Sound (s : State) : Prop where
  engine : EngineOk s
  range : InRange s
  arena : ArenaOk s

end Sys2Proof.Machine
end

