-- ==== Sys2Proof/Certificates/Slice0/Obligations.lean ====
section
/-! DEFINITION. The statements about HUFFCORE. Each docstring names the rule of spec/ it formalises. Where a statement says
`Ready s`, the command has just been accepted (60_exceptions.md R230) and no abort is requested. -/

open Sys2Proof Sys2Proof.Machine

/-! ## Encoding -/

/-- Decoding and encoding agree: decoding the word of any command gives the command back, with every operand at every value,
and a word that decodes is the encoding of what it decodes to, which is a command: no bit of a legal word is ignored
(30_encoding.md R101..R107, R109, R110). -/
def Obligations.DecodeEncodeRoundTrip : Prop :=
  (∀ i : Instr, WellFormed i = true → decode (encode i) = .ok i) ∧
    ∀ (w : Word) (i : Instr), decode w = .ok i → WellFormed i = true ∧ encode i = w

/-- A word decodes to a command exactly when the command's row of the opcode map selects it by match and mask (30_encoding.md
R108). -/
def Obligations.DecodeAgreesWithMatchAndMask : Prop :=
  (∀ (w : Word) (i : Instr), decode w = .ok i → ∃ row ∈ opcodeRows, row.name = mnemonicOf i ∧ row.selects w) ∧
    ∀ (w : Word) (row : OpcodeRow), row ∈ opcodeRows → row.selects w →
      ∃ i, decode w = .ok i ∧ mnemonicOf i = row.name

/-- The words of 30_encoding.md R113 and of 95_test_vectors.md section 2.1 decode as listed there. -/
def Obligations.SpecWordsDecodeAsListed : Prop :=
  decode 0x03000061#32 = .ok (.heapAdd false 0x061#9) ∧
    decode 0x03000205#32 = .ok (.heapAdd true 5#9) ∧
    decode 0x030003FF#32 = .ok (.heapAdd true 0x1FF#9) ∧
    decode 0x30000062#32 = .ok (.encodeSym 0x62#8) ∧
    decode 0x40000020#32 = .ok (.putBits 32#6) ∧
    decode 0x41000008#32 = .ok (.getBits 8#6) ∧
    decode 0x43000003#32 = .ok (.streamReset true true) ∧
    decode 0x12000000#32 = .ok .buildTree ∧
    decode 0x40000000#32 = .illegal .bitCount ∧
    decode 0x12000001#32 = .illegal .reservedBit ∧
    decode 0x00000000#32 = .ok .nop ∧
    decode 0x01000000#32 = .ok .heapCreate ∧
    decode 0x030003FE#32 = .ok (.heapAdd true 0x1FE#9) ∧
    decode 0x030001FF#32 = .ok (.heapAdd false 0x1FF#9) ∧
    decode 0x300000FF#32 = .ok (.encodeSym 0xFF#8) ∧
    decode 0x40000001#32 = .ok (.putBits 1#6) ∧
    decode 0x41000020#32 = .ok (.getBits 32#6) ∧
    decode 0x43000000#32 = .ok (.streamReset false false) ∧
    decode 0x43000002#32 = .ok (.streamReset true false) ∧
    decode 0x06000000#32 = .illegal .unassignedOpcode ∧
    decode 0x03000400#32 = .illegal .reservedBit ∧
    decode 0x30000100#32 = .illegal .reservedBit ∧
    decode 0x41000021#32 = .illegal .bitCount ∧
    decode 0x410000E0#32 = .illegal .reservedBit ∧
    decode 0x43000004#32 = .illegal .reservedBit ∧
    decode 0xFF000000#32 = .illegal .unassignedOpcode

/-! ## The step -/

/-- The step at which the engine has the turn is the unit step of the command that CUR_CMD decodes to: when the agenda is
used up, when its head gives the engine the turn, and while the host waits for DONE, the reset input being deasserted
(20_memory.md R91, 60_exceptions.md R232); and the step after a command is loaded is that command's first unit step, with
CUR_CMD its word and ENGINE_CONT at its start. The form of the agenda is the model's (assumptions 3, 4 and 15). -/
def Obligations.StepRunsDecodedCommand : Prop :=
  ∀ (s : State) (i : Instr),
    (s.ext.resetIn = false → s.stat.busy = true → decode s.regs.curCmd = .ok i →
      (s.ext.agenda = [] → step s = exec i s) ∧
        (∀ rest, s.ext.agenda = .engine :: rest → step s = exec i (withAgenda rest s)) ∧
        (∀ rest, s.ext.agenda = .wait :: rest → s.stat.done = false → step s = exec i s)) ∧
    ∀ w : Word, decode w = .ok i →
      ∃ t, step (s.withFetchWord 32 w.toNat) = exec i t ∧ t.regs.curCmd = w ∧ t.cont = .start ∧ t.stat.busy = true ∧
        t.heap = s.heap ∧ t.arena = s.arena ∧ t.freq = s.freq ∧ t.codes = s.codes ∧ t.inp = s.inp ∧ t.out = s.out

/-- An illegal word ends in its first unit step with E_ILLEGAL, EINFO = the command word, and changes nothing else; an abort
requested before that step comes first and ends it with E_ABORT(0) (60_exceptions.md R225, R232, R233, 30_encoding.md R110).
The engine has the turn when the agenda is used up (the model's form, assumption 3). -/
def Obligations.IllegalWordEndsInError : Prop :=
  ∀ (s : State) (why : Illegal),
    s.ext.resetIn = false → s.ext.agenda = [] → s.stat.busy = true → decode s.regs.curCmd = .illegal why →
      (s.stat.abortReq = false →
        step s =
          .next
            { s with
              regs := { s.regs with ecmd := s.regs.curCmd, einfo := s.regs.curCmd }
              stat := { s.stat with busy := false, done := true, err := true, ecode := .illegal }
              cont := .idle }) ∧
        (s.stat.abortReq = true → step s = .next (raise .abort 0 s))

/-- What `raise E_X(info)` does once the release rule is applied (60_exceptions.md R221, R231): ERR, ECODE, ECMD and EINFO
are written, the command completes, and everything else stays. -/
def Obligations.RaiseWritesErrorStatus : Prop :=
  ∀ (e : ErrCode) (info : Word) (s : State),
    raise e info s =
      { s with
        regs := { s.regs with ecmd := s.regs.curCmd, einfo := info }
        stat := { s.stat with busy := false, done := true, err := true, ecode := e }
        cont := .idle }

/-- ABORT_REQ is tested at the start of every unit step of every command, a held one included: in the first unit step, an
illegal word's too, the command ends with E_ABORT(0) and releases nothing; in a later one its release rule is applied, which
FREQ_COUNT and DESERIALIZE_TREE have among the commands of several unit steps (60_exceptions.md R225, R233;
41_tree_builder.md R142; 43_tree_codec.md R172). SYMCNT then counts the symbols written, one whose last bit the step before
has written included (60_exceptions.md R224, 44_stream_codec.md R181; the model's reading, assumption 2). -/
def Obligations.AbortEndsEveryCommand : Prop :=
  (∀ (i : Instr) (s : State), s.stat.abortReq = true → s.cont = .start → exec i s = .next (raise .abort 0 s)) ∧
    (∀ (s : State) (why : Illegal), s.ext.resetIn = false → s.ext.agenda = [] → s.stat.busy = true →
      decode s.regs.curCmd = .illegal why → s.stat.abortReq = true → step s = .next (raise .abort 0 s)) ∧
    ∀ s : State, s.stat.abortReq = true → s.cont ≠ .start →
      exec .freqCount s = .next (raise .abort 0 { s with freq := FreqTable.zero }) ∧
        exec .deserializeTree s = .next (raise .abort 0 { s with arena := Arena.empty }) ∧
        exec .serializeTree s = .next (raise .abort 0 s) ∧
        exec .decodeSym s = .next (raise .abort 0 s) ∧
        (∀ n, exec (.putBits n) s = .next (raise .abort 0 s)) ∧
        (∀ n, exec (.getBits n) s = .next (raise .abort 0 s)) ∧
        exec .flush s = .next (raise .abort 0 s) ∧
        ∀ i, (∃ v, i = .encodeSym v) ∨ i = .encodeEos ∨ i = .decodeN ∨ i = .decodeEos →
          ((∀ v, s.cont ≠ .emit v 0) → (∀ v l, s.cont ≠ .outSym v 0 l) → exec i s = .next (raise .abort 0 s)) ∧
            ((∃ v, s.cont = .emit v 0) ∨ (∃ v l, s.cont = .outSym v 0 l) →
              exec i s = .next (raise .abort 0 { s with symcnt := s.symcnt + 1 }))

/-- A bit operation that cannot proceed does not take place: a read exactly at an empty, unterminated input, a write exactly
when it would complete a byte with the output FIFO full. The unit step that contains it is not enabled, so the engine's turn
changes nothing, and STATUS.HOLD is 1 exactly then, while no abort is requested (20_memory.md R70, R71, R73, R78, 10_state.md
R23; that HOLD is 0 with an abort requested, and that the step of a held command answers the same state, are the model's
readings, assumptions 17 and 14). No step lifts a hold but a push, a CTRL write with EOS, ABORT or SRST, a read of OUT_DATA and
a reset: not a write of ARG0, which could change whether DECODE_N reads a bit (20_memory.md R78, 00_scope.md R11; how the model
keeps that hold is assumption 24). The last clauses say, for every place where the next unit step of a command has a bit
operation, when HOLD is 1. -/
def Obligations.HeldStepDoesNotTakePlace : Prop :=
  (∀ r : BitReader, readBit r = .hold ↔ r.rdCnt = 0 ∧ r.fifo = [] ∧ r.eos = false) ∧
    (∀ (cap : Nat) (b : Bool) (w : BitWriter), writeBit cap b w = none ↔ w.wrCnt = 7 ∧ w.fifo.length = cap) ∧
    (∀ s : State, held s = true ↔
      s.stat.busy = true ∧ s.stat.abortReq = false ∧ ∃ i, decode s.regs.curCmd = .ok i ∧ exec i s = .next s) ∧
    (∀ s t : State, held s = true → step s = .next t →
      held t = true ∨ s.ext.resetIn = true ∨
        ∃ turn rest, s.ext.agenda = turn :: rest ∧
          ((∃ v, turn = .write 32 0x048#14 v) ∨ turn = .read 32 0x04C#14 ∨ turn = .resetPin true ∨
            ∃ v : Word, turn = .write 32 0x004#14 v ∧
              (v.getLsbD 1 = true ∨ v.getLsbD 2 = true ∨ v.getLsbD 3 = true))) ∧
    ∀ (i : Instr) (s : State), s.stat.busy = true → s.stat.abortReq = false → decode s.regs.curCmd = .ok i →
      (i = .freqCount ∧
            (s.cont = .start ∨ ∃ k v b, s.cont = .rawByte k v (.bit b) ∧ (k < 7 ∨ k = 7 ∧ s.freq.total.toNat ≠ 2 ^ 31 - 1)) ∨
          i = .encodeEos ∧
            (s.cont = .start ∧ s.codes.valid = true ∨ (∃ k v b, s.cont = .rawByte k v (.bit b) ∧ k < 7) ∨
              ∃ v, s.cont = .emit v 0) ∨
          i = .deserializeTree ∧
            (s.cont = .start ∨ (∃ st first b, s.cont = .desCtl st first (.bit b) ∧ s.arena.nodes.length ≠ 511) ∨
              (∃ st n k v b, s.cont = .desSym st n k v (.bit b) ∧ k < 7) ∨
              ∃ rs f st n v b, s.cont = .desSym (rs ++ f :: st) n 7 v (.bit b) ∧ (∀ g ∈ rs, g.side = .right) ∧
                f.side = .left) ∨
          (i = .decodeSym ∨ i = .decodeN ∨ i = .decodeEos) ∧
            (s.cont = .start ∧ s.arena.valid = true ∧ (i = .decodeN → s.regs.arg0 ≠ 0) ∨
              ∃ n st l b x y p x' y' p', s.cont = .walk n st l (.bit b) ∧
                nodeAt s.arena.nodes n = some (.internal x y p) ∧
                nodeAt s.arena.nodes (if b then y else x) = some (.internal x' y' p')) ∨
          i = .decodeN ∧
            (s.cont = .heldStart ∨ ∃ v l, s.cont = .outSym v 0 l ∧ s.symcnt + 1 < l) ∨
          i = .decodeEos ∧ (∃ v l, s.cont = .outSym v 0 l) ∨
          (∃ n, i = .getBits n ∧ (s.cont = .start ∨ ∃ k v b, s.cont = .getBits k v (.bit b) ∧ k + 1 ≠ n.toNat)) →
        (held s = true ↔ s.inp.rdCnt = 0 ∧ s.inp.fifo = [] ∧ s.inp.eos = false)) ∧
      ((∃ u, i = .encodeSym u ∧
            (s.cont = .start ∧ s.codes.valid = true ∧ symGet s.codes.len u ≠ 0 ∨ ∃ v k, s.cont = .emit v (k + 1))) ∨
          i = .encodeEos ∧
            ((∃ v b, s.cont = .rawByte 7 v (.bit b) ∧ symGet s.codes.len (shiftIn v b) ≠ 0) ∨ ∃ v k, s.cont = .emit v (k + 1)) ∨
          (i = .decodeN ∨ i = .decodeEos) ∧
            ((∃ v k l, s.cont = .outSym v (k + 1) l) ∨
              ∃ n st l b v, s.cont = .walk n st l (.bit b) ∧
                (nodeAt s.arena.nodes n = some (.leaf v) ∧ b = false ∨
                  ∃ x y p, nodeAt s.arena.nodes n = some (.internal x y p) ∧
                    nodeAt s.arena.nodes (if b then y else x) = some (.leaf v))) ∨
          i = .serializeTree ∧
            (s.cont = .start ∧ s.arena.valid = true ∧ nodeAt s.arena.nodes s.arena.root ≠ none ∨
              (∃ n st v, s.cont = .ser (n :: st) v 0 ∧ nodeAt s.arena.nodes n ≠ none) ∨ ∃ st v k, s.cont = .ser st v (k + 1)) ∨
          (∃ n, i = .putBits n ∧ (s.cont = .start ∨ ∃ v k, s.cont = .putBits v (k + 1))) ∨
          i = .flush ∧ (s.cont = .start ∨ s.cont = .flush) ∧ s.out.wrCnt ≠ 0 →
        (held s = true ↔ s.out.wrCnt = 7 ∧ s.out.fifo.length = s.ext.params.outCap))

/-- Hold points do not change what a command computes (20_memory.md R92), step by step: a push or the end of input that the
host makes before a unit step that is taken, instead of after it, and a pop likewise, leave the same state in the end, but for
the FIFO the host changes, which has the host's byte more or less in both orders. So every interleaving of pushes, EOS and pops
with unit steps comes to the same. STREAM_RESET, which empties a side, is named apart. -/
def Obligations.HostStreamingCommutesWithUnitSteps : Prop :=
  ∀ (i : Instr) (s t : State), exec i s = .next t → t ≠ s →
    (s.inp.eos = false → (∀ o, i ≠ .streamReset o true) →
      (∀ b, exec i { s with inp := { s.inp with fifo := s.inp.fifo ++ [b] } } =
        .next { t with inp := { t.inp with fifo := t.inp.fifo ++ [b] } }) ∧
      exec i { s with inp := { s.inp with eos := true } } = .next { t with inp := { t.inp with eos := true } }) ∧
    (s.out.fifo.length ≤ s.ext.params.outCap → (∀ j, i ≠ .streamReset true j) → ∀ b bs, s.out.fifo = b :: bs →
      exec i { s with out := { s.out with fifo := bs } } = .next { t with out := { t.out with fifo := t.out.fifo.tail } })

/-- A unit step that raises an error ends the command: RES0 and RES1 keep their values, ECMD is the command word, the engine
is idle with an empty continuation, and ECODE names an error (60_exceptions.md R221, R224, R226). -/
def Obligations.EveryErrorEndsItsCommand : Prop :=
  ∀ (i : Instr) (s t : State),
    exec i s = .next t → s.stat.err = false → t.stat.err = true →
      t.regs.res0 = s.regs.res0 ∧ t.regs.res1 = s.regs.res1 ∧ t.regs.ecmd = s.regs.curCmd ∧ t.stat.ecode ≠ .none ∧
        t.stat.busy = false ∧ t.stat.done = true ∧ t.cont = .idle

/-! ## The heap commands -/

/-- HEAP_CREATE leaves an empty heap whether or not one exists; HEAP_DESTROY raises E_NULL(0) without a heap and leaves none;
HEAP_SIZE raises E_NULL(0) without a heap and otherwise writes the number of entries to RES0; nothing else changes
(40_heap.md R120, R125, R126). -/
def Obligations.HeapCreateDestroyAndSize : Prop :=
  ∀ s : State, s.stat.abortReq = false →
    exec .heapCreate s =
        .next
          { s with
            heap := { alloc := true, entries := [] }
            stat := { s.stat with busy := false, done := true }
            cont := .idle } ∧
      (s.heap.alloc = false →
        exec .heapDestroy s = .next (raise .null 0 s) ∧ exec .heapSize s = .next (raise .null 0 s)) ∧
      (s.heap.alloc = true →
        exec .heapDestroy s =
            .next
              { s with
                heap := { alloc := false, entries := [] }
                stat := { s.stat with busy := false, done := true }
                cont := .idle } ∧
          exec .heapSize s =
            .next
              { s with
                regs := { s.regs with res0 := BitVec.ofNat 32 s.heap.entries.length }
                stat := { s.stat with busy := false, done := true }
                cont := .idle })

/-- HEAP_ADD checks, in this order, the heap, the sign of ARG0, the null payload, the symbol and the room, each with its
error and its EINFO and nothing else changed; otherwise it inserts the entry {ARG0[30:0], C, PAY} (40_heap.md R122). -/
def Obligations.HeapAddChecksThenInserts : Prop :=
  ∀ (c : Bool) (pay : NodeIdx) (s : State), s.stat.abortReq = false →
    (s.heap.alloc = false → exec (.heapAdd c pay) s = .next (raise .null 0 s)) ∧
      (s.heap.alloc = true → s.regs.arg0.getLsbD 31 = true →
        exec (.heapAdd c pay) s = .next (raise .arg s.regs.arg0 s)) ∧
      (s.heap.alloc = true → s.regs.arg0.getLsbD 31 = false → c = true → pay = 0x1FF#9 →
        exec (.heapAdd c pay) s = .next (raise .arg 0x3FF#32 s)) ∧
      (s.heap.alloc = true → s.regs.arg0.getLsbD 31 = false → c = false → 256 ≤ pay.toNat →
        exec (.heapAdd c pay) s = .next (raise .arg (pay.setWidth 32) s)) ∧
      (s.heap.alloc = true → s.regs.arg0.getLsbD 31 = false →
        (c = true ∧ pay ≠ 0x1FF#9 ∨ c = false ∧ pay.toNat < 256) →
        (s.heap.entries.length = 256 → exec (.heapAdd c pay) s = .next (raise .capacity 256#32 s)) ∧
          (s.heap.entries.length ≠ 256 →
            exec (.heapAdd c pay) s =
              .next
                { s with
                  heap :=
                    { s.heap with
                      entries := heapInsert s.heap.entries { prio := s.regs.arg0.setWidth 31, comp := c, pay := pay } }
                  stat := { s.stat with busy := false, done := true }
                  cont := .idle }))

/-- HeapInsert puts the new entry in the next free slot and swaps it upwards while its parent's priority is strictly greater:
it adds exactly the new entry, keeps the heap order, and brings a new entry strictly smaller than every other to the root.
HeapExtract fails on an empty heap only; it takes the root, moves the last entry into the root slot and swaps it downwards
with the smaller child, the left one on a tie, while that child's priority is strictly smaller: it leaves exactly the other
entries, and from an ordered heap it takes a least one and leaves an ordered heap (40_heap.md R121, R123, 10_state.md R27).
So equal priorities have the one order that 40_heap.md R127 speaks of. -/
def Obligations.HeapProceduresKeepEntriesAndOrder : Prop :=
  (∀ (h : List HeapEntry) (e : HeapEntry),
    SiftsUp (h ++ [e]) h.length (heapInsert h e) ∧
      (heapInsert h e).Perm (e :: h) ∧
      (HeapOrdered h → HeapOrdered (heapInsert h e)) ∧
      (HeapOrdered h → (∀ x ∈ h, e.prio < x.prio) → (heapInsert h e)[0]? = some e)) ∧
    ∀ h : List HeapEntry,
      (heapExtract h = none ↔ h = []) ∧
        ∀ (e : HeapEntry) (h' : List HeapEntry), heapExtract h = some (e, h') →
          h[0]? = some e ∧ (∃ last, h.getLast? = some last ∧ SiftsDown (h.dropLast.set 0 last) 0 h') ∧ (e :: h').Perm h ∧
            (HeapOrdered h → HeapOrdered h' ∧ ∀ x ∈ h', e.prio ≤ x.prio)

/-- HEAP_REMOVE raises E_NULL without a heap and E_HEAP_EMPTY on an empty one, changing nothing else; otherwise RES0 is the
root's PRIO, RES1 is {C, PAY} with C in bit 9, and the heap is what HeapExtract leaves (40_heap.md R124). -/
def Obligations.HeapRemoveReturnsTheRoot : Prop :=
  ∀ s : State, s.stat.abortReq = false →
    (s.heap.alloc = false → exec .heapRemove s = .next (raise .null 0 s)) ∧
      (s.heap.alloc = true → s.heap.entries = [] → exec .heapRemove s = .next (raise .heapEmpty 0 s)) ∧
      (s.heap.alloc = true → ∀ (e : HeapEntry) (h' : List HeapEntry), heapExtract s.heap.entries = some (e, h') →
        exec .heapRemove s =
          .next
            { s with
              heap := { s.heap with entries := h' }
              regs :=
                { s.regs with
                  res0 := e.prio.setWidth 32
                  res1 := BitVec.ofNat 32 (512 * e.comp.toNat + e.pay.toNat) }
              stat := { s.stat with busy := false, done := true }
              cont := .idle })

/-- Every step of the machine, of the host's turns and of every command, keeps the heap order (10_state.md R27). -/
def Obligations.HeapOrderKeptByEveryStep : Prop :=
  ∀ s t : State, HeapOrdered s.heap.entries → step s = .next t → HeapOrdered t.heap.entries

/-! ## Frequency table and tree builder -/

/-- FREQ_CLEAR empties the frequency table and TREE_CLEAR the arena; nothing else changes, the code table and the heap least
of all (41_tree_builder.md R141, R148). -/
def Obligations.FreqClearAndTreeClear : Prop :=
  ∀ s : State, s.stat.abortReq = false →
    exec .freqClear s =
        .next
          { s with
            freq := { count := Vector.replicate 256 0, total := 0 }
            stat := { s.stat with busy := false, done := true }
            cont := .idle } ∧
      exec .treeClear s =
        .next
          { s with
            arena := { nodes := [], root := 0x1FF#9, valid := false }
            stat := { s.stat with busy := false, done := true }
            cont := .idle }

/-- The unit steps of FREQ_COUNT (41_tree_builder.md R142, 20_memory.md R76, R78, R91): the first clears the table and reads a
bit; each later one puts the bit read before in its byte and reads on, the one after a byte's eighth bit counting the byte
first; a step whose read is held changes nothing; the step after a clean end completes; an end inside a byte raises
E_CORRUPT(k) and a byte at TOTAL = 2^31 − 1 raises E_CAPACITY, both with the table released. Where the unit steps fall around
the bit operations is the model's reading (assumptions 1 and 2). -/
def Obligations.FreqCountUnitSteps : Prop :=
  ∀ s : State, s.stat.abortReq = false →
    (s.cont = .start → StepReads .freqCount s { s with freq := FreqTable.zero } (.rawByte 0 0)) ∧
    (∀ k v b, k < 7 → s.cont = .rawByte k v (.bit b) → StepReads .freqCount s s (.rawByte (k + 1) (shiftIn v b))) ∧
    (∀ v b, s.cont = .rawByte 7 v (.bit b) → s.freq.total.toNat ≠ 2 ^ 31 - 1 →
      StepReads .freqCount s
        { s with
          freq :=
            { count := symSet s.freq.count (shiftIn v b) (symGet s.freq.count (shiftIn v b) + 1)
              total := s.freq.total + 1 } }
        (.rawByte 0 0)) ∧
    (∀ v b, s.cont = .rawByte 7 v (.bit b) → s.freq.total.toNat = 2 ^ 31 - 1 →
      exec .freqCount s =
        .next (raise .capacity ((shiftIn v b).setWidth 32) { s with freq := FreqTable.zero })) ∧
    (∀ v, s.cont = .rawByte 0 v .exh →
      exec .freqCount s = .next { s with stat := { s.stat with busy := false, done := true }, cont := .idle }) ∧
    ∀ k v, 0 < k → s.cont = .rawByte k v .exh →
      exec .freqCount s = .next (raise .corrupt (BitVec.ofNat 32 k) { s with freq := FreqTable.zero })

/-- FREQ_COUNT over a terminated, byte-aligned input counts it (41_tree_builder.md R142): FREQ[v] is the number of bytes v,
TOTAL the number of bytes, all bits are read, and nothing but the table and the reader changes. Where the unit steps fall
around the bit operations is the model's reading (assumptions 1 and 2). -/
def Obligations.FreqCountCountsItsInput : Prop :=
  ∀ (s : State) (bytes : List Byte),
    Ready s → inBits s.inp = bytesBits bytes → s.inp.rdCnt.toNat ≤ 8 → s.inp.eos = true → bytes.length < 2 ^ 31 →
      ∃ (k : Nat) (t : State),
        runUnits .freqCount k s = .next t ∧
          (∀ v : Byte, (symGet t.freq.count v).toNat = bytes.count v) ∧ t.freq.total.toNat = bytes.length ∧
          inBits t.inp = [] ∧ inExhausted t.inp = true ∧
          t.inp.rdBits = s.inp.rdBits + BitVec.ofNat 32 (8 * bytes.length) ∧
          t = { complete s with freq := t.freq, inp := t.inp }

/-- Every step keeps TOTAL equal to the sum of the counts and at most 2^31 − 1 (10_state.md R31). -/
def Obligations.FreqTotalKeptByEveryStep : Prop :=
  ∀ s t : State, FreqOk s → step s = .next t → FreqOk t

/-- BUILD_TREE on an empty table raises E_DEGENERATE(0) and leaves no tree and no heap; on a table with one symbol it makes
that symbol's leaf node 0 the root; on a table of legal counts whose sum is above 2^31 − 1 it merges until the priorities of
the two entries it extracts sum to more than 2^31 − 1, and raises E_CAPACITY with that sum and leaves no tree and no heap
(41_tree_builder.md R143, R146, R147). -/
def Obligations.BuildTreeEmptySingleAndOverflow : Prop :=
  ∀ s : State, s.stat.abortReq = false →
    (usedSymbols s.freq.count = [] →
      exec .buildTree s =
        .next (raise .degenerate 0 { s with arena := Arena.empty, heap := { alloc := false, entries := [] } })) ∧
      (∀ v : Byte, usedSymbols s.freq.count = [v] →
        exec .buildTree s =
          .next
            { s with
              arena := { nodes := [.leaf v], root := 0, valid := true }
              heap := { alloc := false, entries := [] }
              stat := { s.stat with busy := false, done := true }
              cont := .idle }) ∧
      ((∀ v : Byte, (symGet s.freq.count v).toNat ≤ 2 ^ 31 - 1) → 2 ^ 31 - 1 < freqSum s.freq.count →
        ∃ (h : List HeapEntry) (ns : List Node) (e1 e2 : HeapEntry) (h1 h2 : List HeapEntry),
          Relation.ReflTransGen MergeStep (firstHeap s.freq.count, []) (h, ns) ∧
            heapExtract h = some (e1, h1) ∧ heapExtract h1 = some (e2, h2) ∧
            2 ^ 31 - 1 < e1.prio.toNat + e2.prio.toNat ∧
            exec .buildTree s =
              .next
                (raise .capacity (BitVec.ofNat 32 (e1.prio.toNat + e2.prio.toNat))
                  { s with arena := Arena.empty, heap := { alloc := false, entries := [] } }))

/-- BUILD_TREE on a table with L ≥ 1 symbols whose counts sum to at most 2^31 − 1 completes. It inserts the leaf entries in
ascending symbol order and merges until one entry remains, each merge taking the two least entries, the first as LEFT and the
second as RIGHT, promoted in this order before the internal node; the last entry, promoted, is ROOT. NODE_COUNT is 2L − 1;
ROOT holds a tree that uses every node once, whose leaves are exactly the symbols with FREQ > 0, each once, and in which the
PRIO of every internal node is the sum of the frequencies below it (41_tree_builder.md R140, R143, R144, R145, R149 (a) to
(e)). -/
def Obligations.BuildTreeMakesAHuffmanTree : Prop :=
  ∀ s : State, s.stat.abortReq = false → usedSymbols s.freq.count ≠ [] → freqSum s.freq.count ≤ 2 ^ 31 - 1 →
    ∃ (nodes ns : List Node) (root : NodeIdx) (e : HeapEntry) (T : CodeTree) (ix : List NodeIdx),
      exec .buildTree s =
          .next
            { s with
              arena := { nodes := nodes, root := root, valid := true }
              heap := { alloc := false, entries := [] }
              stat := { s.stat with busy := false, done := true }
              cont := .idle } ∧
        Relation.ReflTransGen MergeStep (firstHeap s.freq.count, []) ([e], ns) ∧ Promotes ns e root nodes ∧
        nodes.length + 1 = 2 * (usedSymbols s.freq.count).length ∧
        HoldsWeighted s.freq.count nodes T root ix ∧ ix.Nodup ∧ ix.length = nodes.length ∧
        T.leaves.Perm (usedSymbols s.freq.count)

/-! ## Code table -/

/-- BUILD_CODES without a tree raises E_STATE(0) and leaves the code table and CODES_VALID unchanged (that CODES_VALID stays is
the model's reading of 10_state.md R33 and 42_code_table.md R160, assumption 23); on a lone root leaf it gives that symbol the
code `0` of length 1 and no other symbol a code (42_code_table.md R160, R162). -/
def Obligations.BuildCodesWithoutTreeAndLoneRoot : Prop :=
  ∀ s : State, s.stat.abortReq = false →
    (s.arena.valid = false → exec .buildCodes s = .next (raise .state 0 s)) ∧
      ∀ v : Byte, s.arena.valid = true → nodeAt s.arena.nodes s.arena.root = some (.leaf v) →
        ∃ t, exec .buildCodes s = .next t ∧ t = { complete s with codes := t.codes } ∧ t.codes.valid = true ∧
          ∀ u : Byte,
            symGet t.codes.len u = (if u = v then 1 else 0) ∧ symGet t.codes.bits u = 0

/-- BUILD_CODES on a tree of at most NODE_CAP nodes and depth at most 32 completes and changes only the code table; a symbol
of a leaf gets its root-to-leaf path, the last leaf in preorder winning, and every other symbol gets no code
(42_code_table.md R160, R161, R163). -/
def Obligations.BuildCodesRecordsThePaths : Prop :=
  ∀ (s : State) (T : CodeTree) (ix : List NodeIdx),
    s.stat.abortReq = false → s.arena.valid = true → Holds s.arena.nodes T s.arena.root ix → T.size ≤ 511 → T.depth ≤ 32 →
      ∃ t, exec .buildCodes s = .next t ∧ t = { complete s with codes := t.codes } ∧ t.codes.valid = true ∧
        ∀ v : Byte,
          match lastCode T.codes v with
          | none => symGet t.codes.len v = 0 ∧ symGet t.codes.bits v = 0
          | some p => (symGet t.codes.len v).toNat = p.length ∧ symGet t.codes.bits v = ofBits p

/-- BUILD_CODES on a tree with a leaf deeper than 32 raises E_CAPACITY with the symbol of the first such leaf in preorder and
leaves an empty, invalid code table (42_code_table.md R160). -/
def Obligations.BuildCodesRefusesDeepLeaves : Prop :=
  ∀ (s : State) (T : CodeTree) (ix : List NodeIdx) (v : Byte) (p : List Bool),
    s.stat.abortReq = false → s.arena.valid = true → Holds s.arena.nodes T s.arena.root ix → T.size ≤ 511 →
      T.edges.find? (fun e => 32 < e.2.length) = some (v, p) →
        exec .buildCodes s = .next (raise .capacity (v.setWidth 32) { s with codes := CodeTable.zero })

/-! ## Tree codec -/

/-- The unit steps of SERIALIZE_TREE (43_tree_codec.md R170, 20_memory.md R78, R91): E_STATE(0) without a tree; a leaf on top
of the stack, at first ROOT, writes 1, an internal node writes 0 and leaves its left child above its right one; after a leaf's
1 its symbol's bits follow, most significant first; a step whose write is held changes nothing; with the stack empty the
command completes. Where the unit steps fall around the bit operations is the model's reading (assumptions 1 and 2). -/
def Obligations.SerializeTreeUnitSteps : Prop :=
  ∀ s : State, s.stat.abortReq = false →
    (s.cont = .start → s.arena.valid = false → exec .serializeTree s = .next (raise .state 0 s)) ∧
    (∀ n st, (s.cont = .start ∧ s.arena.valid = true ∧ n = s.arena.root ∧ st = [] ∨ ∃ v, s.cont = .ser (n :: st) v 0) →
      (∀ v, nodeAt s.arena.nodes n = some (.leaf v) → StepWrites .serializeTree s s true (.ser st v 8)) ∧
      ∀ a b p, nodeAt s.arena.nodes n = some (.internal a b p) →
        StepWrites .serializeTree s s false (.ser (a :: b :: st) 0 0)) ∧
    (∀ st v k, s.cont = .ser st v (k + 1) → StepWrites .serializeTree s s (v.getLsbD k) (.ser st v k)) ∧
    ∀ v, s.cont = .ser [] v 0 →
      exec .serializeTree s = .next { s with stat := { s.stat with busy := false, done := true }, cont := .idle }

/-- SERIALIZE_TREE of a tree, with room in the output, appends exactly its preorder bits, 10L − 1 of them for L leaves, and
changes nothing but the writer (43_tree_codec.md R170, R171). Where the unit steps fall around the bit operations is the
model's reading (assumptions 1 and 2). -/
def Obligations.SerializeTreeWritesPreorder : Prop :=
  ∀ (s : State) (T : CodeTree) (ix : List NodeIdx),
    Ready s → s.arena.valid = true → Holds s.arena.nodes T s.arena.root ix →
      outRoom s.ext.params.outCap T.preorder.length s.out →
        T.preorder.length + 1 = 10 * T.leaves.length ∧
        ∃ t : State,
          runUnits .serializeTree (T.preorder.length + 1) s = .next t ∧
            outBits t.out = outBits s.out ++ T.preorder ∧
            t.out.wrBits = s.out.wrBits + BitVec.ofNat 32 T.preorder.length ∧
            t = { complete s with out := t.out }

/-- The unit steps of DESERIALIZE_TREE (43_tree_codec.md R172, R173, 20_memory.md R78, R91): the first discards any tree and
reads a bit; a control bit 1 allocates a leaf and reads its symbol, bit by bit; a control bit 0 allocates an internal node and
reads its left child's control bit; a complete subtree is delivered: it closes the internal nodes that wait for their right
child, becomes LEFT of the first that waits for its left child, whose right child is read next, or becomes ROOT and completes
the command; a step whose read is held changes nothing; an end before the first control bit is E_DEGENERATE(0), a later one
E_CORRUPT(NODE_COUNT), a node beyond NODE_CAP E_CAPACITY(511), each with the arena released and EINFO taken before the release
(the model's reading, assumption 18). Where the unit steps fall around the bit operations is the model's reading (assumptions
1 and 2). -/
def Obligations.DeserializeTreeUnitSteps : Prop :=
  ∀ s : State, s.stat.abortReq = false →
    (s.cont = .start → StepReads .deserializeTree s { s with arena := Arena.empty } (.desCtl [] true)) ∧
    (∀ st, s.cont = .desCtl st true .exh →
      exec .deserializeTree s = .next (raise .degenerate 0 { s with arena := Arena.empty })) ∧
    (∀ st, s.cont = .desCtl st false .exh →
      exec .deserializeTree s =
        .next (raise .corrupt (BitVec.ofNat 32 s.arena.nodes.length) { s with arena := Arena.empty })) ∧
    (∀ st n k v, s.cont = .desSym st n k v .exh →
      exec .deserializeTree s =
        .next (raise .corrupt (BitVec.ofNat 32 s.arena.nodes.length) { s with arena := Arena.empty })) ∧
    (∀ st first b, s.cont = .desCtl st first (.bit b) → s.arena.nodes.length = 511 →
      exec .deserializeTree s = .next (raise .capacity 511 { s with arena := Arena.empty })) ∧
    (∀ st first, s.cont = .desCtl st first (.bit true) → s.arena.nodes.length ≠ 511 →
      StepReads .deserializeTree s { s with arena := { s.arena with nodes := s.arena.nodes ++ [.leaf 0] } }
        (.desSym st (BitVec.ofNat 9 s.arena.nodes.length) 0 0)) ∧
    (∀ st first, s.cont = .desCtl st first (.bit false) → s.arena.nodes.length ≠ 511 →
      StepReads .deserializeTree s
        { s with arena := { s.arena with nodes := s.arena.nodes ++ [.internal 0x1FF#9 0x1FF#9 0] } }
        (.desCtl ({ node := BitVec.ofNat 9 s.arena.nodes.length, side := .left } :: st) false)) ∧
    (∀ st n k v b, k < 7 → s.cont = .desSym st n k v (.bit b) →
      StepReads .deserializeTree s s (.desSym st n (k + 1) (shiftIn v b))) ∧
    ∀ (rs : List Frame) n v b (q : NodeIdx × List Node), (∀ g ∈ rs, g.side = .right) →
      q = rs.foldl (fun p g => (g.node, setChild p.2 g.node .right p.1)) (n, setSym s.arena.nodes n (shiftIn v b)) →
        (s.cont = .desSym rs n 7 v (.bit b) →
          exec .deserializeTree s =
            .next
              { s with
                arena := { nodes := q.2, root := q.1, valid := true }
                stat := { s.stat with busy := false, done := true }
                cont := .idle }) ∧
        ∀ f st, f.side = .left → s.cont = .desSym (rs ++ f :: st) n 7 v (.bit b) →
          StepReads .deserializeTree s { s with arena := { s.arena with nodes := setChild q.2 f.node .left q.1 } }
            (.desCtl ({ f with side := .right } :: st) false)

/-- DESERIALIZE_TREE on the preorder bits of a tree of at most NODE_CAP nodes rebuilds it: nodes in preorder, ROOT = 0,
internal PRIO = 0, the reader just after the tree's last bit (43_tree_codec.md R172, R175). Where the unit steps fall around
the bit operations is the model's reading (assumptions 1 and 2). -/
def Obligations.DeserializeTreeRebuildsTheTree : Prop :=
  ∀ (s : State) (T : CodeTree) (rest : List Bool),
    Ready s → inBits s.inp = T.preorder ++ rest → s.inp.rdCnt.toNat ≤ 8 → T.size ≤ 511 →
      ∃ t : State,
        runUnits .deserializeTree (T.preorder.length + 1) s = .next t ∧
          Holds t.arena.nodes T 0 ((List.range T.size).map (BitVec.ofNat 9)) ∧
          t.arena.nodes.length = T.size ∧ t.arena.root = 0 ∧ t.arena.valid = true ∧
          (∀ a b p, Node.internal a b p ∈ t.arena.nodes → p = 0) ∧
          inBits t.inp = rest ∧ t.inp.rdBits = s.inp.rdBits + BitVec.ofNat 32 T.preorder.length ∧
          t = { complete s with arena := t.arena, inp := t.inp }

/-! ## Stream codec -/

/-- The unit steps of ENCODE_SYM (44_stream_codec.md R180, R182, 20_memory.md R78, R91): E_STATE(0) without a code table,
E_NOCODE(SYM) for a symbol without a code, both with SYMCNT = 0; otherwise the bit of the root edge is written first, and each
later step writes the next bit; a step whose write is held changes nothing; the step after the last bit sets SYMCNT to 1 and
completes. Where the unit steps fall around the bit operations is the model's reading (assumptions 1 and 2). -/
def Obligations.EncodeSymUnitSteps : Prop :=
  ∀ (v : Byte) (s : State), s.stat.abortReq = false →
    (s.cont = .start → s.codes.valid = false →
      exec (.encodeSym v) s = .next (raise .state 0 { s with symcnt := 0 })) ∧
    (s.cont = .start → s.codes.valid = true → symGet s.codes.len v = 0 →
      exec (.encodeSym v) s = .next (raise .noCode (v.setWidth 32) { s with symcnt := 0 })) ∧
    (∀ k, s.cont = .start → s.codes.valid = true → (symGet s.codes.len v).toNat = k + 1 →
      StepWrites (.encodeSym v) s { s with symcnt := 0 } ((symGet s.codes.bits v).getLsbD k) (.emit v k)) ∧
    (∀ k, s.cont = .emit v (k + 1) →
      StepWrites (.encodeSym v) s s ((symGet s.codes.bits v).getLsbD k) (.emit v k)) ∧
    (s.cont = .emit v 0 →
      exec (.encodeSym v) s =
        .next { s with symcnt := 1, stat := { s.stat with busy := false, done := true }, cont := .idle })

/-- ENCODE_SYM of a symbol with a code, with room in the output, appends exactly the code, root edge first, sets SYMCNT to 1
and changes nothing else (44_stream_codec.md R180, R182). Where the unit steps fall around the bit operations is the model's
reading (assumptions 1 and 2). -/
def Obligations.EncodeSymWritesTheCode : Prop :=
  ∀ (v : Byte) (s : State) (n : Nat),
    Ready s → s.codes.valid = true → (symGet s.codes.len v).toNat = n → 0 < n → outRoom s.ext.params.outCap n s.out →
      ∃ t : State,
        runUnits (.encodeSym v) (n + 1) s = .next t ∧
          outBits t.out = outBits s.out ++ bitsOf n (symGet s.codes.bits v) ∧
          t.out.wrBits = s.out.wrBits + BitVec.ofNat 32 n ∧
          t = { complete s with out := t.out, symcnt := 1 }

/-- The unit steps of ENCODE_EOS (44_stream_codec.md R181, 20_memory.md R76, R78, R91): E_STATE(0) without a code table; the
first step sets SYMCNT to 0 and reads a bit; a complete byte without a code raises E_NOCODE, one with a code writes its first
bit; each later step writes the next bit; the step after a code's last bit adds 1 to SYMCNT and reads on; a step whose read or
write is held changes nothing; a clean end completes, an end inside a byte is E_CORRUPT(k). Where the unit steps fall around
the bit operations is the model's reading (assumptions 1 and 2). -/
def Obligations.EncodeEosUnitSteps : Prop :=
  ∀ s : State, s.stat.abortReq = false →
    (s.cont = .start → s.codes.valid = false → exec .encodeEos s = .next (raise .state 0 { s with symcnt := 0 })) ∧
    (s.cont = .start → s.codes.valid = true → StepReads .encodeEos s { s with symcnt := 0 } (.rawByte 0 0)) ∧
    (∀ k v b, k < 7 → s.cont = .rawByte k v (.bit b) → StepReads .encodeEos s s (.rawByte (k + 1) (shiftIn v b))) ∧
    (∀ v b, s.cont = .rawByte 7 v (.bit b) → symGet s.codes.len (shiftIn v b) = 0 →
      exec .encodeEos s = .next (raise .noCode ((shiftIn v b).setWidth 32) s)) ∧
    (∀ v b k, s.cont = .rawByte 7 v (.bit b) → (symGet s.codes.len (shiftIn v b)).toNat = k + 1 →
      StepWrites .encodeEos s s ((symGet s.codes.bits (shiftIn v b)).getLsbD k) (.emit (shiftIn v b) k)) ∧
    (∀ v k, s.cont = .emit v (k + 1) → StepWrites .encodeEos s s ((symGet s.codes.bits v).getLsbD k) (.emit v k)) ∧
    (∀ v, s.cont = .emit v 0 → StepReads .encodeEos s { s with symcnt := s.symcnt + 1 } (.rawByte 0 0)) ∧
    (∀ v, s.cont = .rawByte 0 v .exh →
      exec .encodeEos s = .next { s with stat := { s.stat with busy := false, done := true }, cont := .idle }) ∧
    ∀ k v, 0 < k → s.cont = .rawByte k v .exh → exec .encodeEos s = .next (raise .corrupt (BitVec.ofNat 32 k) s)

/-- ENCODE_EOS over a terminated, byte-aligned input whose every byte has a code, with room in the output, appends the codes
of the bytes in input order, counts them in SYMCNT, reads all bits and changes nothing but the two cursors and SYMCNT
(44_stream_codec.md R181). Where the unit steps fall around the bit operations is the model's reading (assumptions 1 and 2). -/
def Obligations.EncodeEosEncodesItsInput : Prop :=
  ∀ (s : State) (bytes : List Byte),
    Ready s → s.codes.valid = true → inBits s.inp = bytesBits bytes → s.inp.rdCnt.toNat ≤ 8 → s.inp.eos = true →
      (∀ v ∈ bytes, symGet s.codes.len v ≠ 0) →
      outRoom s.ext.params.outCap (bytes.map fun v => (symGet s.codes.len v).toNat).sum s.out →
        ∃ (k : Nat) (t : State),
          runUnits .encodeEos k s = .next t ∧
            outBits t.out =
              outBits s.out ++
                (bytes.flatMap fun v => bitsOf (symGet s.codes.len v).toNat (symGet s.codes.bits v)) ∧
            t.symcnt = BitVec.ofNat 32 bytes.length ∧ inBits t.inp = [] ∧
            t.inp.rdBits = s.inp.rdBits + BitVec.ofNat 32 (8 * bytes.length) ∧
            t = { complete s with out := t.out, inp := t.inp, symcnt := t.symcnt }

/-- The unit steps of DECODE_SYM (44_stream_codec.md R183, R184, 20_memory.md R78, R91): E_STATE(0) without a tree; the first
step sets SYMCNT to 0 and reads a bit at ROOT; a bit that leads to a leaf writes its symbol to RES0, sets SYMCNT to 1 and
completes; one that leads to an internal node reads on there; a step whose read is held changes nothing; exhaustion, or a 1
under a single-leaf root, is E_CORRUPT(SYMCNT). Where the unit steps fall around the bit operations is the model's reading
(assumptions 1 and 2). -/
def Obligations.DecodeSymUnitSteps : Prop :=
  ∀ s : State, s.stat.abortReq = false →
    (s.cont = .start → s.arena.valid = false → exec .decodeSym s = .next (raise .state 0 { s with symcnt := 0 })) ∧
    (s.cont = .start → s.arena.valid = true → StepReads .decodeSym s { s with symcnt := 0 } (.walk s.arena.root false 0)) ∧
    (∀ n st l b x y p v, s.cont = .walk n st l (.bit b) → nodeAt s.arena.nodes n = some (.internal x y p) →
      nodeAt s.arena.nodes (if b then y else x) = some (.leaf v) →
        exec .decodeSym s =
          .next
            { s with
              regs := { s.regs with res0 := v.setWidth 32 }
              symcnt := 1
              stat := { s.stat with busy := false, done := true }
              cont := .idle }) ∧
    (∀ n st l b x y p x' y' p', s.cont = .walk n st l (.bit b) → nodeAt s.arena.nodes n = some (.internal x y p) →
      nodeAt s.arena.nodes (if b then y else x) = some (.internal x' y' p') →
        StepReads .decodeSym s s (.walk (if b then y else x) true l)) ∧
    (∀ n st l v, s.cont = .walk n st l (.bit false) → nodeAt s.arena.nodes n = some (.leaf v) →
      exec .decodeSym s =
        .next
          { s with
            regs := { s.regs with res0 := v.setWidth 32 }
            symcnt := 1
            stat := { s.stat with busy := false, done := true }
            cont := .idle }) ∧
    (∀ n st l v, s.cont = .walk n st l (.bit true) → nodeAt s.arena.nodes n = some (.leaf v) →
      exec .decodeSym s = .next (raise .corrupt s.symcnt s)) ∧
    ∀ n st l nd, s.cont = .walk n st l .exh → nodeAt s.arena.nodes n = some nd →
      exec .decodeSym s = .next (raise .corrupt s.symcnt s)

/-- DECODE_SYM with the code of a leaf next in the input puts that leaf's symbol in RES0, SYMCNT = 1, reads exactly the code
and changes nothing else, however deep the leaf (44_stream_codec.md R183, R184). Where the unit steps fall around the bit
operations is the model's reading (assumptions 1 and 2). -/
def Obligations.DecodeSymReadsOneCode : Prop :=
  ∀ (s : State) (T : CodeTree) (ix : List NodeIdx) (v : Byte) (p rest : List Bool),
    Ready s → s.arena.valid = true → Holds s.arena.nodes T s.arena.root ix → (v, p) ∈ T.codes →
      inBits s.inp = p ++ rest → s.inp.rdCnt.toNat ≤ 8 →
        ∃ t : State,
          runUnits .decodeSym (p.length + 1) s = .next t ∧ t.regs.res0 = v.setWidth 32 ∧ t.symcnt = 1 ∧
            inBits t.inp = rest ∧ t.inp.rdBits = s.inp.rdBits + BitVec.ofNat 32 p.length ∧
            t = { complete s with regs := { s.regs with res0 := t.regs.res0 }, inp := t.inp, symcnt := t.symcnt }

/-- The unit steps of DECODE_N (44_stream_codec.md R183, R185, 20_memory.md R78, 70_reset_and_hazards.md R279): N is ARG0 as the
first step finds it; E_STATE(0) without a tree; N = 0 completes at once with nothing read; otherwise the first step reads a bit
at ROOT, and while it is held a write of ARG0 does not lift the hold (how the model keeps it is assumption 24); a bit that leads
to an internal node reads on there, one that leads to a leaf writes the first bit of its symbol, and under a single-leaf root so
does a 0, while a 1 is E_CORRUPT(SYMCNT); each later step writes the symbol's next bit; the step after its last bit adds 1 to
SYMCNT and begins the walk anew while SYMCNT < N, and completes when it is N; a step whose read or write is held changes
nothing; exhaustion is E_CORRUPT(SYMCNT). Where the unit steps fall around the bit operations is the model's reading
(assumptions 1 and 2). -/
def Obligations.DecodeNUnitSteps : Prop :=
  ∀ s : State, s.stat.abortReq = false →
    (AtFirstStep s →
      (s.arena.valid = false → exec .decodeN s = .next (raise .state 0 { s with symcnt := 0 })) ∧
      (s.arena.valid = true → s.regs.arg0 = 0 →
        exec .decodeN s =
          .next { s with symcnt := 0, stat := { s.stat with busy := false, done := true }, cont := .idle }) ∧
      (s.arena.valid = true → s.regs.arg0 ≠ 0 →
        StepReads .decodeN s { s with symcnt := 0 } (.walk s.arena.root false s.regs.arg0))) ∧
    (s.cont = .heldStart → readBit s.inp = .hold → exec .decodeN s = .next s) ∧
    (∀ n st l b x y p x' y' p', s.cont = .walk n st l (.bit b) → nodeAt s.arena.nodes n = some (.internal x y p) →
      nodeAt s.arena.nodes (if b then y else x) = some (.internal x' y' p') →
        StepReads .decodeN s s (.walk (if b then y else x) true l)) ∧
    (∀ n st l b x y p v, s.cont = .walk n st l (.bit b) → nodeAt s.arena.nodes n = some (.internal x y p) →
      nodeAt s.arena.nodes (if b then y else x) = some (.leaf v) →
        StepWrites .decodeN s s (v.getLsbD 7) (.outSym v 7 l)) ∧
    (∀ n st l v, s.cont = .walk n st l (.bit false) → nodeAt s.arena.nodes n = some (.leaf v) →
      StepWrites .decodeN s s (v.getLsbD 7) (.outSym v 7 l)) ∧
    (∀ n st l v, s.cont = .walk n st l (.bit true) → nodeAt s.arena.nodes n = some (.leaf v) →
      exec .decodeN s = .next (raise .corrupt s.symcnt s)) ∧
    (∀ v k l, s.cont = .outSym v (k + 1) l → StepWrites .decodeN s s (v.getLsbD k) (.outSym v k l)) ∧
    (∀ v l, s.cont = .outSym v 0 l → l ≤ s.symcnt + 1 →
      exec .decodeN s =
        .next { s with symcnt := s.symcnt + 1, stat := { s.stat with busy := false, done := true }, cont := .idle }) ∧
    (∀ v l, s.cont = .outSym v 0 l → s.symcnt + 1 < l →
      StepReads .decodeN s { s with symcnt := s.symcnt + 1 } (.walk s.arena.root false l)) ∧
    ∀ n st l nd, s.cont = .walk n st l .exh → nodeAt s.arena.nodes n = some nd →
      exec .decodeN s = .next (raise .corrupt s.symcnt s)

/-- DECODE_N with the codes of N leaves next in the input and room in the output appends their N symbols as bytes, sets
SYMCNT to N, reads exactly those codes and changes nothing else (44_stream_codec.md R185); N is ARG0 as the first unit step finds
it (70_reset_and_hazards.md R279), also where that step was held and ARG0 written meanwhile (the model's reading, assumption
24). Where the unit steps fall around the bit operations is the model's reading (assumptions 1 and 2). -/
def Obligations.DecodeNReadsItsCount : Prop :=
  ∀ (s : State) (T : CodeTree) (ix : List NodeIdx) (l : List (Byte × List Bool)) (rest : List Bool),
    AtFirstStep s → s.stat.abortReq = false → s.arena.valid = true → Holds s.arena.nodes T s.arena.root ix →
      (∀ e ∈ l, e ∈ T.codes) → s.regs.arg0.toNat = l.length → inBits s.inp = l.flatMap Prod.snd ++ rest →
      s.inp.rdCnt.toNat ≤ 8 → outRoom s.ext.params.outCap (8 * l.length) s.out →
        ∃ (k : Nat) (t : State),
          runUnits .decodeN k s = .next t ∧ outBits t.out = outBits s.out ++ bytesBits (l.map Prod.fst) ∧
            t.symcnt = s.regs.arg0 ∧ inBits t.inp = rest ∧
            t.inp.rdBits = s.inp.rdBits + BitVec.ofNat 32 (l.flatMap Prod.snd).length ∧
            t = { complete s with out := t.out, inp := t.inp, symcnt := t.symcnt }

/-- The unit steps of DECODE_EOS (44_stream_codec.md R183, R186, 20_memory.md R78): E_STATE(0) without a tree; the first step
sets SYMCNT to 0 and reads a bit at ROOT; a bit that leads to an internal node reads on there, one that leads to a leaf writes
the first bit of its symbol, and under a single-leaf root so does a 0, while a 1 is E_CORRUPT(SYMCNT); each later step writes
the symbol's next bit; the step after its last bit adds 1 to SYMCNT and begins the walk anew; a step whose read or write is
held changes nothing; exhaustion completes the command, with PARTIAL = 1 inside a code. Where the unit steps fall around the
bit operations is the model's reading (assumptions 1 and 2). -/
def Obligations.DecodeEosUnitSteps : Prop :=
  ∀ s : State, s.stat.abortReq = false →
    (s.cont = .start → s.arena.valid = false → exec .decodeEos s = .next (raise .state 0 { s with symcnt := 0 })) ∧
    (s.cont = .start → s.arena.valid = true → StepReads .decodeEos s { s with symcnt := 0 } (.walk s.arena.root false 0)) ∧
    (∀ n st l b x y p x' y' p', s.cont = .walk n st l (.bit b) → nodeAt s.arena.nodes n = some (.internal x y p) →
      nodeAt s.arena.nodes (if b then y else x) = some (.internal x' y' p') →
        StepReads .decodeEos s s (.walk (if b then y else x) true l)) ∧
    (∀ n st l b x y p v, s.cont = .walk n st l (.bit b) → nodeAt s.arena.nodes n = some (.internal x y p) →
      nodeAt s.arena.nodes (if b then y else x) = some (.leaf v) →
        StepWrites .decodeEos s s (v.getLsbD 7) (.outSym v 7 l)) ∧
    (∀ n st l v, s.cont = .walk n st l (.bit false) → nodeAt s.arena.nodes n = some (.leaf v) →
      StepWrites .decodeEos s s (v.getLsbD 7) (.outSym v 7 l)) ∧
    (∀ n st l v, s.cont = .walk n st l (.bit true) → nodeAt s.arena.nodes n = some (.leaf v) →
      exec .decodeEos s = .next (raise .corrupt s.symcnt s)) ∧
    (∀ v k l, s.cont = .outSym v (k + 1) l → StepWrites .decodeEos s s (v.getLsbD k) (.outSym v k l)) ∧
    (∀ v l, s.cont = .outSym v 0 l →
      StepReads .decodeEos s { s with symcnt := s.symcnt + 1 } (.walk s.arena.root false l)) ∧
    (∀ n l nd, s.cont = .walk n false l .exh → nodeAt s.arena.nodes n = some nd →
      exec .decodeEos s = .next { s with stat := { s.stat with busy := false, done := true }, cont := .idle }) ∧
    ∀ n l nd, s.cont = .walk n true l .exh → nodeAt s.arena.nodes n = some nd →
      exec .decodeEos s =
        .next { s with stat := { s.stat with busy := false, done := true, partialCode := true }, cont := .idle }

/-- DECODE_EOS over a terminated input that consists of the codes of leaves and then a proper part of one more code, which
may be empty, with room in the output, appends the leaves' symbols as bytes, counts them in SYMCNT, reads all bits, sets
PARTIAL = 1 exactly if the last part is not empty, and changes nothing else (44_stream_codec.md R186). Where the unit steps
fall around the bit operations is the model's reading (assumptions 1 and 2). -/
def Obligations.DecodeEosDecodesToTheEnd : Prop :=
  ∀ (s : State) (T : CodeTree) (ix : List NodeIdx) (l : List (Byte × List Bool)) (last : Byte × List Bool) (tail : List Bool),
    Ready s → s.arena.valid = true → Holds s.arena.nodes T s.arena.root ix → (∀ e ∈ l, e ∈ T.codes) →
      last ∈ T.codes → tail <+: last.2 → tail ≠ last.2 → inBits s.inp = l.flatMap Prod.snd ++ tail →
      s.inp.rdCnt.toNat ≤ 8 → s.inp.eos = true → s.stat.partialCode = false →
      outRoom s.ext.params.outCap (8 * l.length) s.out →
        ∃ (k : Nat) (t : State),
          runUnits .decodeEos k s = .next t ∧ outBits t.out = outBits s.out ++ bytesBits (l.map Prod.fst) ∧
            t.symcnt = BitVec.ofNat 32 l.length ∧ inBits t.inp = [] ∧
            t.inp.rdBits = s.inp.rdBits + BitVec.ofNat 32 (inBits s.inp).length ∧
            t =
              { complete s with
                stat := { (complete s).stat with partialCode := !tail.isEmpty }
                out := t.out
                inp := t.inp
                symcnt := t.symcnt }

/-! ## Bit cursor and NOP -/

/-- ReadBit returns the first bit of the unread input, most significant bit of a byte first, counts it in RD_BITS and keeps
IN_EOS; it returns EXH, changing nothing, exactly when the input is exhausted, and holds exactly when the input is empty and
IN_EOS = 0 (20_memory.md R70, R71, R75). -/
def Obligations.ReadBitTakesTheNextBit : Prop :=
  (∀ r : BitReader, r.rdCnt.toNat ≤ 8 → ∀ (b : Bool) (bs : List Bool), inBits r = b :: bs →
      ∃ r', readBit r = .bit b r' ∧ inBits r' = bs ∧ r'.rdBits = r.rdBits + 1 ∧ r'.eos = r.eos ∧ r'.rdCnt.toNat ≤ 8) ∧
    ∀ r : BitReader,
      (readBit r = .exh ↔ r.rdCnt = 0 ∧ r.fifo = [] ∧ r.eos = true) ∧
        (readBit r = .hold ↔ r.rdCnt = 0 ∧ r.fifo = [] ∧ r.eos = false) ∧
        (r.rdCnt ≠ 0 →
          readBit r =
            .bit (r.rdBuf.getLsbD (r.rdCnt.toNat - 1)) { r with rdCnt := r.rdCnt - 1, rdBits := r.rdBits + 1 }) ∧
        ∀ (x : Byte) (f : List Byte), r.rdCnt = 0 → r.fifo = x :: f →
          readBit r = .bit (x.getLsbD 7) { r with fifo := f, rdBuf := x, rdCnt := 7, rdBits := r.rdBits + 1 }

/-- WriteBit holds exactly when it would complete a byte with the output FIFO full; otherwise it appends the bit at the end
of the output and counts it in WR_BITS, and a completed byte goes to the FIFO whole, first-written bit most significant, with
WR_CNT and WR_ACC back at 0 (20_memory.md R73, R75). -/
def Obligations.WriteBitAppendsTheBit : Prop :=
  ∀ (cap : Nat) (b : Bool) (w : BitWriter),
    (writeBit cap b w = none ↔ w.wrCnt = 7 ∧ w.fifo.length = cap) ∧
      ∀ w', writeBit cap b w = some w' →
        outBits w' = outBits w ++ [b] ∧ w'.wrBits = w.wrBits + 1 ∧
          (w.wrCnt = 7 → w'.fifo = w.fifo ++ [shiftIn w.wrAcc b] ∧ w'.wrCnt = 0 ∧ w'.wrAcc = 0) ∧
          (w.wrCnt ≠ 7 → w'.fifo = w.fifo ∧ w'.wrCnt = w.wrCnt + 1 ∧ w'.wrAcc = shiftIn w.wrAcc b)

/-- The unit steps of PUT_BITS (45_bitcursor.md R201, 20_memory.md R78, R91): the first latches ARG0 and writes its bit N − 1; each
later one writes the next lower bit of the latched value; a step whose write is held changes nothing, so a first step that is
held has not latched ARG0 yet (70_reset_and_hazards.md R279); after bit 0 the command completes; N outside 1..32 is E_ILLEGAL.
Where the unit steps fall around the bit operations is the model's reading (assumptions 1 and 2). (A decoded word never has such
an N: assumption 19.) -/
def Obligations.PutBitsUnitSteps : Prop :=
  ∀ (n : BitVec 6) (s : State), s.stat.abortReq = false →
    (bitCountLegal n = false → exec (.putBits n) s = .next (raise .illegal s.regs.curCmd s)) ∧
    (∀ k, bitCountLegal n = true → s.cont = .start → n.toNat = k + 1 →
      StepWrites (.putBits n) s s (s.regs.arg0.getLsbD k) (.putBits s.regs.arg0 k)) ∧
    (∀ v k, bitCountLegal n = true → s.cont = .putBits v (k + 1) →
      StepWrites (.putBits n) s s (v.getLsbD k) (.putBits v k)) ∧
    ∀ v, bitCountLegal n = true → s.cont = .putBits v 0 →
      exec (.putBits n) s = .next { s with stat := { s.stat with busy := false, done := true }, cont := .idle }

/-- PUT_BITS N with room in the output appends the operand's bits ARG0[N−1], ..., ARG0[0] and changes nothing but the writer
(45_bitcursor.md R201, 20_memory.md R74). Where the unit steps fall around the bit operations is the model's reading
(assumptions 1 and 2). -/
def Obligations.PutBitsWritesTheField : Prop :=
  ∀ (n : BitVec 6) (s : State), bitCountLegal n = true → Ready s → outRoom s.ext.params.outCap n.toNat s.out →
    ∃ t : State,
      runUnits (.putBits n) (n.toNat + 1) s = .next t ∧
        outBits t.out = outBits s.out ++ bitsOf n.toNat s.regs.arg0 ∧
        t.out.wrBits = s.out.wrBits + n.setWidth 32 ∧ t = { complete s with out := t.out }

/-- The unit steps of GET_BITS (45_bitcursor.md R202, 20_memory.md R78, R91): each reads one bit, and the bit read before goes
into the field; a step whose read is held changes nothing; after the N-th bit the field goes to RES0 and the command completes;
exhaustion after k bits is E_CORRUPT(k); N outside 1..32 is E_ILLEGAL. Where the unit steps fall around the bit operations is
the model's reading (assumptions 1 and 2). (A decoded word never has such an N: assumption 19.) -/
def Obligations.GetBitsUnitSteps : Prop :=
  ∀ (n : BitVec 6) (s : State), s.stat.abortReq = false →
    (bitCountLegal n = false → exec (.getBits n) s = .next (raise .illegal s.regs.curCmd s)) ∧
    (bitCountLegal n = true → s.cont = .start → StepReads (.getBits n) s s (.getBits 0 0)) ∧
    (∀ k v b, bitCountLegal n = true → s.cont = .getBits k v (.bit b) → k + 1 ≠ n.toNat →
      StepReads (.getBits n) s s (.getBits (k + 1) (shiftIn v b))) ∧
    (∀ k v b, bitCountLegal n = true → s.cont = .getBits k v (.bit b) → k + 1 = n.toNat →
      exec (.getBits n) s =
        .next
          { s with
            regs := { s.regs with res0 := shiftIn v b }
            stat := { s.stat with busy := false, done := true }
            cont := .idle }) ∧
    ∀ k v, bitCountLegal n = true → s.cont = .getBits k v .exh →
      exec (.getBits n) s = .next (raise .corrupt (BitVec.ofNat 32 k) s)

/-- GET_BITS N puts the next N input bits in RES0, the first most significant, and changes nothing but RES0 and the reader;
at an input terminated after k < N bits it reads them and raises E_CORRUPT(k) with RES0 unchanged (45_bitcursor.md R202).
Where the unit steps fall around the bit operations is the model's reading (assumptions 1 and 2). -/
def Obligations.GetBitsReadsTheField : Prop :=
  ∀ (n : BitVec 6) (s : State), bitCountLegal n = true → Ready s → s.inp.rdCnt.toNat ≤ 8 →
    (∀ bs rest : List Bool, inBits s.inp = bs ++ rest → bs.length = n.toNat →
      ∃ t : State,
        runUnits (.getBits n) (n.toNat + 1) s = .next t ∧ t.regs.res0 = ofBits bs ∧ inBits t.inp = rest ∧
          t.inp.rdBits = s.inp.rdBits + n.setWidth 32 ∧
          t = { complete s with regs := { s.regs with res0 := t.regs.res0 }, inp := t.inp }) ∧
    ((inBits s.inp).length < n.toNat → s.inp.eos = true →
      ∃ t : State,
        runUnits (.getBits n) ((inBits s.inp).length + 2) s = .next t ∧ inBits t.inp = [] ∧
          t = { raise .corrupt (BitVec.ofNat 32 (inBits s.inp).length) s with inp := t.inp })

/-- FLUSH, from its start or after a padding bit, completes with WR_CNT = 0, and writes a 0 bit otherwise, a step whose write is
held changing nothing; with room in the output it appends (8 − WR_CNT) mod 8 zero bits in all, leaves WR_CNT = 0 and changes
nothing but the writer (45_bitcursor.md R203, 20_memory.md R78). Where the unit steps fall around the bit operations is the
model's reading (assumptions 1 and 2). -/
def Obligations.FlushPadsWithZeros : Prop :=
  ∀ s : State, s.stat.abortReq = false → (s.cont = .start ∨ s.cont = .flush) →
    (s.out.wrCnt = 0 →
      exec .flush s = .next { s with stat := { s.stat with busy := false, done := true }, cont := .idle }) ∧
    (s.out.wrCnt ≠ 0 → StepWrites .flush s s false .flush) ∧
    (outRoom s.ext.params.outCap ((8 - s.out.wrCnt.toNat) % 8) s.out →
      ∃ t : State,
        runUnits .flush ((8 - s.out.wrCnt.toNat) % 8 + 1) s = .next t ∧
          outBits t.out = outBits s.out ++ List.replicate ((8 - s.out.wrCnt.toNat) % 8) false ∧ t.out.wrCnt = 0 ∧
          t.out.wrBits = s.out.wrBits + BitVec.ofNat 32 ((8 - s.out.wrCnt.toNat) % 8) ∧
          t = { complete s with out := t.out })

/-- NOP only completes; STREAM_RESET empties and rewinds the input side when I = 1, the output side when O = 1, completes and
changes nothing else (45_bitcursor.md R200, R204; 60_exceptions.md R231). -/
def Obligations.NopAndStreamReset : Prop :=
  ∀ s : State, s.stat.abortReq = false →
    exec .nop s = .next { s with stat := { s.stat with busy := false, done := true }, cont := .idle } ∧
      ∀ o i : Bool,
        exec (.streamReset o i) s =
          .next
            { s with
              inp := if i then { fifo := [], rdBuf := 0, rdCnt := 0, rdBits := 0, eos := false } else s.inp
              out := if o then { fifo := [], wrAcc := 0, wrCnt := 0, wrBits := 0 } else s.out
              stat := { s.stat with busy := false, done := true }
              cont := .idle }

/-! ## Frames -/

/-- No command changes ARG0, CUR_CMD, CTRL.IE, CMDOVR, IN_OVF, ABORT_REQ or anything outside the block; only HEAP_REMOVE,
HEAP_SIZE, DECODE_SYM and GET_BITS change RES0, only HEAP_REMOVE changes RES1, only the stream codec changes SYMCNT and only
DECODE_EOS changes PARTIAL (10_state.md R21, R22, R23, R24, R38, 44_stream_codec.md R186). That ABORT_REQ stays 1 when its
abort is done is the model's reading of 10_state.md R25 (assumption 17). -/
def Obligations.OnlyNamedCommandsWriteRegisters : Prop :=
  ∀ (i : Instr) (s t : State), exec i s = .next t →
    t.regs.arg0 = s.regs.arg0 ∧ t.regs.curCmd = s.regs.curCmd ∧ t.stat.ie = s.stat.ie ∧ t.stat.cmdOvr = s.stat.cmdOvr ∧
      t.stat.inOvf = s.stat.inOvf ∧ t.stat.abortReq = s.stat.abortReq ∧ t.ext = s.ext ∧
      (i ≠ .heapRemove → i ≠ .heapSize → i ≠ .decodeSym → (∀ n, i ≠ .getBits n) → t.regs.res0 = s.regs.res0) ∧
      (i ≠ .heapRemove → t.regs.res1 = s.regs.res1) ∧
      ((∀ v, i ≠ .encodeSym v) → i ≠ .encodeEos → i ≠ .decodeSym → i ≠ .decodeN → i ≠ .decodeEos → t.symcnt = s.symcnt) ∧
      (i ≠ .decodeEos → t.stat.partialCode = s.stat.partialCode)

/-- Only the heap commands and BUILD_TREE change the heap, only FREQ_CLEAR and FREQ_COUNT the frequency table, only
BUILD_CODES the code table with CODES_VALID, and only BUILD_TREE, TREE_CLEAR and DESERIALIZE_TREE the arena (10_state.md R28,
R31, R33; 40_heap.md; 41_tree_builder.md R141, R148). Only the commands that read the input move the reader, and only those
that write the output move the writer: every other command leaves FIFO, buffer, counters and IN_EOS as they are (10_state.md
R36, R37; 20_memory.md R77). -/
def Obligations.OnlyNamedCommandsWriteTablesAndCursors : Prop :=
  ∀ (i : Instr) (s t : State), exec i s = .next t →
    (i ≠ .heapCreate → i ≠ .heapDestroy → (∀ c p, i ≠ .heapAdd c p) → i ≠ .heapRemove → i ≠ .buildTree →
      t.heap = s.heap) ∧
    (i ≠ .freqClear → i ≠ .freqCount → t.freq = s.freq) ∧
    (i ≠ .buildCodes → t.codes = s.codes) ∧
    (i ≠ .buildTree → i ≠ .treeClear → i ≠ .deserializeTree → t.arena = s.arena) ∧
    (i ≠ .freqCount → i ≠ .deserializeTree → i ≠ .encodeEos → i ≠ .decodeSym → i ≠ .decodeN → i ≠ .decodeEos →
      (∀ n, i ≠ .getBits n) → (∀ o, i ≠ .streamReset o true) → t.inp = s.inp) ∧
    (i ≠ .serializeTree → (∀ v, i ≠ .encodeSym v) → i ≠ .encodeEos → i ≠ .decodeN → i ≠ .decodeEos →
      (∀ n, i ≠ .putBits n) → i ≠ .flush → (∀ j, i ≠ .streamReset true j) → t.out = s.out)

/-- While TREE_VALID = 1 no command changes a node or ROOT, except BUILD_TREE, DESERIALIZE_TREE and TREE_CLEAR (10_state.md
R30): a step that changes the arena is a unit step of one of these, the engine having the turn, or a reset. Host accesses are
the head of the agenda (the model's form, assumption 3). -/
def Obligations.TreeIsReadOnlyWhileValid : Prop :=
  ∀ s t : State, s.arena.valid = true → step s = .next t → t.arena ≠ s.arena →
    (s.ext.resetIn = false ∧ s.stat.busy = true ∧
        (s.ext.agenda = [] ∨ (∃ rest, s.ext.agenda = .engine :: rest) ∨
          (∃ rest, s.ext.agenda = .wait :: rest) ∧ s.stat.done = false) ∧
        ∃ i, (i = .buildTree ∨ i = .deserializeTree ∨ i = .treeClear) ∧ decode s.regs.curCmd = .ok i ∧
          exec i (withAgenda t.ext.agenda s) = .next t) ∨
      s.ext.resetIn = true ∨ (∃ rest, s.ext.agenda = .resetPin true :: rest) ∨
      ∃ v rest, s.ext.agenda = .write 32 0x004#14 v :: rest ∧ v.getLsbD 3 = true

/-! ## Invariants of every step -/

/-- Every step keeps what holds of every reachable state: the engine is consistent (10_state.md R39), every value is in the
range the spec gives it (R26, R28, R32, R34 to R37), TREE_VALID = 1 stands only over a tree (R29), and a running tree walk
stands on nodes of it. The continuation's form is the model's (assumption 20). -/
def Obligations.SoundnessKeptByEveryStep : Prop :=
  ∀ s t : State, Sound s → step s = .next t → Sound t

/-- In a sound state no step faults, and the only stop is the refusal of a malformed host access at the head of the agenda,
which 20_memory.md R61 says the host does not make. So every command runs on, in every state the machine reaches (10_state.md
R29, R39, 41_tree_builder.md R143). The refusal is the model's (assumption 12), the access the head of the agenda (assumption
3). -/
def Obligations.SoundStepNeverFaults : Prop :=
  ∀ s : State, Sound s →
    (∃ t, step s = .next t) ∨
      step s = .refused .protocolViolation ∧
        ∃ width off rest, (width ≠ 32 ∨ off.toNat % 4 ≠ 0) ∧
          (s.ext.agenda = .read width off :: rest ∨ ∃ v, s.ext.agenda = .write width off v :: rest)

/-- The three invariants hold of the machine right after reset (70_reset_and_hazards.md R262). -/
def Obligations.InvariantsHoldAtReset : Prop :=
  Sound State.reset ∧ HeapOrdered State.reset.heap.entries ∧ FreqOk State.reset

/-- A soft reset, by a CTRL write with bit 3 set and any other bits, and an assertion of the reset input give every state
element of the block its reset value (10_state.md R24, R42, 70_reset_and_hazards.md R260, R261), BUSY or not. While the reset
input is asserted every step, whatever the turn, leaves every element at its reset value; a deassertion leaves the reset
state, with the input deasserted. What lies outside the block, the parameters and what the host has read, stays (the model's
choice, assumption 22); the reset input and the host's accesses are turns of the agenda (the model's form, assumptions 3 and
13). -/
def Obligations.ResetGivesEveryResetValue : Prop :=
  ∀ s : State,
    (∀ rest, s.ext.resetIn = false →
      (∀ v, s.ext.agenda = .write 32 0x004#14 v :: rest → v.getLsbD 3 = true →
        ∃ t, step s = .next t ∧ AtReset t ∧ t.ext = { s.ext with agenda := rest }) ∧
      (s.ext.agenda = .resetPin true :: rest →
        ∃ t, step s = .next t ∧ AtReset t ∧ t.ext = { s.ext with agenda := rest, resetIn := true })) ∧
    (s.ext.resetIn = true →
      (∀ t, step s = .next t → AtReset t) ∧
        (∀ off v rest, s.ext.agenda = .write 32 off v :: rest → off.toNat % 4 = 0 →
          ∃ t, step s = .next t ∧ t.ext = { s.ext with agenda := rest }) ∧
        ∀ rest, s.ext.agenda = .resetPin false :: rest →
          ∃ t, step s = .next t ∧ t.ext = { s.ext with agenda := rest, resetIn := false })

/-! ## The register port -/

/-- A CMD write is dropped with CMDOVR = 1 while BUSY = 1 and otherwise accepts the word: CUR_CMD, BUSY = 1, and DONE, ERR,
ECODE, PARTIAL and ABORT_REQ cleared, ENGINE_CONT at the command's start; ARG0 is not read (60_exceptions.md R230). The access
is the head of the agenda (the model's form, assumption 3). -/
def Obligations.CmdWriteAcceptsOrDrops : Prop :=
  ∀ (s : State) (v : Word) (rest : List Turn), s.ext.resetIn = false → s.ext.agenda = .write 32 0x00C#14 v :: rest →
    (s.stat.busy = true →
      step s = .next { s with stat := { s.stat with cmdOvr := true }, ext := { s.ext with agenda := rest } }) ∧
    (s.stat.busy = false →
      step s =
        .next
          { s with
            regs := { s.regs with curCmd := v }
            stat :=
              { s.stat with
                busy := true, done := false, err := false, ecode := .none, partialCode := false, abortReq := false }
            cont := .start
            ext := { s.ext with agenda := rest } })

/-- A CTRL write without SRST: IE takes bit 0, bit 1 sets IN_EOS, bit 2 sets ABORT_REQ only while BUSY = 1. A STATUS write
clears DONE, CMDOVR and IN_OVF where bits 1, 9 and 10 are 1, and changes no other bit. An ARG0 write stores its value
and changes nothing else, but that ENGINE_CONT of a DECODE_N held in its first unit step then says that the hold stays
(10_state.md R21, R23, R24, 20_memory.md R78; the latter is the model's form, assumption 24). The access is the head of the
agenda (the model's form, assumption 3). -/
def Obligations.ControlWritesDoWhatTheirBitsSay : Prop :=
  ∀ (s : State) (v : Word) (rest : List Turn), s.ext.resetIn = false →
    (s.ext.agenda = .write 32 0x004#14 v :: rest → v.getLsbD 3 = false →
      step s =
        .next
          { s with
            stat := { s.stat with ie := v.getLsbD 0, abortReq := s.stat.abortReq || (v.getLsbD 2 && s.stat.busy) }
            inp := { s.inp with eos := s.inp.eos || v.getLsbD 1 }
            ext := { s.ext with agenda := rest } }) ∧
    (s.ext.agenda = .write 32 0x008#14 v :: rest →
      step s =
        .next
          { s with
            stat :=
              { s.stat with
                done := s.stat.done && !v.getLsbD 1, cmdOvr := s.stat.cmdOvr && !v.getLsbD 9,
                inOvf := s.stat.inOvf && !v.getLsbD 10 }
            ext := { s.ext with agenda := rest } }) ∧
    (s.ext.agenda = .write 32 0x010#14 v :: rest →
      ∃ c : EngineCont,
        step s = .next { s with regs := { s.regs with arg0 := v }, cont := c, ext := { s.ext with agenda := rest } } ∧
          ((decode s.regs.curCmd = .ok .decodeN ∧ s.cont = .start ∧ held s = true → c = .heldStart) ∧
            (¬(decode s.regs.curCmd = .ok .decodeN ∧ s.cont = .start ∧ held s = true) → c = s.cont)))

/-- A write to IN_DATA appends the low byte if IN_EOS = 0 and IN_LEVEL < IN_DEPTH, and otherwise is dropped with IN_OVF = 1;
a read of OUT_DATA pops the oldest byte with bit 8 set, or returns 0 and changes nothing (20_memory.md R66, R67). The access
is the head of the agenda (the model's form, assumption 3). -/
def Obligations.FifoPortsPushAndPop : Prop :=
  ∀ (s : State) (rest : List Turn), s.ext.resetIn = false →
    (∀ v : Word, s.ext.agenda = .write 32 0x048#14 v :: rest →
      (s.inp.eos = false → s.inp.fifo.length < s.ext.params.inCap →
        step s =
          .next
            { s with
              inp := { s.inp with fifo := s.inp.fifo ++ [v.setWidth 8] }
              ext := { s.ext with agenda := rest } }) ∧
      (s.inp.eos = true ∨ s.inp.fifo.length = s.ext.params.inCap →
        step s = .next { s with stat := { s.stat with inOvf := true }, ext := { s.ext with agenda := rest } })) ∧
    (s.ext.agenda = .read 32 0x04C#14 :: rest →
      (∀ (b : Byte) (bs : List Byte), s.out.fifo = b :: bs →
        step s =
          .next
            { s with
              out := { s.out with fifo := bs }
              ext := { s.ext with agenda := rest, hostReads := BitVec.ofNat 32 (256 + b.toNat) :: s.ext.hostReads } }) ∧
      (s.out.fifo = [] →
        step s = .next { s with ext := { s.ext with agenda := rest, hostReads := 0 :: s.ext.hostReads } }))

/-- While BUSY = 0 a read of every register of the map returns the word the map gives it, and so does a read of ID, CTRL,
STATUS, CMD, ARG0, FIFO, PARAM0 and PARAM1 while BUSY = 1 (OUT_DATA is in FifoPortsPushAndPop, the windows in
WindowsShowTheTables). While BUSY = 1 a read of any other mapped offset but OUT_DATA returns an unspecified value, a fresh
one each time, and nothing else changes (20_memory.md R63, R68, 10_state.md R23, R24, R40). An unmapped offset reads 0 (R62),
while BUSY = 1 too (the model's reading, assumption 8); a read of IN_DATA, which is write-only, returns a free value (the
model's choice, assumption 7). The access is the head of the agenda (the model's form, assumption 3). -/
def Obligations.ReadsAreExactWhenIdleAndFreeWhenBusy : Prop :=
  ∀ (s : State) (off : BitVec 14) (rest : List Turn),
    s.ext.resetIn = false → s.ext.agenda = .read 32 off :: rest → off.toNat % 4 = 0 → InRange s →
      (∀ word : Word,
        (off, word) ∈
            [ (0x000#14, 0x48554601#32),
              (0x004#14, BitVec.ofNat 32 (s.stat.ie.toNat + 2 * s.inp.eos.toNat)),
              (0x008#14, statusWord (held s) s), (0x00C#14, s.regs.curCmd), (0x010#14, s.regs.arg0),
              (0x044#14, BitVec.ofNat 32 (s.inp.fifo.length + 2 ^ 8 * s.out.fifo.length)), (0x050#14, 0x01FF0100#32),
              (0x054#14, BitVec.ofNat 32 (32 + 2 ^ 8 * s.ext.params.inCap + 2 ^ 16 * s.ext.params.outCap)) ] ∨
          s.stat.busy = false ∧
            (off, word) ∈
              [ (0x014#14, s.regs.res0), (0x018#14, s.regs.res1), (0x01C#14, s.regs.ecmd), (0x020#14, s.regs.einfo),
                (0x024#14, BitVec.ofNat 32 s.heap.entries.length), (0x028#14, s.arena.root.setWidth 32),
                (0x02C#14, BitVec.ofNat 32 s.arena.nodes.length), (0x030#14, s.freq.total), (0x034#14, s.symcnt),
                (0x038#14,
                  BitVec.ofNat 32
                    (s.inp.rdCnt.toNat + 2 ^ 8 * s.inp.rdBuf.toNat + 2 ^ 16 * s.out.wrCnt.toNat
                      + 2 ^ 24 * s.out.wrAcc.toNat)),
                (0x03C#14, s.inp.rdBits), (0x040#14, s.out.wrBits) ] ∨
          (0x058 ≤ off.toNat ∧ off.toNat < 0x400 ∨ off = 0x17FC#14 ∨ off = 0x1FFC#14 ∨ 0x2800 ≤ off.toNat) ∧ word = 0 →
        step s = .next { s with ext := { s.ext with agenda := rest, hostReads := word :: s.ext.hostReads } }) ∧
      (off = 0x048#14 ∨
          s.stat.busy = true ∧
            off ∉ [0x000#14, 0x004#14, 0x008#14, 0x00C#14, 0x010#14, 0x044#14, 0x04C#14, 0x050#14, 0x054#14] ∧
            (off.toNat < 0x058 ∨ 0x400 ≤ off.toNat ∧ off.toNat < 0x2800 ∧ off ≠ 0x17FC#14 ∧ off ≠ 0x1FFC#14) →
        step s =
          .next
            { s with
              ext :=
                { s.ext with
                  agenda := rest, hostReads := Config.freeRead s.ext.draws :: s.ext.hostReads, draws := s.ext.draws + 1 } })

/-- While BUSY = 0 the windows show the tables: FREQ[s], CODE_LEN[s] and CODE_BITS[s]; NODE[i] with bit 31 = 1 for an
allocated node, bit 30 = LEAF, and SYM in bits 7:0 or LEFT in bits 17:9 and RIGHT in bits 8:0; NODE_PRIO[i], 0 for a leaf
(the model's reading, assumption 10); HEAP_PRIO[i], and HEAP_PAY[i] with C in bit 9 and PAY in bits 8:0; and 0 for a node or
an entry that does not exist (20_memory.md R63, R64). The access is the head of the agenda (the model's form, assumption
3). -/
def Obligations.WindowsShowTheTables : Prop :=
  ∀ (s : State) (off : BitVec 14) (rest : List Turn) (word : Word),
    s.ext.resetIn = false → s.ext.agenda = .read 32 off :: rest → s.stat.busy = false →
      ((∃ u : Byte,
          off.toNat = 0x400 + 4 * u.toNat ∧ word = symGet s.freq.count u ∨
            off.toNat = 0x800 + 4 * u.toNat ∧ word = (symGet s.codes.len u).setWidth 32 ∨
            off.toNat = 0xC00 + 4 * u.toNat ∧ word = symGet s.codes.bits u) ∨
        (∃ n : NodeIdx, n.toNat ≤ 510 ∧ off.toNat = 0x1000 + 4 * n.toNat ∧
          ((∃ v, nodeAt s.arena.nodes n = some (.leaf v) ∧ word = BitVec.ofNat 32 (2 ^ 31 + 2 ^ 30 + v.toNat)) ∨
            (∃ a b p, nodeAt s.arena.nodes n = some (.internal a b p) ∧
              word = BitVec.ofNat 32 (2 ^ 31 + 2 ^ 9 * a.toNat + b.toNat)) ∨
            s.arena.nodes.length ≤ n.toNat ∧ word = 0)) ∨
        (∃ n : NodeIdx, n.toNat ≤ 510 ∧ off.toNat = 0x1800 + 4 * n.toNat ∧
          ((∃ v, nodeAt s.arena.nodes n = some (.leaf v) ∧ word = 0) ∨
            (∃ a b p, nodeAt s.arena.nodes n = some (.internal a b p) ∧ word = p) ∨
            s.arena.nodes.length ≤ n.toNat ∧ word = 0)) ∨
        ∃ i : Byte,
          (∃ e, s.heap.entries[i.toNat]? = some e ∧
            (off.toNat = 0x2000 + 4 * i.toNat ∧ word = e.prio.setWidth 32 ∨
              off.toNat = 0x2400 + 4 * i.toNat ∧ word = BitVec.ofNat 32 (2 ^ 9 * e.comp.toNat + e.pay.toNat))) ∨
            s.heap.entries.length ≤ i.toNat ∧ (off.toNat = 0x2000 + 4 * i.toNat ∨ off.toNat = 0x2400 + 4 * i.toNat) ∧
              word = 0) →
        step s = .next { s with ext := { s.ext with agenda := rest, hostReads := word :: s.ext.hostReads } }

/-- A host access that is not 32 bits wide or not at a multiple of 4 is refused; a write to an unmapped offset or to a
read-only register or window is ignored, with no status change (20_memory.md R61, R62). The refusal is the model's
(assumption 12), the access the head of the agenda (assumption 3). -/
def Obligations.IllegalAccessRefusedAndStrayWriteIgnored : Prop :=
  ∀ (s : State) (width : Nat) (off : BitVec 14) (v : Word) (rest : List Turn),
    ((width ≠ 32 ∨ off.toNat % 4 ≠ 0) →
      (s.ext.agenda = .read width off :: rest → step s = .refused .protocolViolation) ∧
        (s.ext.agenda = .write width off v :: rest → step s = .refused .protocolViolation)) ∧
    (s.ext.resetIn = false → s.ext.agenda = .write 32 off v :: rest → off.toNat % 4 = 0 →
      off ≠ 0x004#14 → off ≠ 0x008#14 → off ≠ 0x00C#14 → off ≠ 0x010#14 → off ≠ 0x048#14 →
        step s = .next { s with ext := { s.ext with agenda := rest } })

/-- IRQ is CTRL.IE AND STATUS.DONE (10_state.md R41); STATUS reads BUSY, DONE, ERR, HOLD, ECODE, PARTIAL, CMDOVR, IN_OVF,
HEAP_ALLOC, TREE_VALID, CODES_VALID, IN_EOS and IN_EXH in bits 0, 1, 2, 3, 7:4, 8, 9, ..., 15 and 0 above (10_state.md R23);
and the error codes have the numbers of 60_exceptions.md R222. -/
def Obligations.StatusWordAndInterruptLine : Prop :=
  ∀ s : State,
    irq s = (s.stat.ie && s.stat.done) ∧
      (statusWord (held s) s).getLsbD 0 = s.stat.busy ∧ (statusWord (held s) s).getLsbD 1 = s.stat.done ∧
      (statusWord (held s) s).getLsbD 2 = s.stat.err ∧ (statusWord (held s) s).getLsbD 3 = held s ∧
      (statusWord (held s) s).extractLsb' 4 4 = s.stat.ecode.number ∧
      (statusWord (held s) s).getLsbD 8 = s.stat.partialCode ∧ (statusWord (held s) s).getLsbD 9 = s.stat.cmdOvr ∧
      (statusWord (held s) s).getLsbD 10 = s.stat.inOvf ∧ (statusWord (held s) s).getLsbD 11 = s.heap.alloc ∧
      (statusWord (held s) s).getLsbD 12 = s.arena.valid ∧ (statusWord (held s) s).getLsbD 13 = s.codes.valid ∧
      (statusWord (held s) s).getLsbD 14 = s.inp.eos ∧ (statusWord (held s) s).getLsbD 15 = inExhausted s.inp ∧
      (statusWord (held s) s).extractLsb' 16 16 = 0#16 ∧
      ErrCode.none.number = 0#4 ∧ ErrCode.illegal.number = 1#4 ∧ ErrCode.null.number = 2#4 ∧ ErrCode.state.number = 3#4 ∧
      ErrCode.arg.number = 4#4 ∧ ErrCode.heapEmpty.number = 5#4 ∧ ErrCode.capacity.number = 6#4 ∧
      ErrCode.corrupt.number = 7#4 ∧ ErrCode.degenerate.number = 8#4 ∧ ErrCode.noCode.number = 9#4 ∧
      ErrCode.abort.number = 10#4
end

