-- ==== Sys2Proof/Laws/Bits.lean ====
section
/-! SUPPORT. Bit strings in stream order (20_memory.md R72, R74, R75): shifting a bit in, listing the bits of a value, the
number of a list of bits; and runs of one command put together. -/

namespace Sys2Proof.Machine

theorem getLsbD_shiftIn {w : Nat} (v : BitVec w) (b : Bool) (i : Nat) (hi : i < w) :
    (shiftIn v b).getLsbD i = if i = 0 then b else v.getLsbD (i - 1) := by
  simp only [shiftIn, BitVec.getLsbD_or, BitVec.getLsbD_shiftLeft, BitVec.getLsbD_setWidth, BitVec.getLsbD_ofBool]
  rcases i with _ | i <;> simp [hi]

/-- A shift in that does not drop a bit. -/
theorem shiftIn_toNat {w : Nat} (v : BitVec w) (b : Bool) (h : 2 * v.toNat + b.toNat < 2 ^ w) :
    (shiftIn v b).toNat = 2 * v.toNat + b.toNat := by
  have h0 : 2 * v.toNat < 2 ^ w := by omega
  rcases Nat.eq_zero_or_pos w with rfl | hw
  · have h1 : (shiftIn v b).toNat < 2 ^ 0 := (shiftIn v b).isLt
    have h2 : v.toNat < 2 ^ 0 := v.isLt
    omega
  have hb : (BitVec.setWidth w (BitVec.ofBool b)).toNat = b.toNat := by
    simpa using Nat.mod_eq_of_lt (lt_of_le_of_lt (Bool.toNat_le b) (Nat.one_lt_two_pow hw.ne'))
  have hor := Nat.two_pow_add_eq_or_of_lt (i := 1) (b := b.toNat) (by cases b <;> simp) v.toNat
  rw [pow_one] at hor
  rw [shiftIn, BitVec.toNat_or, BitVec.toNat_shiftLeft, Nat.shiftLeft_eq, pow_one, Nat.mul_comm, Nat.mod_eq_of_lt h0, hb]
  exact hor.symm

@[simp] theorem bitsOf_length {w : Nat} : ∀ (n : Nat) (v : BitVec w), (bitsOf n v).length = n
  | 0, _ => rfl
  | n + 1, v => by simp [bitsOf, bitsOf_length n v]

theorem bitsOf_shiftIn {w : Nat} (v : BitVec w) (b : Bool) : ∀ j, j + 1 ≤ w → bitsOf (j + 1) (shiftIn v b) = bitsOf j v ++ [b]
  | 0, h => by simp [bitsOf, getLsbD_shiftIn v b 0 h]
  | j + 1, h => by
    rw [bitsOf, bitsOf_shiftIn v b j (by omega), getLsbD_shiftIn v b _ (by omega)]
    simp [bitsOf]

theorem ofBits_append {w : Nat} (bs : List Bool) (b : Bool) : (ofBits (bs ++ [b]) : BitVec w) = shiftIn (ofBits bs) b := by
  simp [ofBits, List.foldl_append]

/-- Bits shifted in above stay above. -/
theorem getLsbD_foldl_shiftIn {w : Nat} : ∀ (l : List Bool) (acc : BitVec w) (i : Nat), l.length + i < w →
    (l.foldl shiftIn acc).getLsbD (l.length + i) = acc.getLsbD i
  | [], acc, i, _ => by simp
  | b :: l, acc, i, h => by
    rw [List.foldl_cons, List.length_cons, show l.length + 1 + i = l.length + (i + 1) by omega,
      getLsbD_foldl_shiftIn l _ _ (by simpa [Nat.add_comm, Nat.add_left_comm] using h),
      getLsbD_shiftIn _ _ _ (by simp at h; omega)]
    simp

/-- The low bits of a value, read back, are the value's bits. -/
theorem getLsbD_ofBits_bitsOf {w : Nat} (v : BitVec w) : ∀ n, n ≤ w → ∀ j, j < n → ∀ acc : BitVec w,
    ((bitsOf n v).foldl shiftIn acc).getLsbD j = v.getLsbD j
  | n + 1, hn, j, hj, acc => by
    rw [bitsOf, List.foldl_cons]
    by_cases h : j < n
    · exact getLsbD_ofBits_bitsOf v n (by omega) j h _
    · have e : j = n := by omega
      subst e
      have := getLsbD_foldl_shiftIn (bitsOf j v) (shiftIn acc (v.getLsbD j)) 0 (by simpa using hn)
      rw [bitsOf_length, Nat.add_zero] at this
      rw [this, getLsbD_shiftIn _ _ _ (by omega)]
      simp

theorem ofBits_bitsOf {w : Nat} (v : BitVec w) : (ofBits (bitsOf w v) : BitVec w) = v :=
  BitVec.eq_of_getLsbD_eq fun i hi => getLsbD_ofBits_bitsOf v w le_rfl i hi 0

@[simp] theorem bytesBits_nil : bytesBits [] = [] := rfl

@[simp] theorem bytesBits_cons (b : Byte) (l : List Byte) : bytesBits (b :: l) = bitsOf 8 b ++ bytesBits l := rfl

theorem bytesBits_append (l m : List Byte) : bytesBits (l ++ m) = bytesBits l ++ bytesBits m := by
  simp [bytesBits]

/-! ## Runs of one command -/

theorem runUnits_add (i : Instr) (a b : Nat) {s t : State} (h : runUnits i a s = .next t) :
    runUnits i (a + b) s = runUnits i b t := by
  induction a generalizing s with
  | zero =>
    cases h
    rw [Nat.zero_add]
  | succ a ih =>
    rw [Nat.succ_add]
    rw [runUnits] at h ⊢
    split at h
    · exact ih h
    · cases h
    · cases h

theorem runUnits_one {i : Instr} {s t : State} (h : exec i s = .next t) : runUnits i 1 s = .next t := by
  simp [runUnits, h]

theorem runUnits_succ {i : Instr} {n : Nat} {s t u : State} (h : exec i s = .next t) (k : runUnits i n t = .next u) :
    runUnits i (n + 1) s = .next u := by
  rw [Nat.add_comm, runUnits_add i 1 n (runUnits_one h), k]

end Sys2Proof.Machine
end

