-- ==== Sys2Proof/Laws/Heap.lean ====
section
/-! SUPPORT. The heap procedures (40_heap.md R121, R123) only move entries: what they put in and take out, and sizes. -/

namespace Sys2Proof.Machine

/-- Two entries of a list exchanged: a permutation. -/
theorem swap_perm {α : Type} {l : List α} {i j : Nat} {a b : α} (ha : l[i]? = some a) (hb : l[j]? = some b) :
    ((l.set i b).set j a).Perm l := by
  obtain ⟨hi, rfl⟩ := List.getElem?_eq_some_iff.1 ha
  obtain ⟨hj, rfl⟩ := List.getElem?_eq_some_iff.1 hb
  exact List.set_set_perm hi hj

theorem siftUp_perm : ∀ (fuel i : Nat) (h : List HeapEntry), (siftUp fuel i h).Perm h
  | 0, _, _ => .refl _
  | fuel + 1, i, h => by
    unfold siftUp
    split
    · exact .refl _
    · split
      · split
        · exact (siftUp_perm fuel _ _).trans (swap_perm ‹_› ‹_›)
        · exact .refl _
      · exact .refl _

theorem siftDown_perm : ∀ (fuel i : Nat) (h : List HeapEntry), (siftDown fuel i h).Perm h
  | 0, _, _ => .refl _
  | fuel + 1, i, h => by
    unfold siftDown
    split
    · split
      · exact (siftDown_perm fuel _ _).trans (swap_perm ‹_› ‹_›)
      · exact .refl _
    · exact .refl _

theorem heapInsert_perm (h : List HeapEntry) (e : HeapEntry) : (heapInsert h e).Perm (e :: h) :=
  (siftUp_perm _ _ _).trans (List.perm_append_singleton e h)

@[simp] theorem heapInsert_length (h : List HeapEntry) (e : HeapEntry) : (heapInsert h e).length = h.length + 1 :=
  (heapInsert_perm h e).length_eq

theorem heapExtract_eq_none (h : List HeapEntry) : heapExtract h = none ↔ h = [] := by
  unfold heapExtract
  split
  · simp
  · split <;> simp_all

/-- The root and the rest: what HeapExtract answers on a heap of at least one entry (40_heap.md R123). -/
theorem heapExtract_cons (top : HeapEntry) (rest : List HeapEntry) :
    heapExtract (top :: rest) =
      some (top, siftDown (rest.length + 1) 0
        ((top :: rest).dropLast.set 0 ((top :: rest).getLast (List.cons_ne_nil _ _)))) := by
  simp only [heapExtract, List.getLast?_eq_some_getLast (List.cons_ne_nil top rest), List.length_cons]

theorem heapExtract_perm {h h' : List HeapEntry} {e : HeapEntry} (x : heapExtract h = some (e, h')) : (e :: h').Perm h := by
  cases h with
  | nil => cases x
  | cons top rest =>
    rw [heapExtract_cons] at x
    cases x
    refine ((siftDown_perm _ _ _).cons _).trans (List.Perm.cons _ ?_)
    cases rest with
    | nil => simp
    | cons y ys =>
      simp only [List.dropLast_cons_cons, List.set_cons_zero, List.getLast_cons (List.cons_ne_nil y ys)]
      refine (List.perm_append_singleton _ _).symm.trans ?_
      rw [List.dropLast_append_getLast]

theorem heapExtract_length {h h' : List HeapEntry} {e : HeapEntry} (x : heapExtract h = some (e, h')) :
    h.length = h'.length + 1 :=
  (heapExtract_perm x).length_eq.symm

/-- A heap that is not empty gives an entry. -/
theorem heapExtract_isSome {h : List HeapEntry} (x : h ≠ []) : ∃ e h', heapExtract h = some (e, h') := by
  cases y : heapExtract h with
  | none => exact absurd ((heapExtract_eq_none h).1 y) x
  | some p => exact ⟨p.1, p.2, rfl⟩

end Sys2Proof.Machine
end

