-- ==== Sys2Proof/Laws/PerInstr.lean ====
section
/-! SUPPORT. Statements made once per command: `RowMatch`, that the word of the command lies in the row of the opcode map
that carries its mnemonic (30_encoding.md R107, R108). -/

namespace Sys2Proof.Laws.RowMatch

open Sys2Proof Sys2Proof.Machine

/-- The opcode map has a row with the mnemonic of `i`, and the word of `i` agrees with that row's match under its mask. -/
def Statement (i : Instr) : Prop :=
  ∃ row ∈ opcodeRows, row.name = mnemonicOf i ∧ encode i &&& row.mask = row.matchWord

theorem ofRow (n : Nat) (row : OpcodeRow) (i : Instr) (hn : opcodeRows[n]? = some row) (hm : row.name = mnemonicOf i)
    (hw : encode i &&& row.mask = row.matchWord) : Statement i :=
  ⟨row, List.mem_of_getElem? hn, hm, hw⟩

theorem nop : Statement .nop := ofRow 0 _ _ rfl rfl (by decide)
theorem heapCreate : Statement .heapCreate := ofRow 1 _ _ rfl rfl (by decide)
theorem heapDestroy : Statement .heapDestroy := ofRow 2 _ _ rfl rfl (by decide)
theorem heapAdd (c : Bool) (pay : NodeIdx) : Statement (.heapAdd c pay) := by
  refine ofRow 3 _ _ rfl rfl (BitVec.eq_of_getLsbD_eq fun i hi => ?_)
  simp only [encode, encodeFH, BitVec.getLsbD_and, BitVec.getLsbD_append]
  by_cases h : i < 9
  · interval_cases i <;> simp
  · rcases Nat.eq_or_lt_of_le (Nat.le_of_not_lt h) with h | h
    · subst h; simp
    · interval_cases i <;> simp
theorem heapRemove : Statement .heapRemove := ofRow 4 _ _ rfl rfl (by decide)
theorem heapSize : Statement .heapSize := ofRow 5 _ _ rfl rfl (by decide)
theorem freqClear : Statement .freqClear := ofRow 6 _ _ rfl rfl (by decide)
theorem freqCount : Statement .freqCount := ofRow 7 _ _ rfl rfl (by decide)
theorem buildTree : Statement .buildTree := ofRow 8 _ _ rfl rfl (by decide)
theorem treeClear : Statement .treeClear := ofRow 9 _ _ rfl rfl (by decide)
theorem buildCodes : Statement .buildCodes := ofRow 10 _ _ rfl rfl (by decide)
theorem serializeTree : Statement .serializeTree := ofRow 11 _ _ rfl rfl (by decide)
theorem deserializeTree : Statement .deserializeTree := ofRow 12 _ _ rfl rfl (by decide)
theorem encodeSym (sym : Byte) : Statement (.encodeSym sym) := by
  refine ofRow 13 _ _ rfl rfl (BitVec.eq_of_getLsbD_eq fun i hi => ?_)
  simp only [encode, encodeFS, BitVec.getLsbD_and, BitVec.getLsbD_append]
  interval_cases i <;> simp
theorem encodeEos : Statement .encodeEos := ofRow 14 _ _ rfl rfl (by decide)
theorem decodeSym : Statement .decodeSym := ofRow 15 _ _ rfl rfl (by decide)
theorem decodeN : Statement .decodeN := ofRow 16 _ _ rfl rfl (by decide)
theorem decodeEos : Statement .decodeEos := ofRow 17 _ _ rfl rfl (by decide)
theorem putBits (n : BitVec 6) : Statement (.putBits n) := by
  refine ofRow 18 _ _ rfl rfl (BitVec.eq_of_getLsbD_eq fun i hi => ?_)
  simp only [encode, encodeFB, BitVec.getLsbD_and, BitVec.getLsbD_append]
  interval_cases i <;> simp
theorem getBits (n : BitVec 6) : Statement (.getBits n) := by
  refine ofRow 19 _ _ rfl rfl (BitVec.eq_of_getLsbD_eq fun i hi => ?_)
  simp only [encode, encodeFB, BitVec.getLsbD_and, BitVec.getLsbD_append]
  interval_cases i <;> simp
theorem flush : Statement .flush := ofRow 20 _ _ rfl rfl (by decide)
theorem streamReset (o i : Bool) : Statement (.streamReset o i) := by
  cases o <;> cases i <;> exact ofRow 21 _ _ rfl rfl (by decide)

end Sys2Proof.Laws.RowMatch
end

