-- ==== Sys2Proof/Laws/State.lean ====
section
/-! SUPPORT. One lemma per field for each named update of the whole state, true by rfl, so that no later proof unfolds a
record update. -/

namespace Sys2Proof.Machine

section Complete
variable (s : State)

@[simp] theorem complete_regs : (complete s).regs = s.regs := rfl
@[simp] theorem complete_stat : (complete s).stat = { s.stat with busy := false, done := true } := rfl
@[simp] theorem complete_heap : (complete s).heap = s.heap := rfl
@[simp] theorem complete_arena : (complete s).arena = s.arena := rfl
@[simp] theorem complete_freq : (complete s).freq = s.freq := rfl
@[simp] theorem complete_codes : (complete s).codes = s.codes := rfl
@[simp] theorem complete_inp : (complete s).inp = s.inp := rfl
@[simp] theorem complete_out : (complete s).out = s.out := rfl
@[simp] theorem complete_cont : (complete s).cont = .idle := rfl
@[simp] theorem complete_symcnt : (complete s).symcnt = s.symcnt := rfl
@[simp] theorem complete_ext : (complete s).ext = s.ext := rfl

end Complete

section Raise
variable (e : ErrCode) (info : Word) (s : State)

@[simp] theorem raise_regs : (raise e info s).regs = { s.regs with ecmd := s.regs.curCmd, einfo := info } := rfl
@[simp] theorem raise_stat :
    (raise e info s).stat = { s.stat with busy := false, done := true, err := true, ecode := e } := rfl
@[simp] theorem raise_heap : (raise e info s).heap = s.heap := rfl
@[simp] theorem raise_arena : (raise e info s).arena = s.arena := rfl
@[simp] theorem raise_freq : (raise e info s).freq = s.freq := rfl
@[simp] theorem raise_codes : (raise e info s).codes = s.codes := rfl
@[simp] theorem raise_inp : (raise e info s).inp = s.inp := rfl
@[simp] theorem raise_out : (raise e info s).out = s.out := rfl
@[simp] theorem raise_cont : (raise e info s).cont = .idle := rfl
@[simp] theorem raise_symcnt : (raise e info s).symcnt = s.symcnt := rfl
@[simp] theorem raise_ext : (raise e info s).ext = s.ext := rfl

end Raise

section Accept
variable (w : Word) (s : State)

@[simp] theorem accept_regs : (accept w s).regs = { s.regs with curCmd := w } := rfl
@[simp] theorem accept_heap : (accept w s).heap = s.heap := rfl
@[simp] theorem accept_arena : (accept w s).arena = s.arena := rfl
@[simp] theorem accept_freq : (accept w s).freq = s.freq := rfl
@[simp] theorem accept_codes : (accept w s).codes = s.codes := rfl
@[simp] theorem accept_inp : (accept w s).inp = s.inp := rfl
@[simp] theorem accept_out : (accept w s).out = s.out := rfl
@[simp] theorem accept_cont : (accept w s).cont = .start := rfl
@[simp] theorem accept_symcnt : (accept w s).symcnt = s.symcnt := rfl
@[simp] theorem accept_ext : (accept w s).ext = s.ext := rfl

end Accept

section Written
variable (s : State)

/-- Counting a written symbol changes SYMCNT only. -/
theorem countWritten_eq : countWritten s = { s with symcnt := (countWritten s).symcnt } := by
  unfold countWritten
  split <;> rfl

@[simp] theorem countWritten_regs : (countWritten s).regs = s.regs := by rw [countWritten_eq]
@[simp] theorem countWritten_stat : (countWritten s).stat = s.stat := by rw [countWritten_eq]
@[simp] theorem countWritten_heap : (countWritten s).heap = s.heap := by rw [countWritten_eq]
@[simp] theorem countWritten_arena : (countWritten s).arena = s.arena := by rw [countWritten_eq]
@[simp] theorem countWritten_freq : (countWritten s).freq = s.freq := by rw [countWritten_eq]
@[simp] theorem countWritten_codes : (countWritten s).codes = s.codes := by rw [countWritten_eq]
@[simp] theorem countWritten_inp : (countWritten s).inp = s.inp := by rw [countWritten_eq]
@[simp] theorem countWritten_out : (countWritten s).out = s.out := by rw [countWritten_eq]
@[simp] theorem countWritten_cont : (countWritten s).cont = s.cont := by rw [countWritten_eq]
@[simp] theorem countWritten_ext : (countWritten s).ext = s.ext := by rw [countWritten_eq]

end Written

section WriteArg
variable (v : Word) (s : State)

@[simp] theorem writeArg_regs : (writeArg v s).regs = { s.regs with arg0 := v } := rfl
@[simp] theorem writeArg_cont : (writeArg v s).cont = if heldAtCount s then .heldStart else s.cont := rfl
@[simp] theorem writeArg_stat : (writeArg v s).stat = s.stat := rfl
@[simp] theorem writeArg_heap : (writeArg v s).heap = s.heap := rfl
@[simp] theorem writeArg_arena : (writeArg v s).arena = s.arena := rfl
@[simp] theorem writeArg_freq : (writeArg v s).freq = s.freq := rfl
@[simp] theorem writeArg_codes : (writeArg v s).codes = s.codes := rfl
@[simp] theorem writeArg_inp : (writeArg v s).inp = s.inp := rfl
@[simp] theorem writeArg_out : (writeArg v s).out = s.out := rfl
@[simp] theorem writeArg_symcnt : (writeArg v s).symcnt = s.symcnt := rfl
@[simp] theorem writeArg_ext : (writeArg v s).ext = s.ext := rfl

end WriteArg

section Release
variable (s : State)

@[simp] theorem releaseNone_eq : releaseNone s = s := rfl
@[simp] theorem releaseFreq_eq : releaseFreq s = { s with freq := FreqTable.zero } := rfl
@[simp] theorem releaseArena_eq : releaseArena s = { s with arena := Arena.empty } := rfl
@[simp] theorem releaseBuild_eq :
    releaseBuild s = { s with arena := Arena.empty, heap := { alloc := false, entries := [] } } := rfl
@[simp] theorem releaseCodes_eq : releaseCodes s = { s with codes := CodeTable.zero } := rfl

end Release

section Agenda
variable (a : List Turn) (s : State)

@[simp] theorem withAgenda_regs : (withAgenda a s).regs = s.regs := rfl
@[simp] theorem withAgenda_stat : (withAgenda a s).stat = s.stat := rfl
@[simp] theorem withAgenda_heap : (withAgenda a s).heap = s.heap := rfl
@[simp] theorem withAgenda_arena : (withAgenda a s).arena = s.arena := rfl
@[simp] theorem withAgenda_freq : (withAgenda a s).freq = s.freq := rfl
@[simp] theorem withAgenda_codes : (withAgenda a s).codes = s.codes := rfl
@[simp] theorem withAgenda_inp : (withAgenda a s).inp = s.inp := rfl
@[simp] theorem withAgenda_out : (withAgenda a s).out = s.out := rfl
@[simp] theorem withAgenda_cont : (withAgenda a s).cont = s.cont := rfl
@[simp] theorem withAgenda_symcnt : (withAgenda a s).symcnt = s.symcnt := rfl
@[simp] theorem withAgenda_ext : (withAgenda a s).ext = { s.ext with agenda := a } := rfl

end Agenda

section Reset
variable (s : State)

@[simp] theorem resetBlock_ext : (resetBlock s).ext = s.ext := rfl
@[simp] theorem resetBlock_stat : (resetBlock s).stat = State.reset.stat := rfl
@[simp] theorem resetBlock_heap : (resetBlock s).heap = { alloc := false, entries := [] } := rfl
@[simp] theorem resetBlock_arena : (resetBlock s).arena = Arena.empty := rfl
@[simp] theorem resetBlock_freq : (resetBlock s).freq = FreqTable.zero := rfl
@[simp] theorem resetBlock_codes : (resetBlock s).codes = CodeTable.zero := rfl
@[simp] theorem resetBlock_inp : (resetBlock s).inp = BitReader.empty := rfl
@[simp] theorem resetBlock_out : (resetBlock s).out = BitWriter.empty := rfl
@[simp] theorem resetBlock_cont : (resetBlock s).cont = .idle := rfl

end Reset

section ResetPin
variable (b : Bool) (s : State)

@[simp] theorem setResetPin_true : setResetPin true s = resetBlock { s with ext := { s.ext with resetIn := true } } := rfl
@[simp] theorem setResetPin_false : setResetPin false s = { s with ext := { s.ext with resetIn := false } } := rfl
@[simp] theorem setResetPin_ext : (setResetPin b s).ext = { s.ext with resetIn := b } := by cases b <;> rfl

end ResetPin

section Turn
variable {s : State}

theorem takeTurn_run (h : s.ext.resetIn = false) : takeTurn s = runTurn s := by simp [takeTurn, h]
theorem takeTurn_reset (h : s.ext.resetIn = true) : takeTurn s = resetTurn s := by simp [takeTurn, h]

end Turn

end Sys2Proof.Machine
end

