-- ==== Sys2Proof/Laws/Tables.lean ====
section
/-! SUPPORT. Reading a symbol table after a write; the tables at reset; the sum of the counts after one count. -/

namespace Sys2Proof.Machine

theorem symGet_symSet {α : Type} (t : SymTable α) (s u : Byte) (x : α) :
    symGet (symSet t s x) u = if s = u then x else symGet t u := by
  simp only [symGet, symSet, Vector.getElem_set, BitVec.toNat_inj]

@[simp] theorem symGet_symSet_same {α : Type} (t : SymTable α) (s : Byte) (x : α) : symGet (symSet t s x) s = x := by
  simp [symGet_symSet]

@[simp] theorem symGet_replicate {α : Type} (x : α) (s : Byte) : symGet (Vector.replicate 256 x) s = x := by
  simp [symGet]

@[simp] theorem freqSum_zero : freqSum FreqTable.zero.count = 0 := by
  have h : (Vector.replicate 256 (0 : Word)).toList = List.replicate 256 0 := Vector.toList_replicate
  rw [freqSum, FreqTable.zero, h, List.map_replicate, List.sum_replicate]
  rfl

theorem symGet_le_freqSum (f : SymTable Word) (v : Byte) : (symGet f v).toNat ≤ freqSum f := by
  refine List.single_le_sum (fun _ _ => Nat.zero_le _) _ ?_
  simp only [List.mem_map]
  exact ⟨_, by simp [symGet], rfl⟩

/-- One entry raised by one raises the sum by one, as long as the entry does not wrap. -/
theorem freqSum_symSet_succ (f : SymTable Word) (v : Byte) (h : (symGet f v).toNat + 1 < 2 ^ 32) :
    freqSum (symSet f v (symGet f v + 1)) = freqSum f + 1 := by
  have key : ∀ (l : List Word) (i : Nat) (hi : i < l.length), l[i].toNat + 1 < 2 ^ 32 →
      ((l.set i (l[i] + 1)).map BitVec.toNat).sum = (l.map BitVec.toNat).sum + 1 := by
    intro l
    induction l with
    | nil => intro i hi; simp at hi
    | cons x xs ih =>
      intro i hi hx
      cases i with
      | zero =>
        simp only [List.getElem_cons_zero] at hx
        simp only [List.getElem_cons_zero, List.set_cons_zero, List.map_cons, List.sum_cons, BitVec.toNat_add]
        rw [show BitVec.toNat (1 : Word) = 1 from rfl, Nat.mod_eq_of_lt hx]
        omega
      | succ j =>
        simp only [List.getElem_cons_succ] at hx
        simp only [List.getElem_cons_succ, List.set_cons_succ, List.map_cons, List.sum_cons]
        rw [ih j (by simpa using hi) hx]
        omega
  have := key f.toList v.toNat (by simpa using v.isLt) (by simpa [symGet] using h)
  rw [freqSum, symSet, Vector.toList_set]
  exact this

end Sys2Proof.Machine
end

