-- ==== Sys2Proof/Laws/Tree.lean ====
section
/-! SUPPORT. The node arena: reading a node after an allocation or an update, trees that do not meet the changed node, and
the end of the merge loop (41_tree_builder.md R140, R143). -/

namespace Sys2Proof.Machine

/-! ## Reading nodes -/

theorem nodeAt_lt {ns : List Node} {i : NodeIdx} {n : Node} (h : nodeAt ns i = some n) : i.toNat < ns.length :=
  (List.getElem?_eq_some_iff.1 h).1

/-- An allocation leaves the nodes before it. -/
theorem nodeAt_append {ns : List Node} {i : NodeIdx} {n : Node} (h : nodeAt ns i = some n) (l : List Node) :
    nodeAt (ns ++ l) i = some n := by
  rw [nodeAt, List.getElem?_append_left (nodeAt_lt h)]
  exact h

/-- The allocated node is where AllocNode says, as long as the arena is not full (41_tree_builder.md R140). -/
theorem nodeAt_allocNode {ns : List Node} (n : Node) (h : ns.length < 512) :
    nodeAt (allocNode ns n).2 (allocNode ns n).1 = some n := by
  simp [nodeAt, allocNode, Nat.mod_eq_of_lt h]

theorem nodeAt_set_self {ns : List Node} {i : NodeIdx} {n : Node} (h : i.toNat < ns.length) :
    nodeAt (ns.set i.toNat n) i = some n := by
  simp [nodeAt, h]

theorem nodeAt_set_ne {ns : List Node} {i j : NodeIdx} (n : Node) (h : i ≠ j) : nodeAt (ns.set i.toNat n) j = nodeAt ns j := by
  rw [nodeAt, List.getElem?_set_ne (fun e => h (BitVec.eq_of_toNat_eq e)), nodeAt]

theorem setChild_length (ns : List Node) (p : NodeIdx) (side : Side) (n : NodeIdx) :
    (setChild ns p side n).length = ns.length := by
  unfold setChild
  split
  · split <;> simp
  · rfl

/-- Setting a child of an internal node (43_tree_codec.md R172). -/
theorem setChild_left {ns : List Node} {p l r : NodeIdx} {prio : Word} (h : nodeAt ns p = some (.internal l r prio))
    (n : NodeIdx) : setChild ns p .left n = ns.set p.toNat (.internal n r prio) := by
  simp [setChild, h]

theorem setChild_right {ns : List Node} {p l r : NodeIdx} {prio : Word} (h : nodeAt ns p = some (.internal l r prio))
    (n : NodeIdx) : setChild ns p .right n = ns.set p.toNat (.internal l n prio) := by
  simp [setChild, h]

/-! ## Trees in the arena -/

/-- A tree is still there if its own nodes are. -/
theorem Holds.congr {ns ns' : List Node} : ∀ {t : CodeTree} {i : NodeIdx} {ix : List NodeIdx}, Holds ns t i ix →
    (∀ j ∈ ix, nodeAt ns' j = nodeAt ns j) → Holds ns' t i ix
  | .leaf sym, i, ix, ⟨h, e⟩, hs => ⟨by rw [hs i (by simp [e]), h], e⟩
  | .node l r, i, ix, ⟨a, b, p, xs, ys, h, hl, hr, e⟩, hs => by
    subst e
    exact ⟨a, b, p, xs, ys, by rw [hs i (by simp), h],
      hl.congr fun j hj => hs j (by simp [hj]), hr.congr fun j hj => hs j (by simp [hj]), rfl⟩

theorem HoldsWeighted.holds {f : SymTable Word} {ns : List Node} : ∀ {t : CodeTree} {i : NodeIdx} {ix : List NodeIdx},
    HoldsWeighted f ns t i ix → Holds ns t i ix
  | .leaf _, _, _, h => h
  | .node _ _, _, _, ⟨a, b, p, xs, ys, h, _, hl, hr, e⟩ => ⟨a, b, p, xs, ys, h, hl.holds, hr.holds, e⟩

theorem HoldsWeighted.congr {f : SymTable Word} {ns ns' : List Node} : ∀ {t : CodeTree} {i : NodeIdx} {ix : List NodeIdx},
    HoldsWeighted f ns t i ix → (∀ j ∈ ix, nodeAt ns' j = nodeAt ns j) → HoldsWeighted f ns' t i ix
  | .leaf sym, i, ix, ⟨h, e⟩, hs => ⟨by rw [hs i (by simp [e]), h], e⟩
  | .node l r, i, ix, ⟨a, b, p, xs, ys, h, w, hl, hr, e⟩, hs => by
    subst e
    exact ⟨a, b, p, xs, ys, by rw [hs i (by simp), h], w,
      hl.congr fun j hj => hs j (by simp [hj]), hr.congr fun j hj => hs j (by simp [hj]), rfl⟩

/-- The listed nodes of a tree are allocated. -/
theorem Holds.allocated {ns : List Node} : ∀ {t : CodeTree} {i : NodeIdx} {ix : List NodeIdx}, Holds ns t i ix →
    ∀ j ∈ ix, j.toNat < ns.length
  | .leaf _, _, _, ⟨h, e⟩, j, hj => by
    subst e
    rw [List.mem_singleton.1 hj]
    exact nodeAt_lt h
  | .node _ _, i, _, ⟨a, b, p, xs, ys, h, hl, hr, e⟩, j, hj => by
    subst e
    rcases List.mem_cons.1 hj with rfl | hj
    · exact nodeAt_lt h
    · rcases List.mem_append.1 hj with hj | hj
      · exact hl.allocated j hj
      · exact hr.allocated j hj

/-- A tree is still there after an allocation. -/
theorem Holds.append {ns : List Node} {t : CodeTree} {i : NodeIdx} {ix : List NodeIdx} (h : Holds ns t i ix) (l : List Node) :
    Holds (ns ++ l) t i ix :=
  h.congr fun j hj => by
    rw [nodeAt, List.getElem?_append_left (h.allocated j hj), nodeAt]

theorem Holds.length_eq {ns : List Node} : ∀ {t : CodeTree} {i : NodeIdx} {ix : List NodeIdx}, Holds ns t i ix → ix.length = t.size
  | .leaf _, _, _, ⟨_, e⟩ => by simp [e, CodeTree.size]
  | .node _ _, _, _, ⟨_, _, _, _, _, _, hl, hr, e⟩ => by
    simp [e, CodeTree.size, hl.length_eq, hr.length_eq]

theorem Holds.root_mem {ns : List Node} {t : CodeTree} {i : NodeIdx} {ix : List NodeIdx} (h : Holds ns t i ix) : i ∈ ix := by
  cases t with
  | leaf => simp [h.2]
  | node => obtain ⟨_, _, _, _, _, _, _, _, e⟩ := h; simp [e]

/-- The tree at a node is determined by the arena. -/
theorem Holds.unique {ns : List Node} : ∀ {t t' : CodeTree} {i : NodeIdx} {ix ix' : List NodeIdx}, Holds ns t i ix →
    Holds ns t' i ix' → t = t' ∧ ix = ix'
  | .leaf _, .leaf _, _, _, _, ⟨h, e⟩, ⟨h', e'⟩ => by
    rw [h] at h'
    cases h'
    exact ⟨rfl, e.trans e'.symm⟩
  | .leaf _, .node _ _, _, _, _, ⟨h, _⟩, ⟨_, _, _, _, _, h', _⟩ => by
    rw [h] at h'
    cases h'
  | .node _ _, .leaf _, _, _, _, ⟨_, _, _, _, _, h', _⟩, ⟨h, _⟩ => by
    rw [h] at h'
    cases h'
  | .node _ _, .node _ _, _, _, _, ⟨_, _, _, _, _, h, hl, hr, e⟩, ⟨_, _, _, _, _, h', hl', hr', e'⟩ => by
    rw [h] at h'
    cases h'
    obtain ⟨rfl, rfl⟩ := hl.unique hl'
    obtain ⟨rfl, rfl⟩ := hr.unique hr'
    exact ⟨rfl, e.trans e'.symm⟩

theorem CodeTree.size_pos (t : CodeTree) : 0 < t.size := by
  cases t <;> simp [CodeTree.size]

/-- A tree with L leaves has 2L − 1 nodes (41_tree_builder.md R149). -/
theorem CodeTree.size_leaves (t : CodeTree) : t.size + 1 = 2 * t.leaves.length := by
  induction t with
  | leaf => rfl
  | node l r hl hr => simp only [CodeTree.size, CodeTree.leaves, List.length_append]; omega

/-! ## The stack of DESERIALIZE_TREE (43_tree_codec.md R172) -/

/-- The nodes of the stack and of the subtrees it waits on are still there if they are unchanged. -/
theorem StackOk.congr {ns ns' : List Node} : ∀ {st : List Frame} {ix : List NodeIdx}, StackOk ns st ix →
    (∀ j ∈ ix, nodeAt ns' j = nodeAt ns j) → StackOk ns' st ix
  | [], _, h, _ => h
  | f :: st, ix, ⟨a, b, p, rest, h, hst, hix⟩, hs => by
    cases hf : f.side with
    | left =>
      simp only [hf] at hix
      subst hix
      exact ⟨a, b, p, rest, by rw [hs _ (by simp), h], StackOk.congr hst fun j hj => hs j (by simp [hj]), by rw [hf]⟩
    | right =>
      simp only [hf] at hix
      obtain ⟨t, xs, ht, rfl⟩ := hix
      exact ⟨a, b, p, rest, by rw [hs _ (by simp), h], StackOk.congr hst fun j hj => hs j (by simp [hj]),
        by rw [hf]; exact ⟨t, xs, ht.congr fun j hj => hs j (by simp [hj]), rfl⟩⟩

/-- The nodes of the stack are allocated. -/
theorem StackOk.allocated {ns : List Node} : ∀ {st : List Frame} {ix : List NodeIdx}, StackOk ns st ix →
    ∀ j ∈ ix, j.toNat < ns.length
  | [], _, h, j, hj => by
    simp only [StackOk] at h
    simp [h] at hj
  | f :: st, ix, ⟨a, b, p, rest, h, hst, hix⟩, j, hj => by
    cases hf : f.side with
    | left =>
      simp only [hf] at hix
      subst hix
      rcases List.mem_cons.1 hj with rfl | hj
      · exact nodeAt_lt h
      · exact StackOk.allocated hst j hj
    | right =>
      simp only [hf] at hix
      obtain ⟨t, xs, ht, rfl⟩ := hix
      rcases List.mem_cons.1 hj with rfl | hj
      · exact nodeAt_lt h
      · rcases List.mem_append.1 hj with hj | hj
        · exact ht.allocated j hj
        · exact StackOk.allocated hst j hj

/-! ## The merge loop ends -/

theorem mergeAll_ends_of : ∀ (fuel : Nat) (h : List HeapEntry) (ns : List Node), h.length < fuel →
    mergeAll fuel h ns ≠ .unfinished
  | 0, _, _, hf => by omega
  | fuel + 1, h, ns, hf => by
    unfold mergeAll
    split
    · simp
    · rename_i e1 h1 x1
      split
      · simp
      · rename_i e2 h2 x2
        have l1 := heapExtract_length x1
        have l2 := heapExtract_length x2
        split
        · simp
        · exact mergeAll_ends_of fuel _ _ (by rw [heapInsert_length]; omega)

theorem foldl_heapInsert_perm : ∀ (l h : List HeapEntry), (l.foldl heapInsert h).Perm (l ++ h)
  | [], _ => .refl _
  | e :: l, h => (foldl_heapInsert_perm l _).trans
      (((heapInsert_perm h e).append_left l).trans List.perm_middle)

theorem leafEntries_length (f : SymTable Word) : (leafEntries f).length ≤ Config.heapCap :=
  (List.length_filterMap_le _ _).trans (by simp)

/-- BUILD_TREE always ends: its loop bound is never reached (41_tree_builder.md R143; assumption 11). -/
theorem mergeAll_ends (f : SymTable Word) : huffmanMerge f ≠ .unfinished := by
  refine mergeAll_ends_of _ _ _ ?_
  rw [(foldl_heapInsert_perm _ _).length_eq, List.append_nil]
  exact Nat.lt_succ_of_le (leafEntries_length f)

end Sys2Proof.Machine
end

