-- ==== Sys2Proof/Laws/Unit.lean ====
section
/-! SUPPORT. What one unit step can do (20_memory.md R91), said once: the cases of a step that goes on, and what every step
keeps if the work of its command keeps it. -/

namespace Sys2Proof.Machine

/-- `w` carries the state `t`: the non-bit work leads to `t`. -/
def Work.carries : Work → State → Prop
  | .finish u, t | .fail _ _ u, t | .read u _, t | .write _ u _, t => u = t
  | .broken _, _ => False

/-- Everything a unit step that answers a next state can be. -/
theorem unitStep_cases {rel : State → State} {work : State → Work} {s t : State} (h : unitStep rel work s = .next t) :
    (s.stat.abortReq = true ∧ t = raise .abort 0 (if s.cont = .start then s else rel s)) ∨
      s.stat.abortReq = false ∧
        ((work s).blocked = true ∧ t = s ∨
          (∃ u, work s = .finish u ∧ t = complete u) ∨
          (∃ e info u, work s = .fail e info u ∧ t = raise e info u) ∨
          (∃ u k, work s = .read u k ∧ readBit u.inp = .exh ∧ t = { u with cont := k .exh }) ∨
          (∃ u k b r, work s = .read u k ∧ readBit u.inp = .bit b r ∧ t = { u with inp := r, cont := k (.bit b) }) ∨
          ∃ b u c w, work s = .write b u c ∧ writeBit u.ext.params.outCap b u.out = some w ∧
            t = { u with out := w, cont := c }) := by
  unfold unitStep at h
  cases ha : s.stat.abortReq <;> simp only [ha, if_true, Bool.false_eq_true, if_false] at h
  case true => cases h; exact .inl ⟨rfl, rfl⟩
  case false =>
    refine .inr ⟨rfl, ?_⟩
    split at h
    · cases h; exact .inr (.inl ⟨_, ‹_›, rfl⟩)
    · cases h; exact .inr (.inr (.inl ⟨_, _, _, ‹_›, rfl⟩))
    · split at h
      · cases h; exact .inl ⟨by simp [Work.blocked, *], rfl⟩
      · cases h; exact .inr (.inr (.inr (.inl ⟨_, _, ‹_›, ‹_›, rfl⟩)))
      · cases h; exact .inr (.inr (.inr (.inr (.inl ⟨_, _, _, _, ‹_›, ‹_›, rfl⟩))))
    · split at h
      · cases h; exact .inl ⟨by simp [Work.blocked, *], rfl⟩
      · cases h; exact .inr (.inr (.inr (.inr (.inr ⟨_, _, _, _, ‹_›, ‹_›, rfl⟩))))
    · cases h

/-- A unit step whose bit operation cannot proceed leaves the state as it is (20_memory.md R78). -/
theorem unitStep_blocked {rel : State → State} {work : State → Work} {s : State} (ha : s.stat.abortReq = false)
    (h : (work s).blocked = true) : unitStep rel work s = .next s := by
  unfold unitStep
  simp only [ha]
  cases hw : work s <;> simp_all [Work.blocked]

/-- A property that completion, errors and moves of the two cursors keep, that the release rule keeps and that the work of
the command keeps, is kept by the unit step. -/
theorem unitStep_keeps {rel : State → State} {work : State → Work} {s t : State} (P : State → Prop) (hs : P s)
    (hc : ∀ u, P u → P (complete u)) (hr : ∀ e info u, P u → P (raise e info u)) (hrel : P (rel s))
    (hread : ∀ u k b r, work s = .read u k → P u → readBit u.inp = .bit b r → P { u with inp := r, cont := k (.bit b) })
    (hexh : ∀ u k, work s = .read u k → P u → readBit u.inp = .exh → P { u with cont := k .exh })
    (hwrite : ∀ b u c w, work s = .write b u c → P u → writeBit u.ext.params.outCap b u.out = some w →
      P { u with out := w, cont := c })
    (hw : ∀ u, (work s).carries u → P u) (h : unitStep rel work s = .next t) : P t := by
  rcases unitStep_cases h with ⟨_, rfl⟩ | ⟨_, ⟨_, rfl⟩ | ⟨u, e, rfl⟩ | ⟨_, _, u, e, rfl⟩ | ⟨u, k, e, hb, rfl⟩ |
    ⟨u, k, b, r, e, hb, rfl⟩ | ⟨b, u, c, w, e, hb, rfl⟩⟩
  · exact hr _ _ _ (by split <;> assumption)
  · exact hs
  · exact hc _ (hw _ (by simp [Work.carries, e]))
  · exact hr _ _ _ (hw _ (by simp [Work.carries, e]))
  · exact hexh _ _ e (hw _ (by simp [Work.carries, e])) hb
  · exact hread _ _ _ _ e (hw _ (by simp [Work.carries, e])) hb
  · exact hwrite _ _ _ _ e (hw _ (by simp [Work.carries, e])) hb

end Sys2Proof.Machine
end

