-- ==== Sys2Proof/Laws/Work.lean ====
section
/-! SUPPORT. Every command is a unit step of its work under its release rule, and what the work of a command that ends a
subtree or visits a node can lead to; what a held step does, and that STATUS.HOLD does not depend on the agenda. -/

namespace Sys2Proof.Machine

/-- The release rule of each command: only four have one (41_tree_builder.md R142, R143; 42_code_table.md R160;
43_tree_codec.md R172); those that write symbols count them (60_exceptions.md R224). -/
def releaseOf : Instr → State → State
  | .freqCount => releaseFreq
  | .buildTree => releaseBuild
  | .buildCodes => releaseCodes
  | .deserializeTree => releaseArena
  | .encodeSym _ | .encodeEos | .decodeN | .decodeEos => countWritten
  | .nop | .heapCreate | .heapDestroy | .heapAdd _ _ | .heapRemove | .heapSize | .freqClear | .treeClear
  | .serializeTree | .decodeSym | .putBits _ | .getBits _ | .flush | .streamReset _ _ => releaseNone

theorem exec_eq_unitStep (i : Instr) (s : State) : exec i s = unitStep (releaseOf i) (workOf i) s := by cases i <;> rfl

/-- A release rule changes only the structures it empties, or SYMCNT. -/
theorem releaseOf_keeps (i : Instr) (s : State) :
    (releaseOf i s).regs = s.regs ∧ (releaseOf i s).stat = s.stat ∧ (releaseOf i s).inp = s.inp ∧
      (releaseOf i s).out = s.out ∧ (releaseOf i s).cont = s.cont ∧ (releaseOf i s).ext = s.ext := by
  cases i <;> simp [releaseOf]

/-- Completing a subtree of DESERIALIZE_TREE changes only the arena (43_tree_codec.md R172). -/
theorem deliver_carries :
    ∀ (st : List Frame) (n : NodeIdx) (s u : State), (deliver n st s).carries u → u = { s with arena := u.arena }
  | [], n, s, u, h => by
    simp only [deliver, Work.carries] at h
    subst h; rfl
  | f :: st, n, s, u, h => by
    unfold deliver at h
    split at h
    · simp only [Work.carries] at h
      subst h; rfl
    · rw [deliver_carries st _ _ _ h]

/-- Completing a subtree of DESERIALIZE_TREE never fails, writes or breaks. -/
theorem deliver_ends : ∀ (st : List Frame) (n : NodeIdx) (s : State),
    (∃ u, deliver n st s = .finish u) ∨ ∃ u st', deliver n st s = .read u (.desCtl st' false)
  | [], _, _ => .inl ⟨_, rfl⟩
  | f :: st, n, s => by
    unfold deliver
    split
    · exact .inr ⟨_, _, rfl⟩
    · exact deliver_ends st _ _

/-- The next visit of SERIALIZE_TREE changes nothing but through its bit operation (43_tree_codec.md R170). -/
theorem serNext_carries {st : List NodeIdx} {s u : State} (h : (serNext st s).carries u) : u = s := by
  unfold serNext at h
  repeat' split at h
  all_goals simp only [Work.carries] at h
  all_goals exact h.symm

/-- A held unit step leaves the state as it is (20_memory.md R78; assumption 14). -/
theorem exec_blocked {i : Instr} {s : State} (ha : s.stat.abortReq = false) (h : blocked i s = true) : exec i s = .next s := by
  rw [exec_eq_unitStep, unitStep_blocked ha h]

/-! ## STATUS.HOLD does not depend on the turns to come -/

theorem blocked_ite {p : Prop} [Decidable p] {a b c d : Work} (h1 : a.blocked = c.blocked) (h2 : b.blocked = d.blocked) :
    (if p then a else b).blocked = (if p then c else d).blocked := by split <;> assumption

theorem deliver_blocked_withAgenda (a : List Turn) :
    ∀ (st : List Frame) (n : NodeIdx) (s : State), (deliver n st (withAgenda a s)).blocked = (deliver n st s).blocked
  | [], _, _ => rfl
  | f :: st, n, s => by
    unfold deliver
    split
    · rfl
    · exact deliver_blocked_withAgenda a st _
        { s with arena := { s.arena with nodes := setChild s.arena.nodes f.node .right n } }

/-- Whether the next bit operation of a command can proceed does not depend on the agenda. -/
@[simp] theorem blocked_withAgenda (i : Instr) (a : List Turn) (s : State) : blocked i (withAgenda a s) = blocked i s := by
  cases i <;>
    simp only [blocked, workOf, workNop, workHeapCreate, workHeapDestroy, workHeapAdd, workHeapRemove, workHeapSize, workFreqClear,
      workFreqCount, workBuildTree, workTreeClear, workBuildCodes, workSerializeTree, workDeserializeTree, workEncodeSym,
      workEncodeEos, workDecodeSym, workDecodeN, workDecodeEos, workPutBits, workGetBits, workFlush, workStreamReset,
      serNext, putNext, emitStart, emitNext, outNext, decodeNLoop, walkStart, desControl, rawByte, walkStep, arriveAt,
      allocNode, withAgenda_cont, withAgenda_arena, withAgenda_heap, withAgenda_regs, withAgenda_freq, withAgenda_codes,
      withAgenda_symcnt, withAgenda_out, withAgenda_inp]
  all_goals repeat' first | refine blocked_ite ?_ ?_ | split
  all_goals first
    | rfl
    | rename_i st n k v _ b _
      exact deliver_blocked_withAgenda a st n
        { s with arena := { s.arena with nodes := setSym s.arena.nodes n (shiftIn v b) } }

@[simp] theorem held_withAgenda (a : List Turn) (s : State) : held (withAgenda a s) = held s := by
  simp only [held, withAgenda_stat, withAgenda_regs, blocked_withAgenda]

/-! ## A write of ARG0 lifts no hold (20_memory.md R78) -/

theorem deliver_blocked_writeArg (v : Word) :
    ∀ (st : List Frame) (n : NodeIdx) (s : State),
      (deliver n st { s with regs := { s.regs with arg0 := v } }).blocked = (deliver n st s).blocked
  | [], _, _ => rfl
  | f :: st, n, s => by
    unfold deliver
    split
    · rfl
    · exact deliver_blocked_writeArg v st _
        { s with arena := { s.arena with nodes := setChild s.arena.nodes f.node .right n } }

/-- Whether a bit can be written does not depend on the bit (20_memory.md R73). -/
theorem writeBit_none_iff (cap : Nat) (b : Bool) (w : BitWriter) :
    writeBit cap b w = none ↔ w.wrCnt = 7 ∧ w.fifo.length = cap := by
  unfold writeBit
  split
  · simp_all
  · split <;> simp_all

theorem putNext_blocked_writeArg (v : Word) (k : Nat) (s : State) :
    (putNext v k { s with regs := { s.regs with arg0 := v } }).blocked = (putNext s.regs.arg0 k s).blocked := by
  cases k <;> simp [putNext, Work.blocked, writeBit_none_iff]

/-- The first unit step of DECODE_N is not held where its ReadBit can proceed. -/
theorem decodeNStart_not_blocked {s : State} (h : readBit s.inp ≠ .hold) : (decodeNStart s).blocked = false := by
  simp only [decodeNStart, decodeNLoop, walkStart]
  repeat' split
  all_goals simp [Work.blocked, h]

/-- HEAP_ADD, PUT_BITS and DECODE_N read ARG0 in the first unit step (70_reset_and_hazards.md R279), and only for DECODE_N does it
decide whether that step has a bit operation. -/
theorem blocked_setArg {i : Instr} {s : State} (v : Word) (hi : ¬(i = .decodeN ∧ s.cont = .start)) :
    blocked i { s with regs := { s.regs with arg0 := v } } = blocked i s := by
  cases i <;>
    simp only [blocked, workOf, workNop, workHeapCreate, workHeapDestroy, workHeapAdd, workHeapRemove, workHeapSize, workFreqClear,
      workFreqCount, workBuildTree, workTreeClear, workBuildCodes, workSerializeTree, workDeserializeTree, workEncodeSym,
      workEncodeEos, workDecodeSym, workDecodeN, workDecodeEos, workPutBits, workGetBits, workFlush, workStreamReset,
      serNext, emitStart, emitNext, outNext, decodeNLoop, walkStart, desControl, rawByte, walkStep, arriveAt, allocNode]
  case decodeN =>
    split
    · exact absurd ⟨rfl, ‹_›⟩ hi
    · split
      · rfl
      · rw [decodeNStart_not_blocked ‹_›, decodeNStart_not_blocked ‹_›]
    all_goals repeat' first | rfl | split
  case putBits n =>
    split
    · rfl
    · split
      · exact putNext_blocked_writeArg v n.toNat s
      · rename_i rem _; cases rem <;> rfl
      · rfl
  all_goals repeat' first | refine blocked_ite ?_ ?_ | split
  all_goals first
    | rfl
    | rename_i st n k w _ b _
      exact deliver_blocked_writeArg v st n
        { s with arena := { s.arena with nodes := setSym s.arena.nodes n (shiftIn w b) } }

/-- A write of ARG0 lifts no hold. -/
theorem held_writeArg {v : Word} {s : State} (h : held s = true) : held (writeArg v s) = true := by
  unfold held at h ⊢
  rw [writeArg_stat, show (writeArg v s).regs.curCmd = s.regs.curCmd from rfl]
  cases hd : decode s.regs.curCmd with
  | illegal e => simp [hd] at h
  | ok i =>
    simp only [hd, Bool.and_eq_true] at h ⊢
    refine ⟨h.1, ?_⟩
    by_cases hi : i = .decodeN ∧ s.cont = .start
    · obtain ⟨rfl, hc⟩ := hi
      have hb := h.2
      have hr : readBit s.inp = .hold := by
        by_contra hr
        rw [blocked, workOf, workDecodeN, hc] at hb
        simp [decodeNStart_not_blocked hr] at hb
      have hh : heldAtCount s = true := by simp [heldAtCount, held, hd, hc, hb, h.1]
      simp [writeArg, hh, blocked, workOf, workDecodeN, hr, walkStart, Work.blocked]
    · have hh : heldAtCount s = false := by
        by_contra hh
        simp only [heldAtCount, hd, Bool.not_eq_false, Bool.and_eq_true, decide_eq_true_eq] at hh
        simp_all
      rw [show writeArg v s = { s with regs := { s.regs with arg0 := v } } by simp [writeArg, hh], blocked_setArg v hi]
      exact h.2

end Sys2Proof.Machine
end

