-- ==== Sys2Proof/Tests/Slice0.lean ====
section
/-! SUPPORT. Tests. Expected results come from 95_test_vectors.md (the vector is named) or from the example of the rule named;
words are written out from 30_encoding.md. After them, for every statement with hypotheses, a witness that meets them. -/

namespace Sys2Proof.Tests

open Sys2Proof Sys2Proof.Machine

/-! ## Helpers -/

/-- The machine after reset with FIFOs of four bytes each. -/
def base : State :=
  { State.reset with
    ext := { resetIn := false, params := { inDepth := 3, outDepth := 3 }, agenda := [], hostReads := [], draws := 0 } }

/-- `base` with the command `i` accepted. -/
def accepted (i : Instr) : State := accept (encode i) base

/-- The host word `w` runs as the next command from `s`: a field of the result. -/
def runWord {α : Type} (w : Nat) (s : State) (f : State → α) : Option α :=
  match step (s.withFetchWord 32 w) with
  | .next t => some (f t)
  | .fault _ | .refused _ => none

/-- A field of the result of one unit step. -/
def unit {α : Type} (i : Instr) (s : State) (f : State → α) : Option α :=
  match exec i s with
  | .next t => some (f t)
  | .fault _ | .refused _ => none

/-- One turn of the host with what it did. -/
def hostTurn {α : Type} (t : Turn) (s : State) (f : State → α) : Option α :=
  match step (withAgenda [t] s) with
  | .next t => some (f t)
  | .fault _ | .refused _ => none

/-- How a command ended: BUSY, DONE, ERR, ECODE, EINFO. -/
def ending (s : State) : Bool × Bool × Bool × ErrCode × Word :=
  (s.stat.busy, s.stat.done, s.stat.err, s.stat.ecode, s.regs.einfo)

/-- The tree of vector T1. -/
def treeT1 : Arena := { nodes := [.leaf 0x62, .leaf 0x61, .internal 0 1 4], root := 2, valid := true }

/-- The tree of vector T5. -/
def treeT5 : Arena := { nodes := [.leaf 0x78], root := 0, valid := true }

/-- The code table of vector T1. -/
def codesT1 : CodeTable :=
  { len := symSet (symSet CodeTable.zero.len 0x61 1) 0x62 1, bits := symSet CodeTable.zero.bits 0x61 1, valid := true }

/-- The frequency table of vector T1. -/
def freqT1 : FreqTable := { count := symSet (symSet FreqTable.zero.count 0x61 3) 0x62 1, total := 4 }

/-- The heap of vector H1 before and after its fourth insertion. -/
def heapH1 : List HeapEntry := [⟨3, false, 0x62⟩, ⟨5, false, 0x61⟩, ⟨5, false, 0x63⟩]
def heapH1' : List HeapEntry := [⟨1, false, 0x64⟩, ⟨3, false, 0x62⟩, ⟨5, false, 0x63⟩, ⟨5, false, 0x61⟩]

def withHeap (h : List HeapEntry) (s : State) : State := { s with heap := { alloc := true, entries := h } }
def withArg (v : Word) (s : State) : State := { s with regs := { s.regs with arg0 := v } }

/-- `s` with an abort requested. -/
def aborted (s : State) : State := { s with stat := { s.stat with abortReq := true } }

/-- What the host's CMD write leaves when it brings the command `i` to run from `s`. -/
def written (i : Instr) (s : State) : State := writeCmd (encode i) s

/-- `s` with the input empty but for the byte `b` the host pushes. -/
def pushed (b : Byte) (s : State) : State := { s with inp := { s.inp with fifo := s.inp.fifo ++ [b] } }

/-- The output FIFO of four bytes is full and the next bit completes a byte. -/
def fullOut : BitWriter := { fifo := [0, 0, 0, 0], wrAcc := 0, wrCnt := 7, wrBits := 39 }

/-! ## Well-formedness and encodings -/

theorem test_wellFormed_refuses_zero_bits : WellFormed (.putBits 0) = false ∧ WellFormed (.getBits 0) = false := by decide
theorem test_wellFormed_refuses_33_bits : WellFormed (.putBits 33) = false ∧ WellFormed (.getBits 33) = false := by decide
theorem test_wellFormed_refuses_63_bits : WellFormed (.putBits 63) = false ∧ WellFormed (.getBits 63) = false := by decide
theorem test_wellFormed_admits_bounds : WellFormed (.putBits 1) = true ∧ WellFormed (.getBits 32) = true := by decide

theorem test_decode_nop : decode 0x00000000#32 = .ok .nop := by decide
theorem test_decode_heapCreate : decode 0x01000000#32 = .ok .heapCreate := by decide
theorem test_decode_heapDestroy : decode 0x02000000#32 = .ok .heapDestroy := by decide
theorem test_decode_heapAdd :
    decode 0x03000061#32 = .ok (.heapAdd false 0x061) ∧ decode 0x030003FE#32 = .ok (.heapAdd true 0x1FE) ∧
      decode 0x030001FF#32 = .ok (.heapAdd false 0x1FF) := by decide
theorem test_decode_heapRemove : decode 0x04000000#32 = .ok .heapRemove := by decide
theorem test_decode_heapSize : decode 0x05000000#32 = .ok .heapSize := by decide
theorem test_decode_freqClear : decode 0x10000000#32 = .ok .freqClear := by decide
theorem test_decode_freqCount : decode 0x11000000#32 = .ok .freqCount := by decide
theorem test_decode_buildTree : decode 0x12000000#32 = .ok .buildTree := by decide
theorem test_decode_treeClear : decode 0x13000000#32 = .ok .treeClear := by decide
theorem test_decode_buildCodes : decode 0x14000000#32 = .ok .buildCodes := by decide
theorem test_decode_serializeTree : decode 0x20000000#32 = .ok .serializeTree := by decide
theorem test_decode_deserializeTree : decode 0x21000000#32 = .ok .deserializeTree := by decide
theorem test_decode_encodeSym : decode 0x300000FF#32 = .ok (.encodeSym 0xFF) := by decide
theorem test_decode_encodeEos : decode 0x31000000#32 = .ok .encodeEos := by decide
theorem test_decode_decodeSym : decode 0x38000000#32 = .ok .decodeSym := by decide
theorem test_decode_decodeN : decode 0x39000000#32 = .ok .decodeN := by decide
theorem test_decode_decodeEos : decode 0x3A000000#32 = .ok .decodeEos := by decide
theorem test_decode_putBits : decode 0x40000001#32 = .ok (.putBits 1) := by decide
theorem test_decode_getBits : decode 0x41000020#32 = .ok (.getBits 32) := by decide
theorem test_decode_flush : decode 0x42000000#32 = .ok .flush := by decide
theorem test_decode_streamReset :
    decode 0x43000000#32 = .ok (.streamReset false false) ∧ decode 0x43000001#32 = .ok (.streamReset false true) ∧
      decode 0x43000002#32 = .ok (.streamReset true false) := by decide

/-- The illegal words of 95_test_vectors.md section 2.1. -/
theorem test_decode_illegal :
    decode 0x03000400#32 = .illegal .reservedBit ∧ decode 0x30000100#32 = .illegal .reservedBit ∧
      decode 0x41000021#32 = .illegal .bitCount ∧ decode 0x410000E0#32 = .illegal .reservedBit ∧
      decode 0x43000004#32 = .illegal .reservedBit ∧ decode 0xFF000000#32 = .illegal .unassignedOpcode := by decide

/-! ## One step of each command -/

/-- 60_exceptions.md R231. -/
theorem test_nop : runWord 0x00000000 base ending = some (false, true, false, .none, 0) := by decide

/-- 95_test_vectors.md section 2.1: E_ILLEGAL, EINFO the word. -/
theorem test_illegal_word : runWord 0x06000000 base ending = some (false, true, true, .illegal, 0x06000000) := by decide

/-- Vector H5: HEAP_CREATE on a heap that exists empties it. -/
theorem test_heapCreate : runWord 0x01000000 (withHeap heapH1 base) (fun t => t.heap) = some { alloc := true, entries := [] } := by
  decide

/-- Vector H5. -/
theorem test_heapDestroy : runWord 0x02000000 (withHeap heapH1 base) (fun t => t.heap.alloc) = some false := by decide

/-- Vector H1, the fourth insertion. -/
theorem test_heapAdd_sifts_up : runWord 0x03000064 (withArg 1 (withHeap heapH1 base)) (fun t => t.heap.entries) = some heapH1' := by
  decide

/-- Vector H4: the priority is checked before the null payload. -/
theorem test_heapAdd_priority_first :
    runWord 0x030003FF (withArg 0xFFFFFFFF (withHeap [] base)) ending = some (false, true, true, .arg, 0xFFFFFFFF) := by decide

/-- Vector H2: the first removal, from the heap of H1. -/
theorem test_heapRemove :
    runWord 0x04000000 (withHeap (heapH1' ++ [⟨3, false, 0x65⟩]) base) (fun t => (t.regs.res0, t.regs.res1, t.heap.entries)) =
      some (1, 0x064, [⟨3, false, 0x65⟩, ⟨3, false, 0x62⟩, ⟨5, false, 0x63⟩, ⟨5, false, 0x61⟩]) := by decide

/-- Vector H5. -/
theorem test_heapRemove_composite :
    runWord 0x04000000 (withHeap [⟨0, true, 0⟩, ⟨0x7FFFFFFF, false, 0⟩] base) (fun t => (t.regs.res0, t.regs.res1)) =
      some (0, 0x200) := by decide

/-- Vectors H5 and H4. -/
theorem test_heapSize :
    runWord 0x05000000 (withHeap heapH1 base) (fun t => t.regs.res0) = some 3 ∧
      runWord 0x05000000 base ending = some (false, true, true, .null, 0) := by decide

/-- 41_tree_builder.md R141. -/
theorem test_freqClear :
    runWord 0x10000000 { base with freq := freqT1 } (fun t => (t.freq.total, symGet t.freq.count 0x61)) = some (0, 0) := by
  decide

/-- Vector T1: the last bit of a byte 0x61 counts it. -/
theorem test_freqCount :
    unit .freqCount
        { base with cont := .rawByte 7 0x30 (.bit true), inp := { base.inp with eos := true }, freq := freqT1 }
        (fun t => (t.freq.total, symGet t.freq.count 0x61, symGet t.freq.count 0x62)) = some (5, 4, 1) := by decide

/-- 20_memory.md R78: with no input the first unit step is not enabled and clears nothing, and an abort there releases nothing
(60_exceptions.md R233). -/
theorem test_freqCount_held_at_start :
    let s := { accepted .freqCount with freq := freqT1 }
    held s = true ∧ unit .freqCount s (fun t => (t.freq.total, symGet t.freq.count 0x61, t.cont)) = some (4, 3, .start) ∧
      unit .freqCount (aborted s) (fun t => (ending t, t.freq.total)) = some ((false, true, true, .abort, 0), 4) := by decide

/-- 20_memory.md R91, R78: held at the first bit of the next byte, FREQ_COUNT has not yet counted the byte it read, and an abort
there releases the table (41_tree_builder.md R142). -/
theorem test_freqCount_held_after_a_byte :
    let s := { accepted .freqCount with cont := .rawByte 7 0x30 (.bit true), freq := freqT1 }
    held s = true ∧ unit .freqCount s (fun t => (t.freq.total, t.cont)) = some (4, .rawByte 7 0x30 (.bit true)) ∧
      unit .freqCount (aborted s) (fun t => (ending t, t.freq.total, symGet t.freq.count 0x61)) =
        some ((false, true, true, .abort, 0), 0, 0) := by decide

/-- Vector T1. -/
theorem test_buildTree : runWord 0x12000000 { base with freq := freqT1 } (fun t => t.arena) = some treeT1 := by decide +kernel

/-- Vector T6. -/
theorem test_buildTree_empty : runWord 0x12000000 base ending = some (false, true, true, .degenerate, 0) := by decide +kernel

/-- Vector T6. -/
theorem test_treeClear : runWord 0x13000000 { base with arena := treeT1 } (fun t => (t.arena.root, t.arena.nodes)) = some (0x1FF, []) := by
  decide

/-- Vector T1 of 95_test_vectors.md section 2.4. -/
theorem test_buildCodes :
    runWord 0x14000000 { base with arena := treeT1 }
        (fun t => (symGet t.codes.len 0x61, symGet t.codes.bits 0x61, symGet t.codes.len 0x62, symGet t.codes.bits 0x62)) =
      some (1, 1, 1, 0) := by decide +kernel

/-- Vector TD3: the last leaf in preorder wins. -/
theorem test_buildCodes_duplicate :
    runWord 0x14000000 { base with arena := { nodes := [.internal 1 2 0, .leaf 0x41, .leaf 0x41], root := 0, valid := true } }
        (fun t => (symGet t.codes.len 0x41, symGet t.codes.bits 0x41)) = some (1, 1) := by decide +kernel

/-- Vector T1 of section 2.5: the first bit is the 0 of the root. -/
theorem test_serializeTree :
    runWord 0x20000000 { base with arena := treeT1 } (fun t => (outBits t.out, t.out.wrBits)) = some ([false], 1) := by decide

/-- Vector TD4: exhausted inside the symbol of node 1. -/
theorem test_deserializeTree_cut :
    unit .deserializeTree
        { base with
          cont := .desSym [⟨0, .left⟩] 1 6 0x18 .exh
          arena := { nodes := [.internal 0x1FF 0x1FF 0, .leaf 0], root := 0x1FF, valid := false } }
        (fun t => (ending t, t.arena.nodes)) = some ((false, true, true, .corrupt, 2), []) := by decide

/-- 20_memory.md R78: held in its first unit step DESERIALIZE_TREE keeps the tree there is, and an abort there too. -/
theorem test_deserializeTree_held_at_start :
    let s := { accepted .deserializeTree with arena := treeT1 }
    held s = true ∧ unit .deserializeTree s (fun t => t.arena) = some treeT1 ∧
      unit .deserializeTree (aborted s) (fun t => t.arena) = some treeT1 := by decide

/-- Vector TD1: the last bit of the symbol of node 2 completes the tree. -/
theorem test_deserializeTree_ends :
    unit .deserializeTree
        { base with
          cont := .desSym [⟨0, .right⟩] 2 7 0x30 (.bit true)
          arena := { nodes := [.internal 1 0x1FF 0, .leaf 0x62, .leaf 0], root := 0x1FF, valid := false } }
        (fun t => t.arena) =
      some { nodes := [.internal 1 2 0, .leaf 0x62, .leaf 0x61], root := 0, valid := true } := by decide

/-- Vector E1. -/
theorem test_encodeSym : runWord 0x30000061 { base with codes := codesT1 } (fun t => outBits t.out) = some [true] := by decide

/-- Vector E4. -/
theorem test_encodeSym_noCode : runWord 0x30000063 { base with codes := codesT1 } ending = some (false, true, true, .noCode, 0x63) := by
  decide

/-- Vector E7: the first step finds the end, the second completes. -/
theorem test_encodeEos :
    unit .encodeEos { base with codes := codesT1, cont := .rawByte 0 0 .exh } (fun t => (ending t, t.symcnt)) =
      some ((false, true, false, .none, 0), 0) := by decide

/-- Vector E5: a byte without a code. -/
theorem test_encodeEos_noCode :
    unit .encodeEos { base with codes := codesT1, cont := .rawByte 7 0x31 (.bit true), symcnt := 1 }
        (fun t => (ending t, t.symcnt)) = some ((false, true, true, .noCode, 0x63), 1) := by decide

/-- Vector X1. -/
theorem test_decodeSym :
    unit .decodeSym { base with arena := treeT1, cont := .walk 2 false 0 (.bit true) } (fun t => t.regs.res0) = some 0x61 := by
  decide

/-- Vector X9. -/
theorem test_decodeN_zero : runWord 0x39000000 { base with arena := treeT1 } ending = some (false, true, false, .none, 0) := by
  decide

/-- 20_memory.md R78, 60_exceptions.md R230: an ARG0 write at a hold of the first unit step lifts no hold, and ARG0 is read by that
step once a byte is pushed (70_reset_and_hazards.md R279): N = 0 completes with nothing read, N = 3 reads. -/
theorem test_decodeN_arg0_lifts_no_hold :
    let s := written .decodeN (withArg 2 { base with arena := treeT1 })
    s.cont = .start ∧ held s = true ∧ held (writeArg 0 s) = true ∧
      unit .decodeN (pushed 0x80 (writeArg 0 s)) ending = some (false, true, false, .none, 0) ∧
      unit .decodeN (pushed 0x80 (writeArg 0 s)) (fun t => (t.symcnt, t.inp.fifo)) = some (0, [0x80]) ∧
      unit .decodeN (pushed 0x80 (writeArg 3 s)) (fun t => t.cont) = some (.walk 2 false 3 (.bit true)) := by decide

/-- 20_memory.md R78: accepted with ARG0 = 0 the first unit step is enabled; an ARG0 write makes it one that is held, and the next
ARG0 write does not lift that hold (assumption 24). -/
theorem test_decodeN_hold_that_arg0_makes :
    let s := written .decodeN { base with arena := treeT1 }
    held s = false ∧ held (writeArg 5 s) = true ∧ held (writeArg 0 (writeArg 5 s)) = true ∧
      held (pushed 0x80 (writeArg 0 (writeArg 5 s))) = false := by decide

/-- Vector X4: a 1 under a single-leaf root. -/
theorem test_decodeN_bad_bit :
    unit .decodeN { base with arena := treeT5, cont := .walk 0 false 5 (.bit true), symcnt := 2 } ending =
      some (false, true, true, .corrupt, 2) := by decide

/-- 60_exceptions.md R224: an abort at a hold counts the symbol whose last bit is written (assumption 2). -/
theorem test_abort_counts_the_written_symbol :
    let s := { accepted .decodeN with arena := treeT1, cont := .outSym 0x61 0 2 }
    let e := { accepted .encodeEos with codes := codesT1, cont := .emit 0x61 0, symcnt := 4 }
    held s = true ∧ unit .decodeN (aborted s) (fun t => (ending t, t.symcnt)) = some ((false, true, true, .abort, 0), 1) ∧
      held e = true ∧ unit .encodeEos (aborted e) (fun t => t.symcnt) = some 5 := by decide

/-- Vector X2: exhaustion inside a code sets PARTIAL. -/
theorem test_decodeEos_partial :
    unit .decodeEos { base with arena := treeT1, cont := .walk 2 true 0 .exh } (fun t => (t.stat.partialCode, t.stat.err)) =
      some (true, false) := by decide

/-- Vector B2: the first bit of 101. -/
theorem test_putBits : runWord 0x40000003 (withArg 5 base) (fun t => (t.out.wrAcc, t.out.wrCnt)) = some (1, 1) := by decide

/-- Vector B10: the byte that would be completed has no room; a pop lifts the hold, and ARG0 is read in the first unit step, which
is the one after the hold (45_bitcursor.md R201, 60_exceptions.md R230). -/
theorem test_putBits_holds :
    let s := written (.putBits 1) { withArg 0 base with out := fullOut }
    s.cont = .start ∧ held s = true ∧ unit (.putBits 1) s (fun t => (t.cont, t.out)) = some (.start, fullOut) ∧
      hostTurn (.read 32 0x04C) s (fun t => held t) = some false ∧
      unit (.putBits 1) { writeArg 1 s with out := { fullOut with fifo := [0] } } (fun t => t.out.fifo) = some [0, 1] := by decide

/-- Vector B8: exhaustion after 8 bits. -/
theorem test_getBits_cut :
    unit (.getBits 12) { base with cont := .getBits 8 0x12 .exh } ending = some (false, true, true, .corrupt, 8) := by decide

/-- Vector B9: an empty, unterminated input holds, and a push lifts the hold. -/
theorem test_getBits_holds :
    let s := accepted (.getBits 1)
    held s = true ∧ unit (.getBits 1) s (fun t => t.cont) = some .start ∧
      hostTurn (.write 32 0x048 0x80) s (fun t => held t) = some false := by decide

/-- The example of 45_bitcursor.md R203. -/
theorem test_flush :
    runWord 0x42000000 { base with out := { base.out with wrAcc := 0b0011100, wrCnt := 7, wrBits := 55 } }
        (fun t => (t.out.fifo, t.out.wrCnt, t.out.wrBits)) = some ([0x38], 0, 56) := by decide

/-- The example of 45_bitcursor.md R204: STREAM_RESET in leaves the writer untouched. -/
theorem test_streamReset :
    runWord 0x43000001
        { base with
          inp := { fifo := [0x61], rdBuf := 1, rdCnt := 2, rdBits := 6, eos := true }
          out := { base.out with wrAcc := 1, wrCnt := 1, wrBits := 1 } }
        (fun t => (t.inp, t.out.wrBits)) = some (BitReader.empty, 1) := by decide

/-! ## The register port -/

/-- 10_state.md R40. -/
theorem test_id : hostTurn (.read 32 0x000) base (fun t => t.ext.hostReads) = some [0x48554601] := by decide

/-- PARAM0 and PARAM1 for FIFOs of four bytes (10_state.md R40). -/
theorem test_params :
    hostTurn (.read 32 0x050) base (fun t => t.ext.hostReads) = some [0x01FF0100] ∧
      hostTurn (.read 32 0x054) base (fun t => t.ext.hostReads) = some [0x00040420] := by decide

/-- Vector B12. -/
theorem test_push_after_eos :
    hostTurn (.write 32 0x048 0) { base with inp := { base.inp with eos := true } } (fun t => (t.inp.fifo, t.stat.inOvf)) =
      some ([], true) := by decide

/-- Vectors B13 and B14. -/
theorem test_pop :
    hostTurn (.read 32 0x04C) base (fun t => t.ext.hostReads) = some [0] ∧
      hostTurn (.read 32 0x04C) { base with out := { base.out with fifo := [0xA5] } } (fun t => (t.ext.hostReads, t.out.fifo)) =
        some ([0x1A5], []) := by decide

/-- The window words of vector T1. -/
theorem test_node_window :
    hostTurn (.read 32 0x1000) { base with arena := treeT1 } (fun t => t.ext.hostReads) = some [0xC0000062] ∧
      hostTurn (.read 32 0x1008) { base with arena := treeT1 } (fun t => t.ext.hostReads) = some [0x80000001] ∧
      hostTurn (.read 32 0x1808) { base with arena := treeT1 } (fun t => t.ext.hostReads) = some [4] := by decide

/-- The window words of vector H5. -/
theorem test_heap_window :
    hostTurn (.read 32 0x2400) (withHeap [⟨0, true, 0⟩, ⟨0x7FFFFFFF, false, 0⟩] base) (fun t => t.ext.hostReads) = some [0x200] ∧
      hostTurn (.read 32 0x2004) (withHeap [⟨0, true, 0⟩, ⟨0x7FFFFFFF, false, 0⟩] base) (fun t => t.ext.hostReads) =
        some [0x7FFFFFFF] := by decide

/-- 70_reset_and_hazards.md R260: while the reset input is asserted a write changes nothing and ID reads as ever. -/
theorem test_reset_asserted :
    hostTurn (.resetPin true) (withArg 7 (accepted .nop)) (fun t => (t.ext.resetIn, t.stat.busy, t.regs.arg0)) =
        some (true, false, 0) ∧
      hostTurn (.write 32 0x010 7) { base with ext := { base.ext with resetIn := true } } (fun t => t.regs.arg0) = some 0 ∧
      hostTurn (.read 32 0x000) { base with ext := { base.ext with resetIn := true } } (fun t => t.ext.hostReads) =
        some [0x48554601] := by decide

/-- The end state of program P1: STATUS = 0x0000F002. -/
theorem test_status :
    statusWord false
        { base with
          stat := { base.stat with done := true }
          arena := treeT1
          codes := codesT1
          inp := { base.inp with eos := true } } = 0x0000F002 := by decide

/-! ## Witnesses: states and operands that meet the hypotheses of the statements -/

/-- `base` with `fifo` in the input, terminated, and the command `i` accepted. -/
def acceptedWith (i : Instr) (fifo : List Byte) : State :=
  { accepted i with inp := { base.inp with fifo := fifo, eos := true } }

/-- `base` with a running command at `c`. -/
def running (i : Instr) (c : EngineCont) : State := { accepted i with cont := c }

/-- The one-bit reader: the next bit is 1. -/
def oneBit : BitReader := { fifo := [], rdBuf := 1, rdCnt := 1, rdBits := 7, eos := false }

theorem oneBit_reads : readBit oneBit = .bit true { fifo := [], rdBuf := 1, rdCnt := 0, rdBits := 8, eos := false } := by decide

/-- A reader for each case of `StepReads`: it holds, it is exhausted, it gives a bit. -/
def EachRead : Prop :=
  readBit BitReader.empty = .hold ∧ readBit { BitReader.empty with eos := true } = .exh ∧ ∃ b r, readBit oneBit = .bit b r

theorem eachRead : EachRead := ⟨by decide, by decide, _, _, oneBit_reads⟩

/-- A writer for each case of `StepWrites`: no room for the bit, and room. -/
def EachWrite (b : Bool) : Prop :=
  writeBit base.ext.params.outCap b fullOut = none ∧ (writeBit base.ext.params.outCap b BitWriter.empty).isSome = true

theorem eachWrite (b : Bool) : EachWrite b := by revert b; unfold EachWrite; decide

/-- A tree read from the arena, with the nodes it uses. -/
def readTree (ns : List Node) : Nat → NodeIdx → Option (CodeTree × List NodeIdx)
  | 0, _ => none
  | k + 1, i =>
    match nodeAt ns i with
    | none => none
    | some (.leaf v) => some (.leaf v, [i])
    | some (.internal a b _) =>
      match readTree ns k a, readTree ns k b with
      | some (l, xs), some (r, ys) => some (.node l r, i :: (xs ++ ys))
      | _, _ => none

theorem readTree_holds {ns : List Node} : ∀ {k : Nat} {i : NodeIdx} {t : CodeTree} {ix : List NodeIdx},
    readTree ns k i = some (t, ix) → Holds ns t i ix
  | 0, _, _, _, h => by cases h
  | k + 1, i, t, ix, h => by
    unfold readTree at h
    split at h
    · cases h
    · cases h
      exact ⟨‹_›, rfl⟩
    · split at h
      · cases h
        exact ⟨_, _, _, _, _, ‹_›, readTree_holds ‹_›, readTree_holds ‹_›, rfl⟩
      · cases h

/-- The tree of depth `d` whose left children are all leaves. -/
def comb : Nat → CodeTree
  | 0 => .leaf 1
  | d + 1 => .node (.leaf 0) (comb d)

/-- The nodes of `comb d`, its root at 0. -/
def combNodes (d : Nat) : List Node :=
  (List.range (2 * d + 1)).map fun n =>
    if n = 2 * d then .leaf 1
    else if n % 2 = 1 then .leaf 0
    else .internal (BitVec.ofNat 9 (n + 1)) (BitVec.ofNat 9 (n + 2)) 0

def combArena (d : Nat) : Arena := { nodes := combNodes d, root := 0, valid := true }

/-- A root whose left child is internal and whose right child is a leaf. -/
def mixed : Arena := { nodes := [.leaf 1, .leaf 2, .internal 0 1 0, .internal 2 0 0], root := 3, valid := true }

theorem holds_T1 : Holds treeT1.nodes (.node (.leaf 0x62) (.leaf 0x61)) 2 [2, 0, 1] :=
  readTree_holds (k := 2) (by decide)

theorem holds_T5 : Holds treeT5.nodes (.leaf 0x78) 0 [0] := readTree_holds (k := 1) (by decide)

theorem holds_comb32 : ∃ ix, Holds (combArena 32).nodes (comb 32) 0 ix :=
  ⟨_, readTree_holds (k := 33) (ix := (List.range 65).map (BitVec.ofNat 9)) (by decide +kernel)⟩

theorem holds_comb33 : ∃ ix, Holds (combArena 33).nodes (comb 33) 0 ix :=
  ⟨_, readTree_holds (k := 34) (ix := (List.range 67).map (BitVec.ofNat 9)) (by decide +kernel)⟩

theorem ordered_H1 : HeapOrdered heapH1' := by
  intro i p c hi hp hc
  have hl : i < heapH1'.length := (List.getElem?_eq_some_iff.1 hc).1
  have : i < 4 := hl
  interval_cases i <;> (cases hp; cases hc; decide)

/-- Running NOP in `base` is sound. -/
theorem sound_nop : Sound (accepted .nop) where
  engine := ⟨fun h => (by cases h), fun _ => rfl⟩
  range := by
    constructor <;>
      simp [accepted, accept, base, State.reset, Heap.size, Arena.count, Arena.empty, CodeTable.zero, BitReader.empty, BitWriter.empty]
  arena := ⟨fun h => (by cases h), trivial⟩

theorem witness_DecodeEncodeRoundTrip :
    (WellFormed (.putBits 1) = true ∧ WellFormed (.getBits 32) = true ∧ WellFormed (.heapAdd true 0x1FF) = true) ∧
      ∃ w i, decode w = .ok i := ⟨by decide, 0x41000020, .getBits 32, by decide⟩

theorem witness_DecodeAgreesWithMatchAndMask :
    (∃ w i, decode w = .ok i) ∧ ∃ row ∈ opcodeRows, row.counted = true ∧ row.selects 0x40000020 ∧ row.selects 0x40000001 := by
  refine ⟨⟨0, .nop, by decide⟩, _, List.mem_of_getElem? (i := 18) rfl, rfl, ⟨by decide, fun _ => by decide⟩, by decide, fun _ => by decide⟩

theorem witness_StepRunsDecodedCommand :
    (accepted .nop).ext.resetIn = false ∧ (accepted .nop).stat.busy = true ∧ decode (accepted .nop).regs.curCmd = .ok .nop ∧
      (accepted .nop).ext.agenda = [] ∧
      (withAgenda [.engine] (accepted .nop)).ext.agenda = .engine :: [] ∧
      (withAgenda [.wait] (accepted .nop)).ext.agenda = .wait :: [] ∧ (accepted .nop).stat.done = false ∧
      decode 0x41000020 = .ok (.getBits 32) := by decide

theorem witness_IllegalWordEndsInError :
    let s := accept 0x40000021 base
    s.ext.resetIn = false ∧ s.ext.agenda = [] ∧ s.stat.busy = true ∧ decode s.regs.curCmd = .illegal .bitCount ∧
      s.stat.abortReq = false ∧ (aborted s).stat.abortReq = true := by decide

/-- An abort requested before the first unit step, before that of an illegal word, at a hold, and after a symbol's last bit. -/
theorem witness_AbortEndsEveryCommand :
    let s := aborted (accepted .freqCount)
    let u := aborted (accept 0x40000021 base)
    let e := aborted (running .encodeEos (.emit 0x61 0))
    (s.stat.abortReq = true ∧ s.cont = .start) ∧
      (u.ext.resetIn = false ∧ u.ext.agenda = [] ∧ u.stat.busy = true ∧ decode u.regs.curCmd = .illegal .bitCount ∧
        u.stat.abortReq = true) ∧
      ({ s with cont := .rawByte 6 0 (.bit true) }.stat.abortReq = true ∧
        { s with cont := .rawByte 6 0 (.bit true) }.cont ≠ .start) ∧
      e.stat.abortReq = true ∧ e.cont = .emit 0x61 0 ∧ e.cont ≠ .start ∧
      (aborted (running .decodeN (.outSym 0x61 0 2))).cont = .outSym 0x61 0 2 := by
  decide

/-- A command held before its first unit step, and one standing at a read and at a write, each held and each let go. -/
theorem witness_HeldStepDoesNotTakePlace :
    let s := accepted (.getBits 1)
    let r := running (.getBits 2) (.getBits 0 0 (.bit true))
    let w := { running (.putBits 2) (.putBits 1 1) with out := fullOut }
    (s.stat.busy = true ∧ s.stat.abortReq = false ∧ decode s.regs.curCmd = .ok (.getBits 1) ∧ held s = true ∧
        held { s with inp := oneBit } = false) ∧
      (r.stat.busy = true ∧ r.stat.abortReq = false ∧ decode r.regs.curCmd = .ok (.getBits 2) ∧ held r = true ∧
        held { r with inp := oneBit } = false ∧ held (aborted r) = false ∧
        unit (.getBits 2) r (fun t => (t.cont, t.inp)) = some (r.cont, r.inp)) ∧
      (w.stat.busy = true ∧ w.stat.abortReq = false ∧ decode w.regs.curCmd = .ok (.putBits 2) ∧
        w.cont = .putBits 1 (0 + 1) ∧ held w = true ∧ held { w with out := BitWriter.empty } = false) := by decide

/-- Every other clause on where a command stands at a read, each with its command: all held. -/
theorem witness_HeldStepDoesNotTakePlace_reads :
    held (accepted .freqCount) = true ∧ held (running .freqCount (.rawByte 6 0 (.bit true))) = true ∧
      held (running .freqCount (.rawByte 7 0 (.bit true))) = true ∧ base.freq.total.toNat ≠ 2 ^ 31 - 1 ∧
      held { accepted .encodeEos with codes := codesT1 } = true ∧
      held (running .encodeEos (.rawByte 6 0 (.bit true))) = true ∧ held (running .encodeEos (.emit 0x61 0)) = true ∧
      held (accepted .deserializeTree) = true ∧ held (running .deserializeTree (.desCtl [] true (.bit true))) = true ∧
      held (running .deserializeTree (.desCtl [] true (.bit false))) = true ∧
      held (running .deserializeTree (.desSym [] 0 6 0 (.bit true))) = true ∧
      held (running .deserializeTree (.desSym ([⟨1, .right⟩] ++ ⟨0, .left⟩ :: []) 3 7 0 (.bit true))) = true ∧
      held { accepted .decodeSym with arena := treeT1 } = true ∧ held { accepted .decodeEos with arena := treeT1 } = true ∧
      held (withArg 1 { accepted .decodeN with arena := treeT1 }) = true ∧
      held { running .decodeN .heldStart with arena := treeT1 } = true ∧
      held { running .decodeSym (.walk 3 false 0 (.bit false)) with arena := mixed } = true ∧
      held { running .decodeN (.walk 3 false 1 (.bit false)) with arena := mixed } = true ∧
      held { running .decodeEos (.walk 3 false 0 (.bit false)) with arena := mixed } = true ∧
      held { running .decodeN (.outSym 0x61 0 2) with arena := treeT1 } = true ∧ (0 : Word) + 1 < 2 ∧
      held { running .decodeEos (.outSym 0x61 0 0) with arena := treeT1 } = true := by decide

/-- Every other clause on where a command stands at a write, each with its command: all held. -/
theorem witness_HeldStepDoesNotTakePlace_writes :
    held { accepted (.encodeSym 0x61) with codes := codesT1, out := fullOut } = true ∧
      held { running (.encodeSym 0x61) (.emit 0x61 1) with out := fullOut } = true ∧
      held { running .encodeEos (.rawByte 7 0x30 (.bit true)) with codes := codesT1, out := fullOut } = true ∧
      held { running .encodeEos (.emit 0x61 1) with out := fullOut } = true ∧
      held { running .decodeN (.outSym 0x61 7 1) with out := fullOut } = true ∧
      held { running .decodeEos (.outSym 0x61 1 0) with out := fullOut } = true ∧
      held { running .decodeN (.walk 0 false 1 (.bit false)) with arena := treeT5, out := fullOut } = true ∧
      held { running .decodeEos (.walk 2 false 0 (.bit true)) with arena := treeT1, out := fullOut } = true ∧
      held { accepted .serializeTree with arena := treeT1, out := fullOut } = true ∧
      held { running .serializeTree (.ser [1] 0 0) with arena := treeT1, out := fullOut } = true ∧
      held { running .serializeTree (.ser [] 0x61 8) with out := fullOut } = true ∧
      held { accepted (.putBits 32) with out := fullOut } = true ∧
      held { accepted .flush with out := fullOut } = true ∧
      held { running .flush .flush with out := fullOut } = true ∧ fullOut.wrCnt ≠ 0 := by decide

/-- A step that takes a byte with more of the input to come, and one that completes a byte of the output. -/
theorem witness_HostStreamingCommutesWithUnitSteps :
    let s := { accepted (.getBits 1) with inp := { base.inp with fifo := [0x80] } }
    let w := { accepted .flush with out := { fullOut with fifo := [0xA5, 0, 0] } }
    (∃ t, exec (.getBits 1) s = .next t ∧ t ≠ s) ∧ s.inp.eos = false ∧ (∀ o, Instr.getBits 1 ≠ .streamReset o true) ∧
      (∃ t, exec .flush w = .next t ∧ t ≠ w) ∧ w.out.fifo.length ≤ w.ext.params.outCap ∧
      (∀ j, Instr.flush ≠ .streamReset true j) ∧ w.out.fifo = 0xA5 :: [0, 0] :=
  ⟨⟨_, rfl, fun h => absurd (congrArg (fun u => u.inp.rdBits) h) (by decide)⟩, rfl, by simp,
    ⟨_, rfl, fun h => absurd (congrArg (fun u => u.out.wrBits) h) (by decide)⟩, by decide, by simp, rfl⟩

/-- A held command, with an ARG0 write and a push at the head of the agenda: the one keeps the hold, the other lifts it. -/
theorem witness_HeldStepDoesNotTakePlace_lifts :
    let s := accepted (.getBits 1)
    held s = true ∧ hostTurn (.write 32 0x010 7) s held = some true ∧ hostTurn (.write 32 0x048 0x80) s held = some false ∧
      hostTurn (.write 32 0x004 2) s held = some false ∧ hostTurn (.write 32 0x004 4) s held = some false ∧
      hostTurn (.write 32 0x004 8) s held = some false ∧ hostTurn (.resetPin true) s held = some false := by decide

theorem witness_EveryErrorEndsItsCommand :
    ∃ t, exec .heapSize base = .next t ∧ base.stat.err = false ∧ t.stat.err = true := ⟨_, rfl, rfl, rfl⟩

theorem witness_HeapCreateDestroyAndSize :
    base.stat.abortReq = false ∧ base.heap.alloc = false ∧ (withHeap [] base).stat.abortReq = false ∧
      (withHeap [] base).heap.alloc = true := by decide

/-- One state for each clause, at the bounds: payload 0x100 is the first that is no symbol, 256 entries are a full heap. -/
theorem witness_HeapAddChecksThenInserts :
    base.heap.alloc = false ∧
      ((withArg 0x80000000 (withHeap [] base)).heap.alloc = true ∧
        (withArg 0x80000000 (withHeap [] base)).regs.arg0.getLsbD 31 = true) ∧
      ((withArg 0x7FFFFFFF (withHeap [] base)).heap.alloc = true ∧
        (withArg 0x7FFFFFFF (withHeap [] base)).regs.arg0.getLsbD 31 = false) ∧
      256 ≤ (0x100 : NodeIdx).toNat ∧ (0xFF : NodeIdx).toNat < 256 ∧ (0x1FE : NodeIdx) ≠ 0x1FF#9 ∧
      (withHeap (List.replicate 256 ⟨7, false, 0⟩) base).heap.entries.length = 256 ∧
      (withHeap (List.replicate 255 ⟨7, false, 0⟩) base).heap.entries.length ≠ 256 := by decide +kernel

theorem witness_HeapProceduresKeepEntriesAndOrder :
    HeapOrdered heapH1' ∧ (∀ x ∈ heapH1', (⟨0, true, 1⟩ : HeapEntry).prio < x.prio) ∧
      ∃ e h', heapExtract heapH1' = some (e, h') := ⟨ordered_H1, by decide, _, _, rfl⟩

theorem witness_HeapRemoveReturnsTheRoot :
    base.stat.abortReq = false ∧ base.heap.alloc = false ∧
      ((withHeap [] base).heap.alloc = true ∧ (withHeap [] base).heap.entries = []) ∧
      ((withHeap heapH1' base).heap.alloc = true ∧ ∃ e h', heapExtract (withHeap heapH1' base).heap.entries = some (e, h')) :=
  ⟨rfl, rfl, ⟨rfl, rfl⟩, rfl, _, _, rfl⟩

theorem witness_HeapOrderKeptByEveryStep :
    ∃ s t, HeapOrdered s.heap.entries ∧ step s = .next t ∧ t.heap.entries.length = 3 :=
  ⟨withHeap heapH1' (accepted .heapRemove), _, ordered_H1, rfl, by decide⟩

theorem witness_FreqClearAndTreeClear : (accepted .freqClear).stat.abortReq = false := rfl

theorem witness_FreqCountUnitSteps :
    (accepted .freqCount).cont = .start ∧ EachRead ∧
      (running .freqCount (.rawByte 6 0x30 (.bit true))).cont = .rawByte 6 0x30 (.bit true) ∧
      (running .freqCount (.rawByte 7 0x30 (.bit true))).cont = .rawByte 7 0x30 (.bit true) ∧
      base.freq.total.toNat ≠ 2 ^ 31 - 1 ∧ (0x7FFFFFFF#32).toNat = 2 ^ 31 - 1 ∧
      (running .freqCount (.rawByte 0 0 .exh)).cont = .rawByte 0 0 .exh ∧
      (running .freqCount (.rawByte 7 0 .exh)).cont = .rawByte 7 0 .exh :=
  ⟨rfl, eachRead, rfl, rfl, by decide, by decide, rfl, rfl⟩

theorem witness_FreqCountCountsItsInput :
    Ready (acceptedWith .freqCount [0x61, 0x62]) ∧ inBits (acceptedWith .freqCount [0x61, 0x62]).inp = bytesBits [0x61, 0x62] ∧
      (acceptedWith .freqCount [0x61, 0x62]).inp.rdCnt.toNat ≤ 8 ∧ (acceptedWith .freqCount [0x61, 0x62]).inp.eos = true ∧
      [(0x61 : Byte), 0x62].length < 2 ^ 31 := ⟨⟨rfl, rfl⟩, by decide, by decide, rfl, by decide⟩

theorem freqOk_T1 : FreqOk { accepted .nop with freq := freqT1 } := ⟨by decide +kernel, by decide +kernel⟩

theorem witness_FreqTotalKeptByEveryStep : ∃ s t, FreqOk s ∧ step s = .next t ∧ t.freq.total = 4 :=
  ⟨{ accepted .nop with freq := freqT1 }, complete { accepted .nop with freq := freqT1 }, freqOk_T1, rfl, rfl⟩

/-- A table of two symbols whose counts sum to 2^31, one too many. -/
def freqOver : SymTable Word := symSet (symSet FreqTable.zero.count 0 0x40000000) 1 0x40000000

theorem witness_BuildTreeEmptySingleAndOverflow :
    base.stat.abortReq = false ∧ usedSymbols base.freq.count = [] ∧
      usedSymbols (symSet FreqTable.zero.count 0xFF 1) = [0xFF] ∧
      (∀ v : Byte, (symGet freqOver v).toNat ≤ 2 ^ 31 - 1) ∧ 2 ^ 31 - 1 < freqSum freqOver := by
  refine ⟨rfl, by decide +kernel, by decide +kernel, fun v => ?_, by decide +kernel⟩
  simp only [freqOver, symGet_symSet]
  split
  · decide
  · split
    · decide
    · simp [FreqTable.zero]

/-- Two symbols, and the largest sum the statement admits. -/
theorem witness_BuildTreeMakesAHuffmanTree :
    let f := symSet (symSet FreqTable.zero.count 0 0x40000000) 255 0x3FFFFFFF
    base.stat.abortReq = false ∧ usedSymbols f ≠ [] ∧ freqSum f ≤ 2 ^ 31 - 1 ∧ freqSum f = 2 ^ 31 - 1 :=
  ⟨rfl, by decide +kernel, by decide +kernel, by decide +kernel⟩

theorem witness_BuildCodesWithoutTreeAndLoneRoot :
    base.arena.valid = false ∧ ({ base with arena := treeT5 }).stat.abortReq = false ∧ treeT5.valid = true ∧
      nodeAt treeT5.nodes treeT5.root = some (.leaf 0x78) := by decide

/-- A tree of the largest depth the statement admits. -/
theorem witness_BuildCodesRecordsThePaths :
    ∃ (s : State) (ix : List NodeIdx), s.stat.abortReq = false ∧ s.arena.valid = true ∧ Holds s.arena.nodes (comb 32) s.arena.root ix ∧
      (comb 32).size ≤ 511 ∧ (comb 32).depth = 32 := by
  obtain ⟨ix, h⟩ := holds_comb32
  exact ⟨{ accepted .buildCodes with arena := combArena 32 }, ix, rfl, rfl, h, by decide, by decide⟩

/-- A tree of depth 33. -/
theorem witness_BuildCodesRefusesDeepLeaves :
    ∃ (s : State) (ix : List NodeIdx) (v : Byte) (p : List Bool), s.stat.abortReq = false ∧ s.arena.valid = true ∧
      Holds s.arena.nodes (comb 33) s.arena.root ix ∧ (comb 33).size ≤ 511 ∧
      (comb 33).edges.find? (fun e => 32 < e.2.length) = some (v, p) := by
  obtain ⟨ix, h⟩ := holds_comb33
  exact ⟨{ accepted .buildCodes with arena := combArena 33 }, ix, 0, List.replicate 32 true ++ [false], rfl, rfl, h, by decide,
    by decide +kernel⟩

theorem witness_SerializeTreeUnitSteps :
    (accepted .serializeTree).arena.valid = false ∧ nodeAt treeT5.nodes treeT5.root = some (.leaf 0x78) ∧
      nodeAt treeT1.nodes treeT1.root = some (.internal 0 1 4) ∧ treeT1.valid = true ∧
      (running .serializeTree (.ser [1] 0 0)).cont = .ser (1 :: []) 0 0 ∧ nodeAt treeT1.nodes 1 = some (.leaf 0x61) ∧
      EachWrite true ∧ EachWrite false ∧ (running .serializeTree (.ser [] 0x62 1)).cont = .ser [] 0x62 (0 + 1) ∧
      (running .serializeTree (.ser [] 0x62 0)).cont = .ser [] 0x62 0 :=
  ⟨rfl, by decide, by decide, rfl, rfl, by decide, eachWrite true, eachWrite false, rfl, rfl⟩

theorem witness_SerializeTreeWritesPreorder :
    ∃ (s : State) (T : CodeTree) (ix : List NodeIdx), Ready s ∧ s.arena.valid = true ∧ Holds s.arena.nodes T s.arena.root ix ∧
      outRoom s.ext.params.outCap T.preorder.length s.out :=
  ⟨{ accepted .serializeTree with arena := treeT1 }, _, _, ⟨rfl, rfl⟩, rfl, holds_T1, by unfold outRoom; decide⟩

theorem witness_DeserializeTreeUnitSteps :
    (accepted .deserializeTree).cont = .start ∧ EachRead ∧
      (combNodes 255).length = 511 ∧ base.arena.nodes.length ≠ 511 ∧
      (running .deserializeTree (.desCtl [] true .exh)).cont = .desCtl [] true .exh ∧
      (running .deserializeTree (.desCtl [⟨0, .left⟩] false .exh)).cont = .desCtl [⟨0, .left⟩] false .exh ∧
      (running .deserializeTree (.desCtl [] true (.bit true))).cont = .desCtl [] true (.bit true) ∧
      (running .deserializeTree (.desCtl [] true (.bit false))).cont = .desCtl [] true (.bit false) ∧
      (running .deserializeTree (.desSym [] 0 6 0 (.bit true))).cont = .desSym [] 0 6 0 (.bit true) :=
  ⟨rfl, eachRead, by simp [combNodes], by decide, rfl, rfl, rfl, rfl, rfl⟩

/-- Deliveries through one waiting right child: to the root, and to a waiting left child. -/
theorem witness_DeserializeTreeUnitSteps_deliveries :
    (∀ g ∈ [(⟨1, .right⟩ : Frame)], g.side = .right) ∧ (⟨0, .left⟩ : Frame).side = .left ∧
      (running .deserializeTree (.desSym [⟨1, .right⟩] 3 7 0 (.bit true))).cont = .desSym [⟨1, .right⟩] 3 7 0 (.bit true) ∧
      (running .deserializeTree (.desSym [⟨1, .right⟩, ⟨0, .left⟩] 3 7 0 (.bit true))).cont =
        .desSym ([⟨1, .right⟩] ++ ⟨0, .left⟩ :: []) 3 7 0 (.bit true) := by decide

/-- Vector TD1. -/
theorem witness_DeserializeTreeRebuildsTheTree :
    let s := acceptedWith .deserializeTree [0x58, 0xac, 0x20]
    let T := CodeTree.node (.leaf 0x62) (.leaf 0x61)
    Ready s ∧ inBits s.inp = T.preorder ++ [false, false, false, false, false] ∧ s.inp.rdCnt.toNat ≤ 8 ∧ T.size ≤ 511 :=
  ⟨⟨rfl, rfl⟩, by decide, by decide, by decide⟩

/-- Codes of one bit and of 32 bits. -/
theorem witness_EncodeSymUnitSteps :
    base.codes.valid = false ∧ codesT1.valid = true ∧ symGet codesT1.len 0x63 = 0 ∧ (symGet codesT1.len 0x61).toNat = 0 + 1 ∧
      (symGet (symSet codesT1.len 0x61 32) 0x61).toNat = 31 + 1 ∧ EachWrite ((symGet codesT1.bits 0x61).getLsbD 0) ∧
      (running (.encodeSym 0x61) (.emit 0x61 1)).cont = .emit 0x61 (0 + 1) ∧
      (running (.encodeSym 0x61) (.emit 0x61 0)).cont = .emit 0x61 0 :=
  ⟨rfl, rfl, by decide, by decide, by decide, eachWrite _, rfl, rfl⟩

theorem witness_EncodeSymWritesTheCode :
    let s := { accepted (.encodeSym 0x61) with codes := codesT1 }
    Ready s ∧ s.codes.valid = true ∧ (symGet s.codes.len 0x61).toNat = 1 ∧ 0 < 1 ∧ outRoom s.ext.params.outCap 1 s.out :=
  ⟨⟨rfl, rfl⟩, rfl, by decide, by decide, by unfold outRoom; decide⟩

theorem witness_EncodeEosUnitSteps :
    base.codes.valid = false ∧ codesT1.valid = true ∧ EachRead ∧
      (running .encodeEos (.rawByte 6 0x18 (.bit true))).cont = .rawByte 6 0x18 (.bit true) ∧
      (running .encodeEos (.rawByte 7 0x31 (.bit true))).cont = .rawByte 7 0x31 (.bit true) ∧
      symGet codesT1.len (shiftIn (0x31 : Byte) true) = 0 ∧ (symGet codesT1.len (shiftIn (0x30 : Byte) true)).toNat = 0 + 1 ∧
      EachWrite ((symGet codesT1.bits (shiftIn (0x30 : Byte) true)).getLsbD 0) ∧
      (running .encodeEos (.emit 0x61 1)).cont = .emit 0x61 (0 + 1) ∧ (running .encodeEos (.emit 0x61 0)).cont = .emit 0x61 0 ∧
      (running .encodeEos (.rawByte 0 0 .exh)).cont = .rawByte 0 0 .exh ∧
      (running .encodeEos (.rawByte 1 0 .exh)).cont = .rawByte 1 0 .exh :=
  ⟨rfl, rfl, eachRead, rfl, rfl, by decide, by decide, eachWrite _, rfl, rfl, rfl, rfl⟩

theorem witness_EncodeEosEncodesItsInput :
    let s := { acceptedWith .encodeEos [0x61, 0x62] with codes := codesT1 }
    Ready s ∧ s.codes.valid = true ∧ inBits s.inp = bytesBits [0x61, 0x62] ∧ s.inp.rdCnt.toNat ≤ 8 ∧ s.inp.eos = true ∧
      (∀ v ∈ [(0x61 : Byte), 0x62], symGet s.codes.len v ≠ 0) ∧
      outRoom s.ext.params.outCap ([(0x61 : Byte), 0x62].map fun v => (symGet s.codes.len v).toNat).sum s.out :=
  ⟨⟨rfl, rfl⟩, rfl, by decide, by decide, rfl, by decide, by unfold outRoom; decide⟩

theorem witness_DecodeSymUnitSteps :
    base.arena.valid = false ∧ mixed.valid = true ∧ EachRead ∧
      nodeAt mixed.nodes 3 = some (.internal 2 0 0) ∧ nodeAt mixed.nodes (if true then 0 else 2) = some (.leaf 1) ∧
      nodeAt mixed.nodes (if false then 0 else 2) = some (.internal 0 1 0) ∧ nodeAt treeT5.nodes 0 = some (.leaf 0x78) ∧
      (running .decodeSym (.walk 3 false 0 (.bit true))).cont = .walk 3 false 0 (.bit true) ∧
      (running .decodeSym (.walk 0 false 0 (.bit false))).cont = .walk 0 false 0 (.bit false) ∧
      (running .decodeSym (.walk 3 true 0 .exh)).cont = .walk 3 true 0 .exh :=
  ⟨rfl, rfl, eachRead, by decide, by decide, by decide, by decide, rfl, rfl, rfl⟩

theorem witness_DecodeSymReadsOneCode :
    ∃ (s : State) (T : CodeTree) (ix : List NodeIdx) (v : Byte) (p rest : List Bool), Ready s ∧ s.arena.valid = true ∧
      Holds s.arena.nodes T s.arena.root ix ∧ (v, p) ∈ T.codes ∧ inBits s.inp = p ++ rest ∧ s.inp.rdCnt.toNat ≤ 8 :=
  ⟨{ acceptedWith .decodeSym [0x80] with arena := treeT1 }, .node (.leaf 0x62) (.leaf 0x61), [2, 0, 1], 0x61, [true],
    List.replicate 7 false, ⟨rfl, rfl⟩, rfl, holds_T1, by decide, by decide, by decide⟩

/-- The clauses of a written symbol at SYMCNT = N exactly and at SYMCNT = N − 1. -/
theorem witness_DecodeNUnitSteps :
    base.arena.valid = false ∧ mixed.valid = true ∧ base.regs.arg0 = 0 ∧ (withArg 1 base).regs.arg0 ≠ 0 ∧
      AtFirstStep (accepted .decodeN) ∧ AtFirstStep { running .decodeN .heldStart with inp := oneBit } ∧ (running .decodeN .heldStart).cont = .heldStart ∧
      readBit base.inp = .hold ∧ EachRead ∧
      nodeAt mixed.nodes 3 = some (.internal 2 0 0) ∧ nodeAt mixed.nodes (if true then 0 else 2) = some (.leaf 1) ∧
      nodeAt mixed.nodes (if false then 0 else 2) = some (.internal 0 1 0) ∧ nodeAt treeT5.nodes 0 = some (.leaf 0x78) ∧
      EachWrite ((0x78 : Byte).getLsbD 7) ∧
      (running .decodeN (.walk 0 false 1 (.bit true))).cont = .walk 0 false 1 (.bit true) ∧
      (running .decodeN (.outSym 0x61 1 1)).cont = .outSym 0x61 (0 + 1) 1 ∧ base.symcnt = 0 ∧
      (running .decodeN (.outSym 0x61 0 1)).cont = .outSym 0x61 0 1 ∧ (1 : Word) ≤ 0 + 1 ∧
      (running .decodeN (.outSym 0x61 0 2)).cont = .outSym 0x61 0 2 ∧ (0 : Word) + 1 < 2 ∧
      (running .decodeN (.walk 3 false 1 .exh)).cont = .walk 3 false 1 .exh :=
  ⟨rfl, rfl, rfl, by decide, .inl rfl, .inr ⟨rfl, by decide⟩, rfl, by decide, eachRead, by decide, by decide, by decide, by decide, eachWrite _, rfl, rfl,
    rfl, rfl, by decide, rfl, by decide, rfl⟩

/-- Two symbols under a single-leaf root, and the same after a hold during which ARG0 was written. -/
theorem witness_DecodeNReadsItsCount :
    ∃ (s : State) (T : CodeTree) (ix : List NodeIdx) (l : List (Byte × List Bool)) (rest : List Bool), AtFirstStep s ∧
      s.stat.abortReq = false ∧ s.arena.valid = true ∧ Holds s.arena.nodes T s.arena.root ix ∧ (∀ e ∈ l, e ∈ T.codes) ∧
      s.regs.arg0.toNat = l.length ∧ inBits s.inp = l.flatMap Prod.snd ++ rest ∧ s.inp.rdCnt.toNat ≤ 8 ∧
      outRoom s.ext.params.outCap (8 * l.length) s.out ∧ AtFirstStep { s with cont := .heldStart } :=
  ⟨withArg 2 { acceptedWith .decodeN [0x00] with arena := treeT5 }, .leaf 0x78, [0], [(0x78, [false]), (0x78, [false])],
    List.replicate 6 false, .inl rfl, rfl, rfl, holds_T5, by decide, by decide, by decide, by decide,
    by unfold outRoom; decide, .inr ⟨rfl, by decide⟩⟩

theorem witness_DecodeEosUnitSteps :
    base.arena.valid = false ∧ mixed.valid = true ∧ EachRead ∧
      nodeAt mixed.nodes 3 = some (.internal 2 0 0) ∧ nodeAt mixed.nodes (if true then 0 else 2) = some (.leaf 1) ∧
      nodeAt mixed.nodes (if false then 0 else 2) = some (.internal 0 1 0) ∧ nodeAt treeT5.nodes 0 = some (.leaf 0x78) ∧
      EachWrite ((0x78 : Byte).getLsbD 7) ∧
      (running .decodeEos (.walk 0 false 0 (.bit false))).cont = .walk 0 false 0 (.bit false) ∧
      (running .decodeEos (.outSym 0x62 7 0)).cont = .outSym 0x62 (6 + 1) 0 ∧
      (running .decodeEos (.outSym 0x62 0 0)).cont = .outSym 0x62 0 0 ∧
      (running .decodeEos (.walk 3 false 0 .exh)).cont = .walk 3 false 0 .exh ∧
      (running .decodeEos (.walk 3 true 0 .exh)).cont = .walk 3 true 0 .exh :=
  ⟨rfl, rfl, eachRead, by decide, by decide, by decide, by decide, eachWrite _, rfl, rfl, rfl, rfl, rfl⟩

/-- Four codes and one bit of a fifth in one byte under `mixed`. -/
theorem witness_DecodeEosDecodesToTheEnd :
    ∃ (s : State) (T : CodeTree) (ix : List NodeIdx) (l : List (Byte × List Bool)) (last : Byte × List Bool)
      (tail : List Bool), Ready s ∧ s.arena.valid = true ∧ Holds s.arena.nodes T s.arena.root ix ∧ (∀ e ∈ l, e ∈ T.codes) ∧
      last ∈ T.codes ∧ tail <+: last.2 ∧ tail ≠ last.2 ∧ tail = [false] ∧ inBits s.inp = l.flatMap Prod.snd ++ tail ∧
      s.inp.rdCnt.toNat ≤ 8 ∧ s.inp.eos = true ∧ s.stat.partialCode = false ∧
      outRoom s.ext.params.outCap (8 * l.length) s.out ∧ 0 < l.length :=
  ⟨{ acceptedWith .decodeEos [0b10001010] with arena := mixed }, .node (.node (.leaf 1) (.leaf 2)) (.leaf 1), [3, 2, 0, 1, 0],
    [(1, [true]), (1, [false, false]), (2, [false, true]), (2, [false, true])], (2, [false, true]), [false],
    ⟨rfl, rfl⟩, rfl, readTree_holds (k := 3) (by decide), by decide, by decide, by decide, by decide, rfl, by decide, by decide,
    rfl, rfl, by unfold outRoom; decide, by decide⟩

theorem witness_ReadBitTakesTheNextBit :
    oneBit.rdCnt.toNat ≤ 8 ∧ inBits oneBit = true :: [] ∧ (8 : BitVec 4).toNat ≤ 8 ∧
      { oneBit with rdCnt := 8 }.rdCnt ≠ 0 ∧ BitReader.empty.rdCnt = 0 ∧
      { BitReader.empty with fifo := [0x80] }.fifo = 0x80 :: [] := by decide

theorem witness_WriteBitAppendsTheBit :
    (writeBit 4 true { BitWriter.empty with wrCnt := 7 }).isSome = true ∧ (writeBit 4 true BitWriter.empty).isSome = true ∧
      writeBit 4 true fullOut = none := by decide

theorem witness_PutBitsUnitSteps :
    bitCountLegal 0 = false ∧ bitCountLegal 33 = false ∧ bitCountLegal 32 = true ∧ (32 : BitVec 6).toNat = 31 + 1 ∧
      (accepted (.putBits 32)).cont = .start ∧ EachWrite ((0xA5 : Word).getLsbD 31) ∧
      (running (.putBits 2) (.putBits 3 1)).cont = .putBits 3 (0 + 1) ∧ (running (.putBits 2) (.putBits 3 0)).cont = .putBits 3 0 :=
  ⟨by decide, by decide, by decide, by decide, rfl, eachWrite _, rfl, rfl⟩

/-- A full field of 32 bits. -/
theorem witness_PutBitsWritesTheField :
    bitCountLegal 32 = true ∧ Ready (accepted (.putBits 32)) ∧
      outRoom (accepted (.putBits 32)).ext.params.outCap (32 : BitVec 6).toNat (accepted (.putBits 32)).out :=
  ⟨by decide, ⟨rfl, rfl⟩, by unfold outRoom; decide⟩

theorem witness_GetBitsUnitSteps :
    bitCountLegal 0 = false ∧ bitCountLegal 33 = false ∧ bitCountLegal 32 = true ∧ (accepted (.getBits 32)).cont = .start ∧
      EachRead ∧ (running (.getBits 2) (.getBits 0 0 (.bit true))).cont = .getBits 0 0 (.bit true) ∧ 0 + 1 ≠ (2 : BitVec 6).toNat ∧
      31 + 1 = (32 : BitVec 6).toNat ∧ (running (.getBits 2) (.getBits 1 1 .exh)).cont = .getBits 1 1 .exh :=
  ⟨by decide, by decide, by decide, rfl, eachRead, rfl, by decide, by decide, rfl⟩

/-- Vectors B6 and B8. -/
theorem witness_GetBitsReadsTheField :
    bitCountLegal 32 = true ∧ bitCountLegal 12 = true ∧ Ready (acceptedWith (.getBits 32) [0x12, 0x34, 0x56, 0x78]) ∧
      inBits (acceptedWith (.getBits 32) [0x12, 0x34, 0x56, 0x78]).inp = bytesBits [0x12, 0x34, 0x56, 0x78] ++ [] ∧
      (bytesBits [0x12, 0x34, 0x56, 0x78]).length = (32 : BitVec 6).toNat ∧ Ready (acceptedWith (.getBits 12) [0x12]) ∧
      (inBits (acceptedWith (.getBits 12) [0x12]).inp).length < (12 : BitVec 6).toNat ∧
      (acceptedWith (.getBits 12) [0x12]).inp.eos = true :=
  ⟨by decide, by decide, ⟨rfl, rfl⟩, by decide, by decide, ⟨rfl, rfl⟩, by decide, rfl⟩

/-- From the start, and after a padding bit. -/
theorem witness_FlushPadsWithZeros :
    let s := { accepted .flush with out := { base.out with wrAcc := 5, wrCnt := 3, wrBits := 3 } }
    (accepted .flush).stat.abortReq = false ∧ (accepted .flush).cont = .start ∧ (accepted .flush).out.wrCnt = 0 ∧
      (running .flush .flush).cont = .flush ∧ s.cont = .start ∧ s.out.wrCnt ≠ 0 ∧ EachWrite false ∧
      outRoom s.ext.params.outCap ((8 - s.out.wrCnt.toNat) % 8) s.out :=
  ⟨rfl, rfl, rfl, rfl, rfl, by decide, eachWrite _, by unfold outRoom; decide⟩

theorem witness_NopAndStreamReset : (accepted .nop).stat.abortReq = false := rfl

theorem witness_OnlyNamedCommandsWriteRegisters : ∃ t, exec .freqClear base = .next t := ⟨_, rfl⟩

theorem witness_OnlyNamedCommandsWriteTablesAndCursors :
    (∃ t, exec .heapSize (withHeap heapH1' base) = .next t) ∧ ∃ t, exec (.streamReset true false) base = .next t :=
  ⟨⟨_, rfl⟩, _, rfl⟩

theorem witness_TreeIsReadOnlyWhileValid :
    ∃ s t, s.arena.valid = true ∧ step s = .next t ∧ t.arena ≠ s.arena :=
  ⟨{ accepted .treeClear with arena := treeT1 }, complete { accepted .treeClear with arena := Arena.empty }, rfl, rfl, by decide⟩

theorem witness_SoundnessKeptByEveryStep : ∃ s t, Sound s ∧ step s = .next t ∧ t.stat.done = true :=
  ⟨accepted .nop, complete (accepted .nop), sound_nop, rfl, rfl⟩

/-- A sound state whose engine runs, and one with a malformed access at the head of the agenda. -/
theorem witness_SoundStepNeverFaults :
    (∃ s, Sound s ∧ s.stat.busy = true) ∧ ∃ s, Sound s ∧ s.ext.agenda = .read 8 0x000#14 :: [] ∧ (8 ≠ 32) :=
  ⟨⟨_, sound_nop, rfl⟩, withAgenda [.read 8 0x000] (accepted .nop),
    ⟨sound_nop.engine, let r := sound_nop.range; ⟨r.1, r.2, r.3, r.4, r.5, r.6, r.7, r.8, r.9, r.10⟩, sound_nop.arena⟩, rfl, by decide⟩

theorem witness_ResetGivesEveryResetValue :
    let a := { accepted .nop with ext := { base.ext with resetIn := true } }
    (withAgenda [.resetPin true] (accepted .nop)).ext.agenda = .resetPin true :: [] ∧ (accepted .nop).ext.resetIn = false ∧
      (withAgenda [.write 32 0x004 0xFFFFFFFF] (accepted .nop)).ext.agenda = .write 32 0x004#14 0xFFFFFFFF :: [] ∧
      (0xFFFFFFFF : Word).getLsbD 3 = true ∧ a.ext.resetIn = true ∧ (∃ t, step a = .next t) ∧
      (withAgenda [.write 32 0x00C 0] a).ext.agenda = .write 32 0x00C#14 0 :: [] ∧ (0x00C#14).toNat % 4 = 0 ∧
      (withAgenda [.resetPin false] a).ext.agenda = .resetPin false :: [] :=
  ⟨rfl, rfl, rfl, by decide, rfl, ⟨resetBlock { accepted .nop with ext := { base.ext with resetIn := true } }, rfl⟩, rfl, by decide, rfl⟩

theorem witness_CmdWriteAcceptsOrDrops :
    base.ext.resetIn = false ∧ (withAgenda [.write 32 0x00C 0] base).ext.agenda = .write 32 0x00C#14 0 :: [] ∧ base.stat.busy = false ∧
      (accepted .nop).stat.busy = true := by decide

theorem witness_ControlWritesDoWhatTheirBitsSay :
    base.ext.resetIn = false ∧ (withAgenda [.write 32 0x004 0xFFFFFFF7] base).ext.agenda = .write 32 0x004#14 0xFFFFFFF7 :: [] ∧
      (0xFFFFFFF7 : Word).getLsbD 3 = false ∧
      (withAgenda [.write 32 0x008 0x602] base).ext.agenda = .write 32 0x008#14 0x602 :: [] ∧
      (withAgenda [.write 32 0x010 7] base).ext.agenda = .write 32 0x010#14 7 :: [] ∧
      (decode (accepted .decodeN).regs.curCmd = .ok .decodeN ∧ (accepted .decodeN).cont = .start ∧
        held (withArg 2 { accepted .decodeN with arena := treeT1 }) = true) ∧ held base = false := by decide

/-- IN_LEVEL one below IN_DEPTH, and IN_LEVEL = IN_DEPTH. -/
theorem witness_FifoPortsPushAndPop :
    base.ext.resetIn = false ∧ (withAgenda [.write 32 0x048 0x80] base).ext.agenda = .write 32 0x048#14 0x80 :: [] ∧ base.inp.eos = false ∧
      [(0 : Byte), 0, 0].length < base.ext.params.inCap ∧ [(0 : Byte), 0, 0, 0].length = base.ext.params.inCap ∧
      (withAgenda [.read 32 0x04C] base).ext.agenda = .read 32 0x04C#14 :: [] ∧ base.out.fifo = [] ∧
      ({ base with out := { base.out with fifo := [0xA5] } }).out.fifo = 0xA5 :: [] := by decide

theorem inRange_nop : InRange (accepted .nop) := sound_nop.range

/-- An exact register, a register that is exact when idle only, the edges of the offsets that are unmapped, and the first and
last offsets that are unspecified while BUSY = 1. -/
theorem witness_ReadsAreExactWhenIdleAndFreeWhenBusy :
    (accepted .nop).ext.resetIn = false ∧ InRange (accepted .nop) ∧ (accepted .nop).stat.busy = true ∧
      base.stat.busy = false ∧ (withAgenda [.read 32 0x014] (accepted .nop)).ext.agenda = .read 32 0x014#14 :: [] ∧
      ((0x014#14).toNat % 4 = 0 ∧ (0x014#14).toNat < 0x058) ∧
      ((0x058#14).toNat % 4 = 0 ∧ 0x058 ≤ (0x058#14).toNat ∧ (0x3FC#14).toNat < 0x400 ∧ 0x2800 ≤ (0x2800#14).toNat) ∧
      ((0x400#14).toNat % 4 = 0 ∧ 0x400 ≤ (0x400#14).toNat ∧ (0x27FC#14).toNat < 0x2800) :=
  ⟨rfl, inRange_nop, rfl, rfl, rfl, by decide, by decide, by decide⟩

/-- The last entry of each window, with the two kinds of node, an entry of each kind, and what does not exist. -/
theorem witness_WindowsShowTheTables :
    let s := { withHeap heapH1' base with arena := treeT1 }
    s.ext.resetIn = false ∧ s.stat.busy = false ∧
      (withAgenda [.read 32 0x1008] s).ext.agenda = .read 32 0x1008#14 :: [] ∧
      (0x7FC#14).toNat = 0x400 + 4 * (255 : Byte).toNat ∧ (0xBFC#14).toNat = 0x800 + 4 * (255 : Byte).toNat ∧
      (0xFFC#14).toNat = 0xC00 + 4 * (255 : Byte).toNat ∧ (0x17F8#14).toNat = 0x1000 + 4 * (510 : NodeIdx).toNat ∧
      (0x1FF8#14).toNat = 0x1800 + 4 * (510 : NodeIdx).toNat ∧ (0x23FC#14).toNat = 0x2000 + 4 * (255 : Byte).toNat ∧
      (0x27FC#14).toNat = 0x2400 + 4 * (255 : Byte).toNat ∧ nodeAt s.arena.nodes 1 = some (.leaf 0x61) ∧
      nodeAt s.arena.nodes 2 = some (.internal 0 1 4) ∧ s.arena.nodes.length ≤ (3 : NodeIdx).toNat ∧
      s.heap.entries[(3 : Byte).toNat]? = some ⟨5, false, 0x61⟩ ∧ s.heap.entries.length ≤ (4 : Byte).toNat := by decide

theorem witness_IllegalAccessRefusedAndStrayWriteIgnored :
    base.ext.resetIn = false ∧
    (withAgenda [.read 8 0x000] base).ext.agenda = .read 8 0x000#14 :: [] ∧ (8 ≠ 32 ∨ (0x000#14).toNat % 4 ≠ 0) ∧
      (withAgenda [.write 32 0x006 0] base).ext.agenda = .write 32 0x006#14 0 :: [] ∧ (0x006#14).toNat % 4 ≠ 0 ∧
      (withAgenda [.write 32 0x3FFC 1] base).ext.agenda = .write 32 0x3FFC#14 1 :: [] ∧ (0x3FFC#14).toNat % 4 = 0 := by decide

end Sys2Proof.Tests
end

section
/-! SUPPORT. What one step of the machine can do, said once (20_memory.md R82, R91): the engine's turn, the host's accesses
and the resets; and what every step keeps if each of these keeps it. -/

namespace Sys2Proof.Machine

/-! ## The engine's turn -/

/-- The only unit step of an illegal word is an error, of the abort or of the word itself (60_exceptions.md R225, R232). -/
theorem execIllegal_raises (s : State) : ∃ e info, execIllegal s = .next (raise e info s) := by
  cases ha : s.stat.abortReq
  · exact ⟨.illegal, s.regs.curCmd, by simp [execIllegal, unitStep, ha, workIllegal]⟩
  · exact ⟨.abort, 0, by simp [execIllegal, unitStep, ha]⟩

/-- An idle engine stays, a busy one takes a unit step of its command or ends an illegal word. -/
theorem engineTurn_cases {s t : State} (h : engineTurn s = .next t) :
    s.stat.busy = false ∧ t = s ∨
      s.stat.busy = true ∧ (∃ i, decode s.regs.curCmd = .ok i ∧ exec i s = .next t) ∨
      s.stat.busy = true ∧ ∃ e info, t = raise e info s := by
  unfold engineTurn at h
  split at h
  · next hb =>
    split at h
    · exact .inr (.inl ⟨hb, _, ‹_›, h⟩)
    · obtain ⟨e, info, he⟩ := execIllegal_raises s
      rw [he] at h
      cases h
      exact .inr (.inr ⟨hb, e, info, rfl⟩)
  · next hb =>
    cases h
    exact .inl ⟨by simpa using hb, rfl⟩

/-- The engine has the turn, and `a` is the agenda after it (assumptions 3 and 15). -/
def EngineHasTurn (s : State) (a : List Turn) : Prop :=
  s.ext.agenda = [] ∧ a = [] ∨ s.ext.agenda = .engine :: a ∨
    (∃ rest, s.ext.agenda = .wait :: rest) ∧ s.stat.done = false ∧ a = s.ext.agenda

/-! ## Host accesses -/

theorem accessLegal_iff (width : Nat) (off : BitVec 14) :
    accessLegal width off = true ↔ width = 32 ∧ off.toNat % 4 = 0 := by
  simp [accessLegal]

theorem hostRead_next {width : Nat} {off : BitVec 14} {s t : State} (h : hostRead width off s = .next t) :
    width = 32 ∧ off.toNat % 4 = 0 ∧ t = returnWord (readReg (regAt off) s) := by
  unfold hostRead at h
  split at h
  · next ha =>
    cases h
    exact ⟨((accessLegal_iff _ _).1 ha).1, ((accessLegal_iff _ _).1 ha).2, rfl⟩
  · cases h

theorem hostWrite_next {width : Nat} {off : BitVec 14} {v : Word} {s t : State} (h : hostWrite width off v s = .next t) :
    width = 32 ∧ off.toNat % 4 = 0 ∧ t = writeReg (regAt off) v s := by
  unfold hostWrite at h
  split at h
  · next ha =>
    cases h
    exact ⟨((accessLegal_iff _ _).1 ha).1, ((accessLegal_iff _ _).1 ha).2, rfl⟩
  · cases h

/-- A legal host write is its effect on the register (20_memory.md R61, R65). -/
theorem hostWrite_legal {off : BitVec 14} (v : Word) (s : State) (h : off.toNat % 4 = 0) :
    hostWrite 32 off v s = .next (writeReg (regAt off) v s) := by
  simp [hostWrite, accessLegal, h]

/-- The only side effects of a read are a pop of the output FIFO and a drawn value (20_memory.md R65, R67, R68). -/
theorem readReg_state (r : Reg) (s : State) :
    (readReg r s).2 = s ∨ (readReg r s).2 = (drawRead s).2 ∨
      (readReg r s).2 = { s with out := { s.out with fifo := s.out.fifo.tail } } := by
  have pop : (popOut s).2 = { s with out := { s.out with fifo := s.out.fifo.tail } } := by
    unfold popOut
    split
    · next h => rw [h]; rfl
    · next h => obtain ⟨_, _, _, _, _, _, _, ⟨_, _, _, _⟩, _, _, _⟩ := s; cases h; rfl
  unfold readReg
  split
  · exact .inr (.inl rfl)
  · cases r
    case inData => exact .inr (.inl rfl)
    case outData => exact .inr (.inr pop)
    all_goals exact .inl rfl

/-- A host read changes at most the output FIFO, by a pop, and what lies outside the block, not the parameters. -/
theorem returnWord_readReg (r : Reg) (s : State) :
    ∃ f e, (f = s.out.fifo ∨ f = s.out.fifo.tail) ∧ e.params = s.ext.params ∧
      returnWord (readReg r s) = { s with out := { s.out with fifo := f }, ext := e } := by
  let e : Outside := (returnWord (readReg r s)).ext
  have he : returnWord (readReg r s) = { (readReg r s).2 with ext := e } := rfl
  have hp : e.params = (readReg r s).2.ext.params := rfl
  rw [he]
  rcases readReg_state r s with h | h | h <;> rw [h] at hp ⊢
  · exact ⟨_, e, .inl rfl, hp, rfl⟩
  · exact ⟨_, e, .inl rfl, hp, rfl⟩
  · exact ⟨_, e, .inr rfl, hp, rfl⟩

theorem writeReg_ctrl (v : Word) (s : State) :
    writeReg .ctrl v s = if v.getLsbD 3 then resetBlock s else writeCtrl v s := rfl

/-- What a host write can do (20_memory.md R65). -/
theorem writeReg_cases (r : Reg) (v : Word) (s : State) :
    writeReg r v s = s ∨ r = .ctrl ∧ v.getLsbD 3 = true ∧ writeReg r v s = resetBlock s ∨
      writeReg r v s = writeCtrl v s ∨ writeReg r v s = writeStatus v s ∨ writeReg r v s = writeCmd v s ∨
      writeReg r v s = writeArg v s ∨ writeReg r v s = pushIn v s := by
  cases r
  case ctrl =>
    rw [writeReg_ctrl]
    split
    · exact .inr (.inl ⟨rfl, ‹_›, rfl⟩)
    · exact .inr (.inr (.inl rfl))
  case status | cmd | arg0 | inData => simp [writeReg]
  all_goals exact .inl rfl

/-! ## Turns -/

/-- What a turn can be while the reset input is deasserted. -/
theorem runTurn_cases {s t : State} (h : runTurn s = .next t) :
    (∃ a, EngineHasTurn s a ∧ engineTurn (withAgenda a s) = .next t) ∨ (∃ rest, t = withAgenda rest s) ∨
      (∃ off rest, s.ext.agenda = .read 32 off :: rest ∧ t = returnWord (readReg (regAt off) (withAgenda rest s))) ∨
      (∃ off v rest, s.ext.agenda = .write 32 off v :: rest ∧ off.toNat % 4 = 0 ∧
        t = writeReg (regAt off) v (withAgenda rest s)) ∨
      ∃ level rest, s.ext.agenda = .resetPin level :: rest ∧ t = setResetPin level (withAgenda rest s) := by
  unfold runTurn at h
  split at h
  · next ha => exact .inl ⟨_, .inl ⟨ha, ha⟩, h⟩
  · next ha => exact .inl ⟨_, .inr (.inl ha), h⟩
  · next rest ha =>
    split at h
    · cases h; exact .inr (.inl ⟨_, rfl⟩)
    · next hd => exact .inl ⟨_, .inr (.inr ⟨⟨rest, ha⟩, by simpa using hd, rfl⟩), h⟩
  · next ha =>
    obtain ⟨rfl, -, ht⟩ := hostRead_next h
    exact .inr (.inr (.inl ⟨_, _, ha, ht⟩))
  · next ha =>
    obtain ⟨rfl, h4, ht⟩ := hostWrite_next h
    exact .inr (.inr (.inr (.inl ⟨_, _, _, ha, h4, ht⟩)))
  · next ha =>
    cases h
    exact .inr (.inr (.inr (.inr ⟨_, _, ha, rfl⟩)))

/-- A reset state stays one under a read: there is no byte to pop. -/
theorem returnWord_readReg_reset (r : Reg) (s : State) :
    ∃ e, returnWord (readReg r (resetBlock s)) = { State.reset with ext := e } := by
  obtain ⟨f, e, hf, -, h⟩ := returnWord_readReg r (resetBlock s)
  have hf : f = [] := hf.elim id id
  exact ⟨e, by rw [h, hf]; rfl⟩

/-- While the reset input is asserted every turn leaves the block at its reset values (70_reset_and_hazards.md R260). -/
theorem resetTurn_next {s t : State} (h : resetTurn s = .next t) : ∃ e, t = { State.reset with ext := e } := by
  unfold resetTurn at h
  split at h
  · cases h; exact ⟨_, rfl⟩
  · cases h; exact ⟨_, rfl⟩
  · cases h; exact ⟨_, rfl⟩
  · obtain ⟨-, -, rfl⟩ := hostRead_next h
    exact returnWord_readReg_reset _ _
  · split at h <;> cases h
    exact ⟨_, rfl⟩
  · next level rest _ =>
    cases h
    cases level <;> exact ⟨_, rfl⟩

/-! ## What every step keeps -/

/-- The turns that are no unit step of a command keep `P`: resets, the host's accesses, and the end of an illegal word. -/
structure KeptByHost (P : State → Prop) : Prop where
  ext : ∀ s e, e.params = s.ext.params → P s → P { s with ext := e }
  reset : ∀ e, P { State.reset with ext := e }
  pop : ∀ s, P s → P { s with out := { s.out with fifo := s.out.fifo.tail } }
  ctrl : ∀ v s, P s → P (writeCtrl v s)
  status : ∀ v s, P s → P (writeStatus v s)
  cmd : ∀ v s, P s → P (writeCmd v s)
  arg : ∀ v s, P s → P (writeArg v s)
  push : ∀ v s, P s → P (pushIn v s)
  illegal : ∀ e info s, P s → P (raise e info s)

theorem KeptByHost.read {P : State → Prop} (k : KeptByHost P) (r : Reg) {s : State} (h : P s) :
    P (returnWord (readReg r s)) := by
  obtain ⟨f, e, hf, he, h'⟩ := returnWord_readReg r s
  rw [h']
  rcases hf with rfl | rfl
  · exact k.ext s e he h
  · exact k.ext { s with out := { s.out with fifo := s.out.fifo.tail } } e he (k.pop s h)

theorem KeptByHost.write {P : State → Prop} (k : KeptByHost P) (r : Reg) (v : Word) {s : State} (h : P s) :
    P (writeReg r v s) := by
  rcases writeReg_cases r v s with e | ⟨-, -, e⟩ | e | e | e | e | e <;> rw [e]
  · exact h
  · exact k.reset _
  · exact k.ctrl v s h
  · exact k.status v s h
  · exact k.cmd v s h
  · exact k.arg v s h
  · exact k.push v s h

/-- What the host's turns and every unit step of a command keep is kept by every step. -/
theorem step_keeps {P : State → Prop} (k : KeptByHost P)
    (hexec : ∀ i s t, s.stat.busy = true → decode s.regs.curCmd = .ok i → P s → exec i s = .next t → P t)
    {s t : State} (h : P s) (hst : step s = .next t) : P t := by
  have hag : ∀ a, P (withAgenda a s) := fun a => k.ext s _ rfl h
  unfold step takeTurn at hst
  split at hst
  · obtain ⟨e, rfl⟩ := resetTurn_next hst
    exact k.reset e
  · rcases runTurn_cases hst with ⟨a, -, he⟩ | ⟨a, rfl⟩ | ⟨off, a, -, rfl⟩ | ⟨off, v, a, -, -, rfl⟩ | ⟨level, a, -, rfl⟩
    · rcases engineTurn_cases he with ⟨-, rfl⟩ | ⟨hb, i, hd, hx⟩ | ⟨-, e, info, rfl⟩
      · exact hag a
      · exact hexec i _ t hb hd (hag a) hx
      · exact k.illegal e info _ (hag a)
    · exact hag a
    · exact k.read _ (hag a)
    · exact k.write _ v (hag a)
    · cases level
      · exact k.ext _ _ rfl (hag a)
      · exact k.reset _

end Sys2Proof.Machine
end

section
/-! SUPPORT. The frame of every command: what the work of its unit steps can change (`touched`), and which of the two cursors
its bit operations move (10_state.md R21 to R38, 20_memory.md R77). -/

namespace Sys2Proof.Machine

/-! ## What a command touches -/

/-- `s` with the fields that the work of `i` may change taken from `u`. -/
def touched : Instr → State → State → State
  | .nop, s, _ | .serializeTree, s, _ | .putBits _, s, _ | .flush, s, _ => s
  | .heapCreate, s, u | .heapDestroy, s, u | .heapAdd _ _, s, u => { s with heap := u.heap }
  | .heapRemove, s, u =>
    { s with heap := u.heap, regs := { s.regs with res0 := u.regs.res0, res1 := u.regs.res1 } }
  | .heapSize, s, u | .getBits _, s, u => { s with regs := { s.regs with res0 := u.regs.res0 } }
  | .freqClear, s, u | .freqCount, s, u => { s with freq := u.freq }
  | .buildTree, s, u => { s with arena := u.arena, heap := u.heap }
  | .treeClear, s, u | .deserializeTree, s, u => { s with arena := u.arena }
  | .buildCodes, s, u => { s with codes := u.codes }
  | .encodeSym _, s, u | .encodeEos, s, u | .decodeN, s, u => { s with symcnt := u.symcnt }
  | .decodeSym, s, u => { s with symcnt := u.symcnt, regs := { s.regs with res0 := u.regs.res0 } }
  | .decodeEos, s, u => { s with symcnt := u.symcnt, stat := { s.stat with partialCode := u.stat.partialCode } }
  | .streamReset o j, s, u => { s with inp := if j then u.inp else s.inp, out := if o then u.out else s.out }

theorem touched_self (i : Instr) (s : State) : s = touched i s s := by
  cases i with
  | streamReset o j => cases o <;> cases j <;> rfl
  | _ => rfl

/-- The commands whose unit steps read bits (20_memory.md R71). -/
def readsInput : Instr → Bool
  | .freqCount | .deserializeTree | .encodeEos | .decodeSym | .decodeN | .decodeEos | .getBits _ => true
  | .nop | .heapCreate | .heapDestroy | .heapAdd _ _ | .heapRemove | .heapSize | .freqClear | .buildTree | .treeClear
  | .buildCodes | .serializeTree | .encodeSym _ | .putBits _ | .flush | .streamReset _ _ => false

/-- The commands whose unit steps write bits (20_memory.md R73). -/
def writesOutput : Instr → Bool
  | .serializeTree | .encodeSym _ | .encodeEos | .decodeN | .decodeEos | .putBits _ | .flush => true
  | .nop | .heapCreate | .heapDestroy | .heapAdd _ _ | .heapRemove | .heapSize | .freqClear | .freqCount | .buildTree
  | .treeClear | .buildCodes | .deserializeTree | .decodeSym | .getBits _ | .streamReset _ _ => false

/-- The work `w` of a unit step of `i` from `s` changes only what `i` touches, and its bit operation is one of `i`. -/
def Work.Within (i : Instr) (s : State) : Work → Prop
  | .finish u | .fail _ _ u => u = touched i s u
  | .read u _ => u = touched i s u ∧ readsInput i = true
  | .write _ u _ => u = touched i s u ∧ writesOutput i = true
  | .broken _ => True

theorem Work.Within.carries {i : Instr} {s u : State} {w : Work} (h : w.Within i s) (hu : w.carries u) :
    u = touched i s u := by
  cases w <;> simp only [Work.carries] at hu <;> subst hu
  · exact h
  · exact h
  · exact h.1
  · exact h.1

/-! ## The work of each command keeps to its frame -/

theorem emitNext_within {i : Instr} {s t : State} {after : State → Work} (v : Byte) (rem : Nat) (ht : t = touched i s t)
    (hi : writesOutput i = true) (ha : (after t).Within i s) : (emitNext v rem after t).Within i s := by
  cases rem
  · exact ha
  · exact ⟨ht, hi⟩

theorem outNext_within {i : Instr} {s t : State} {after : State → Work} (v : Byte) (rem : Nat) (limit : Word)
    (ht : t = touched i s t) (hi : writesOutput i = true) (ha : (after t).Within i s) :
    (outNext v rem limit after t).Within i s := by
  cases rem
  · exact ha
  · exact ⟨ht, hi⟩

theorem workFreqCount_within (s : State) : (workFreqCount s).Within .freqCount s := by
  unfold workFreqCount
  split
  · exact ⟨rfl, rfl⟩
  · split
    · exact ⟨rfl, rfl⟩
    · exact rfl
    · exact rfl
    · split
      · exact rfl
      · exact ⟨rfl, rfl⟩
  · trivial

theorem workSerializeTree_within (s : State) : (workSerializeTree s).Within .serializeTree s := by
  have visit : ∀ st, (serNext st s).Within .serializeTree s := by
    intro st
    unfold serNext
    split
    · exact rfl
    · split
      · trivial
      · exact ⟨rfl, rfl⟩
      · exact ⟨rfl, rfl⟩
  unfold workSerializeTree
  split
  · split
    · exact rfl
    · exact visit _
  · split
    · exact visit _
    · exact ⟨rfl, rfl⟩
  · trivial

theorem deliver_within (st : List Frame) (n : NodeIdx) (s : State) (ns : List Node) :
    (deliver n st { s with arena := { s.arena with nodes := ns } }).Within .deserializeTree s := by
  induction st generalizing n ns with
  | nil => exact rfl
  | cons f st ih =>
    unfold deliver
    split
    · exact ⟨rfl, rfl⟩
    · exact ih f.node _

theorem workDeserializeTree_within (s : State) : (workDeserializeTree s).Within .deserializeTree s := by
  unfold workDeserializeTree
  split
  · exact ⟨rfl, rfl⟩
  · split
    · split <;> exact rfl
    · unfold desControl
      split
      · exact rfl
      · split <;> exact ⟨rfl, rfl⟩
  · split
    · exact rfl
    · split
      · exact deliver_within _ _ _ _
      · exact ⟨rfl, rfl⟩
  · trivial

theorem workEncodeSym_within (sym : Byte) (s : State) : (workEncodeSym sym s).Within (.encodeSym sym) s := by
  unfold workEncodeSym
  split
  · split
    · exact rfl
    · exact emitNext_within _ _ rfl rfl rfl
  · exact emitNext_within _ _ rfl rfl rfl
  · trivial

theorem workEncodeEos_within (s : State) : (workEncodeEos s).Within .encodeEos s := by
  unfold workEncodeEos
  split
  · split
    · exact rfl
    · exact ⟨rfl, rfl⟩
  · split
    · exact ⟨rfl, rfl⟩
    · exact rfl
    · exact rfl
    · exact emitNext_within _ _ rfl rfl rfl
  · exact emitNext_within _ _ rfl rfl ⟨rfl, rfl⟩
  · trivial

theorem workDecodeSym_within (s : State) : (workDecodeSym s).Within .decodeSym s := by
  unfold workDecodeSym
  split
  · split
    · exact rfl
    · exact ⟨rfl, rfl⟩
  · split
    · exact rfl
    · exact ⟨rfl, rfl⟩
    · exact rfl
    · exact rfl
    · trivial
  · trivial

theorem decodeNLoop_within {s t : State} (limit : Word) (h : t = touched .decodeN s t) :
    (decodeNLoop limit t).Within .decodeN s := by
  unfold decodeNLoop
  split
  · exact ⟨h, rfl⟩
  · exact h

theorem decodeNStart_within (s : State) : (decodeNStart s).Within .decodeN s := by
  unfold decodeNStart
  split
  · exact rfl
  · exact decodeNLoop_within _ rfl

theorem workDecodeN_within (s : State) : (workDecodeN s).Within .decodeN s := by
  unfold workDecodeN
  split
  · exact decodeNStart_within s
  · split
    · exact ⟨rfl, rfl⟩
    · exact decodeNStart_within s
  · split
    · exact outNext_within _ _ _ rfl rfl (decodeNLoop_within _ rfl)
    · exact ⟨rfl, rfl⟩
    · exact rfl
    · exact rfl
    · trivial
  · exact outNext_within _ _ _ rfl rfl (decodeNLoop_within _ rfl)
  · trivial

theorem workDecodeEos_within (s : State) : (workDecodeEos s).Within .decodeEos s := by
  unfold workDecodeEos
  split
  · split
    · exact rfl
    · exact ⟨rfl, rfl⟩
  · split
    · exact outNext_within _ _ _ rfl rfl ⟨rfl, rfl⟩
    · exact ⟨rfl, rfl⟩
    · exact rfl
    · exact rfl
    · trivial
  · exact outNext_within _ _ _ rfl rfl ⟨rfl, rfl⟩
  · trivial

theorem workPutBits_within (n : BitVec 6) (s : State) : (workPutBits n s).Within (.putBits n) s := by
  have next : ∀ v rem, (putNext v rem s).Within (.putBits n) s := by
    intro v rem
    cases rem
    · exact rfl
    · exact ⟨rfl, rfl⟩
  unfold workPutBits
  split
  · exact rfl
  · split
    · exact next _ _
    · exact next _ _
    · trivial

theorem workGetBits_within (n : BitVec 6) (s : State) : (workGetBits n s).Within (.getBits n) s := by
  unfold workGetBits
  split
  · exact rfl
  · split
    · exact ⟨rfl, rfl⟩
    · split
      · exact rfl
      · split
        · exact rfl
        · exact ⟨rfl, rfl⟩
    · trivial

theorem workFlush_within (s : State) : (workFlush s).Within .flush s := by
  unfold workFlush
  split
  · split
    · exact rfl
    · exact ⟨rfl, rfl⟩
  · split
    · exact rfl
    · exact ⟨rfl, rfl⟩
  · trivial

/-- The work of every command keeps to what the command touches. -/
theorem workOf_within (i : Instr) (s : State) : (workOf i s).Within i s := by
  cases i with
  | nop | heapCreate | freqClear | treeClear => exact rfl
  | streamReset o j => cases o <;> cases j <;> exact rfl
  | heapDestroy =>
    change (workHeapDestroy s).Within _ s
    unfold workHeapDestroy
    split <;> exact rfl
  | heapAdd c pay =>
    change (workHeapAdd c pay s).Within _ s
    unfold workHeapAdd
    repeat' split
    all_goals exact rfl
  | heapRemove =>
    change (workHeapRemove s).Within _ s
    unfold workHeapRemove
    repeat' split
    all_goals exact rfl
  | heapSize =>
    change (workHeapSize s).Within _ s
    unfold workHeapSize
    split <;> exact rfl
  | buildTree =>
    change (workBuildTree s).Within _ s
    unfold workBuildTree
    split
    · exact rfl
    · exact rfl
    · exact rfl
    · trivial
  | buildCodes =>
    change (workBuildCodes s).Within _ s
    unfold workBuildCodes
    split
    · exact rfl
    · split
      · exact rfl
      · exact rfl
      · trivial
  | freqCount => exact workFreqCount_within s
  | serializeTree => exact workSerializeTree_within s
  | deserializeTree => exact workDeserializeTree_within s
  | encodeSym sym => exact workEncodeSym_within sym s
  | encodeEos => exact workEncodeEos_within s
  | decodeSym => exact workDecodeSym_within s
  | decodeN => exact workDecodeN_within s
  | decodeEos => exact workDecodeEos_within s
  | putBits n => exact workPutBits_within n s
  | getBits n => exact workGetBits_within n s
  | flush => exact workFlush_within s

/-! ## The frame of a unit step -/

/-- `t` is `u` but for what the end of a unit step of `i` may change: the bits and registers of completion and error
(60_exceptions.md R221, R231), ENGINE_CONT, and the cursors that `i` moves. -/
structure EndsUnit (i : Instr) (u t : State) : Prop where
  regs : t.regs = { u.regs with ecmd := t.regs.ecmd, einfo := t.regs.einfo }
  stat : t.stat = { u.stat with busy := t.stat.busy, done := t.stat.done, err := t.stat.err, ecode := t.stat.ecode }
  heap : t.heap = u.heap
  arena : t.arena = u.arena
  freq : t.freq = u.freq
  codes : t.codes = u.codes
  symcnt : t.symcnt = u.symcnt
  ext : t.ext = u.ext
  inp : readsInput i = false → t.inp = u.inp
  out : writesOutput i = false → t.out = u.out

/-- A release rule changes only what the command touches. -/
theorem releaseOf_touched (i : Instr) (s : State) : releaseOf i s = touched i s (releaseOf i s) := by
  cases i with
  | encodeSym _ | encodeEos | decodeN => exact countWritten_eq s
  | decodeEos => exact (countWritten_eq s).trans (by simp [touched, releaseOf])
  | streamReset o j => exact touched_self _ s
  | _ => rfl

/-- After a unit step of `i` from `s` the state is, but for the end of the step, one that differs from `s` in what `i`
touches. -/
theorem exec_frame {i : Instr} {s t : State} (h : exec i s = .next t) : ∃ u, u = touched i s u ∧ EndsUnit i u t := by
  rw [exec_eq_unitStep] at h
  have hw := workOf_within i s
  rcases unitStep_cases h with ⟨_, rfl⟩ | ⟨_, ⟨_, rfl⟩ | ⟨u, e, rfl⟩ | ⟨_, _, u, e, rfl⟩ | ⟨u, k, e, hb, rfl⟩ |
    ⟨u, k, b, r, e, hb, rfl⟩ | ⟨b, u, c, w, e, hb, rfl⟩⟩
  · refine ⟨if s.cont = .start then s else releaseOf i s, ?_, by constructor <;> simp⟩
    split
    · exact touched_self i s
    · exact releaseOf_touched i s
  · exact ⟨_, touched_self i t, by constructor <;> simp⟩
  all_goals rw [e] at hw
  · exact ⟨u, hw, by constructor <;> simp⟩
  · exact ⟨u, hw, by constructor <;> simp⟩
  · exact ⟨u, hw.1, by constructor <;> simp⟩
  · exact ⟨u, hw.1, by constructor <;> simp [hw.2]⟩
  · exact ⟨u, hw.1, by constructor <;> simp [hw.2]⟩

/-- What neither the end of a unit step nor the work of `i` changes is as it was. -/
theorem exec_keeps {α : Type} (f : State → α) {i : Instr} {s t : State} (h : exec i s = .next t)
    (hends : ∀ u, EndsUnit i u t → f t = f u) (htouched : ∀ u, f (touched i s u) = f s) : f t = f s := by
  obtain ⟨u, hu, he⟩ := exec_frame h
  calc f t = f u := hends u he
    _ = f (touched i s u) := congrArg f hu
    _ = f s := htouched u

section Touched
variable (i : Instr) (s u : State)

@[simp] theorem touched_arg0 : (touched i s u).regs.arg0 = s.regs.arg0 := by cases i <;> rfl
@[simp] theorem touched_curCmd : (touched i s u).regs.curCmd = s.regs.curCmd := by cases i <;> rfl
@[simp] theorem touched_stat :
    (touched i s u).stat = { s.stat with partialCode := (touched i s u).stat.partialCode } := by cases i <;> rfl
@[simp] theorem touched_ext : (touched i s u).ext = s.ext := by cases i <;> rfl

end Touched

/-- Settles O47: each register of the frame is outside what the command touches and what ends its unit step. -/
theorem onlyNamedCommandsWriteRegisters : Obligations.OnlyNamedCommandsWriteRegisters := by
  intro i s t h
  refine ⟨?_, ?_, ?_, ?_, ?_, ?_, ?_, fun h1 h2 h3 h4 => ?_, fun h1 => ?_, fun h1 h2 h3 h4 h5 => ?_, fun h1 => ?_⟩
  · exact exec_keeps (·.regs.arg0) h (fun u e => by rw [e.regs]) (touched_arg0 i s)
  · exact exec_keeps (·.regs.curCmd) h (fun u e => by rw [e.regs]) (touched_curCmd i s)
  · exact exec_keeps (·.stat.ie) h (fun u e => by rw [e.stat]) (fun u => by rw [touched_stat])
  · exact exec_keeps (·.stat.cmdOvr) h (fun u e => by rw [e.stat]) (fun u => by rw [touched_stat])
  · exact exec_keeps (·.stat.inOvf) h (fun u e => by rw [e.stat]) (fun u => by rw [touched_stat])
  · exact exec_keeps (·.stat.abortReq) h (fun u e => by rw [e.stat]) (fun u => by rw [touched_stat])
  · exact exec_keeps (·.ext) h (fun u e => e.ext) (touched_ext i s)
  · exact exec_keeps (·.regs.res0) h (fun u e => by rw [e.regs]) (fun u => by cases i <;> simp_all [touched])
  · exact exec_keeps (·.regs.res1) h (fun u e => by rw [e.regs]) (fun u => by cases i <;> simp_all [touched])
  · exact exec_keeps (·.symcnt) h (fun u e => e.symcnt) (fun u => by cases i <;> simp_all [touched])
  · exact exec_keeps (·.stat.partialCode) h (fun u e => by rw [e.stat]) (fun u => by cases i <;> simp_all [touched])

/-- Settles O48: each structure is touched, and each cursor moved, only by the commands named. -/
theorem onlyNamedCommandsWriteTablesAndCursors : Obligations.OnlyNamedCommandsWriteTablesAndCursors := by
  intro i s t h
  refine ⟨fun h1 h2 h3 h4 h5 => ?_, fun h1 h2 => ?_, fun h1 => ?_, fun h1 h2 h3 => ?_,
    fun h1 h2 h3 h4 h5 h6 h7 h8 => ?_, fun h1 h2 h3 h4 h5 h6 h7 h8 => ?_⟩
  · exact exec_keeps (·.heap) h (fun u e => e.heap) (fun u => by cases i <;> simp_all [touched])
  · exact exec_keeps (·.freq) h (fun u e => e.freq) (fun u => by cases i <;> simp_all [touched])
  · exact exec_keeps (·.codes) h (fun u e => e.codes) (fun u => by cases i <;> simp_all [touched])
  · exact exec_keeps (·.arena) h (fun u e => e.arena) (fun u => by cases i <;> simp_all [touched])
  · have hr : readsInput i = false := by cases i <;> simp_all [readsInput]
    exact exec_keeps (·.inp) h (fun u e => e.inp hr) (fun u => by cases i <;> simp_all [touched])
  · have hw : writesOutput i = false := by cases i <;> simp_all [writesOutput]
    exact exec_keeps (·.out) h (fun u e => e.out hw) (fun u => by cases i <;> simp_all [touched])

end Sys2Proof.Machine
end

section
/-! SUPPORT. Statements about single turns: resets, writes of CTRL, STATUS and ARG0, the STATUS word, and when a valid tree
changes (10_state.md R21, R23, R24, R30, R41, R42, 20_memory.md R78, 70_reset_and_hazards.md R260, R261). -/

namespace Sys2Proof.Machine

theorem namedReg_eq_ctrl {n : Nat} (h : namedReg n = .ctrl) : n = 1 := by
  unfold namedReg at h
  split at h <;> cases h
  rfl

/-- CTRL is at 0x004 only (20_memory.md R63). -/
theorem regAt_eq_ctrl {off : BitVec 14} (h4 : off.toNat % 4 = 0) (h : regAt off = .ctrl) : off = 0x004#14 := by
  unfold regAt at h
  simp only at h
  split at h
  · have := namedReg_eq_ctrl h
    exact BitVec.eq_of_toNat_eq (by simp; omega)
  · repeat' split at h
    all_goals cases h

/-- A step whose turn is a host write at an aligned offset (20_memory.md R61, R65). -/
theorem step_write {s : State} {off : BitVec 14} {v : Word} {rest : List Turn} (hr : s.ext.resetIn = false)
    (ha : s.ext.agenda = .write 32 off v :: rest) (h4 : off.toNat % 4 = 0) :
    step s = .next (writeReg (regAt off) v (withAgenda rest s)) := by
  rw [step, takeTurn_run hr, runTurn, ha]
  exact hostWrite_legal v _ h4

/-! ## The arena -/

theorem writeReg_arena (r : Reg) (v : Word) (s : State) :
    (writeReg r v s).arena = s.arena ∨ r = .ctrl ∧ v.getLsbD 3 = true := by
  rcases writeReg_cases r v s with e | ⟨hr, hv, -⟩ | e | e | e | e | e
  · exact .inl (by rw [e])
  · exact .inr ⟨hr, hv⟩
  · exact .inl (by rw [e]; rfl)
  · exact .inl (by rw [e]; rfl)
  · exact .inl (by rw [e, writeCmd]; split <;> rfl)
  · exact .inl (by rw [e]; rfl)
  · exact .inl (by rw [e, pushIn]; split <;> rfl)

/-- A unit step that changes the arena is one of BUILD_TREE, DESERIALIZE_TREE or TREE_CLEAR. -/
theorem exec_arena_ne {i : Instr} {s t : State} (h : exec i s = .next t) (hne : t.arena ≠ s.arena) :
    i = .buildTree ∨ i = .deserializeTree ∨ i = .treeClear := by
  by_contra hi
  simp only [not_or] at hi
  obtain ⟨-, -, -, ha, -⟩ := onlyNamedCommandsWriteTablesAndCursors i s t h
  exact hne (ha hi.1 hi.2.2 hi.2.1)

/-- Settles O49: by what a step can do, only a unit step or a reset reaches the arena. -/
theorem treeIsReadOnlyWhileValid : Obligations.TreeIsReadOnlyWhileValid := by
  intro s t _ hst hne
  cases hr : s.ext.resetIn with
  | true => exact .inr (.inl rfl)
  | false =>
    rw [step, takeTurn_run hr] at hst
    rcases runTurn_cases hst with ⟨a, hturn, he⟩ | ⟨a, rfl⟩ | ⟨off, a, -, rfl⟩ | ⟨off, v, a, ha, h4, rfl⟩ |
      ⟨level, a, ha, rfl⟩
    · rcases engineTurn_cases he with ⟨-, rfl⟩ | ⟨hb, i, hd, hx⟩ | ⟨-, e, info, rfl⟩
      · exact absurd rfl hne
      · have hag : t.ext.agenda = a := congrArg Outside.agenda
          (exec_keeps (·.ext) hx (fun u e => e.ext) (touched_ext i _))
        refine .inl ⟨rfl, hb, ?_, i, exec_arena_ne hx hne, hd, by rw [hag]; exact hx⟩
        rcases hturn with ⟨ha, -⟩ | ha | ⟨hw, hdone, -⟩
        · exact .inl ha
        · exact .inr (.inl ⟨a, ha⟩)
        · exact .inr (.inr ⟨hw, hdone⟩)
      · exact absurd rfl hne
    · exact absurd rfl hne
    · obtain ⟨f, e, -, -, h⟩ := returnWord_readReg (regAt off) (withAgenda a s)
      rw [h] at hne
      exact absurd rfl hne
    · obtain ⟨hctrl, hv⟩ := (writeReg_arena (regAt off) v (withAgenda a s)).resolve_left hne
      exact .inr (.inr (.inr ⟨v, a, by rw [ha, regAt_eq_ctrl h4 hctrl], hv⟩))
    · cases level with
      | true => exact .inr (.inr (.inl ⟨a, ha⟩))
      | false => exact absurd rfl hne

/-! ## Reset -/

theorem atReset_reset (e : Outside) : AtReset { State.reset with ext := e } := by
  refine ⟨rfl, rfl, rfl, rfl, fun u => ?_, rfl, rfl, rfl, rfl, rfl, rfl⟩
  exact ⟨symGet_replicate 0 u, symGet_replicate 0 u, symGet_replicate 0 u⟩

/-- Settles O53: every reset turn is `resetBlock` up to what lies outside the block. -/
theorem resetGivesEveryResetValue : Obligations.ResetGivesEveryResetValue := by
  intro s
  refine ⟨fun rest hr => ⟨fun v ha hv => ?_, fun ha => ?_⟩, fun hr => ⟨fun t hst => ?_, fun off v rest ha h4 => ?_,
    fun rest ha => ?_⟩⟩
  · refine ⟨resetBlock (withAgenda rest s), ?_, atReset_reset _, rfl⟩
    rw [step_write hr ha rfl, show regAt 0x004#14 = .ctrl from rfl, writeReg_ctrl, if_pos hv]
  · refine ⟨setResetPin true (withAgenda rest s), ?_, atReset_reset _, rfl⟩
    rw [step, takeTurn_run hr, runTurn, ha]
  · rw [step, takeTurn_reset hr] at hst
    obtain ⟨e, rfl⟩ := resetTurn_next hst
    exact atReset_reset e
  · refine ⟨resetBlock (withAgenda rest s), ?_, rfl⟩
    rw [step, takeTurn_reset hr, resetTurn, ha]
    exact if_pos ((accessLegal_iff 32 off).2 ⟨rfl, h4⟩)
  · refine ⟨setResetPin false (resetBlock (withAgenda rest s)), ?_, rfl⟩
    rw [step, takeTurn_reset hr, resetTurn, ha]

/-! ## Control writes -/

theorem heldAtCount_iff (s : State) :
    heldAtCount s = true ↔ decode s.regs.curCmd = .ok .decodeN ∧ s.cont = .start ∧ held s = true := by
  simp [heldAtCount, and_assoc]

@[simp] theorem heldAtCount_withAgenda (a : List Turn) (s : State) : heldAtCount (withAgenda a s) = heldAtCount s := by
  rw [heldAtCount, held_withAgenda]
  rfl

/-- Settles O55: each write is its register's effect on the state with the rest of the agenda. -/
theorem controlWritesDoWhatTheirBitsSay : Obligations.ControlWritesDoWhatTheirBitsSay := by
  intro s v rest hr
  refine ⟨fun ha hv => ?_, fun ha => ?_, fun ha => ?_⟩
  · rw [step_write hr ha rfl, show regAt 0x004#14 = .ctrl from rfl, writeReg_ctrl, if_neg (by simp only [hv]; decide)]
    rfl
  · rw [step_write hr ha rfl]
    rfl
  · refine ⟨if heldAtCount s then .heldStart else s.cont, ?_, fun h => ?_, fun h => ?_⟩
    · rw [step_write hr ha rfl, show regAt 0x010#14 = .arg0 from rfl, ← heldAtCount_withAgenda rest s]
      rfl
    · rw [if_pos ((heldAtCount_iff s).2 h)]
    · rw [if_neg (mt (heldAtCount_iff s).1 h)]

/-! ## STATUS -/

theorem statusWord_ecode (hold : Bool) (s : State) : (statusWord hold s).extractLsb' 4 4 = s.stat.ecode.number := by
  refine BitVec.eq_of_getLsbD_eq fun j hj => ?_
  simp only [statusWord, BitVec.getLsbD_extractLsb', BitVec.getLsbD_append]
  interval_cases j <;> simp

theorem statusWord_high (hold : Bool) (s : State) : (statusWord hold s).extractLsb' 16 16 = 0#16 := by
  refine BitVec.eq_of_getLsbD_eq fun j hj => ?_
  simp only [statusWord, BitVec.getLsbD_extractLsb', BitVec.getLsbD_append]
  interval_cases j <;> simp

/-- Settles O60: each field of STATUS stands in its place in the concatenation. -/
theorem statusWordAndInterruptLine : Obligations.StatusWordAndInterruptLine := by
  intro s
  refine ⟨rfl, ?_, ?_, ?_, ?_, statusWord_ecode _ s, ?_, ?_, ?_, ?_, ?_, ?_, ?_, ?_, statusWord_high _ s,
    rfl, rfl, rfl, rfl, rfl, rfl, rfl, rfl, rfl, rfl, rfl⟩
  all_goals simp only [statusWord, BitVec.getLsbD_append]; simp

end Sys2Proof.Machine
end

section
/-! SUPPORT. The heap order (10_state.md R27): the sift loops restore it (40_heap.md R121, R123), and every step keeps it. -/

namespace Sys2Proof.Machine

/-! ## The order along one edge -/

/-- The entries in slots `a` and `b`, if both exist, are in order. -/
def EdgeOk (h : List HeapEntry) (a b : Nat) : Prop :=
  ∀ p c : HeapEntry, h[a]? = some p → h[b]? = some c → p.prio ≤ c.prio

theorem heapOrdered_iff (h : List HeapEntry) : HeapOrdered h ↔ ∀ i, 0 < i → EdgeOk h ((i - 1) / 2) i :=
  ⟨fun o i hi p c => o i p c hi, fun o i p c hi => o i hi p c⟩

theorem edgeOk_of {h : List HeapEntry} {a b : Nat} {p c : HeapEntry} (hp : h[a]? = some p) (hc : h[b]? = some c)
    (le : p.prio ≤ c.prio) : EdgeOk h a b := by
  intro p' c' hp' hc'
  cases hp.symm.trans hp'
  cases hc.symm.trans hc'
  exact le

theorem edgeOk_congr {h h' : List HeapEntry} {a b : Nat} (ha : h'[a]? = h[a]?) (hb : h'[b]? = h[b]?) :
    EdgeOk h' a b ↔ EdgeOk h a b := by
  rw [EdgeOk, EdgeOk, ha, hb]

/-- Around slot `i` its parent is in order with its children: what the sift loops keep while the entry in `i` moves. -/
def SkipOk (h : List HeapEntry) (i : Nat) : Prop :=
  0 < i → ∀ j, 0 < j → (j - 1) / 2 = i → EdgeOk h ((i - 1) / 2) j

/-- In order but for the edge from slot `i` to its parent (40_heap.md R121). -/
structure OrderedUpTo (h : List HeapEntry) (i : Nat) : Prop where
  edges : ∀ j, 0 < j → j ≠ i → EdgeOk h ((j - 1) / 2) j
  skip : SkipOk h i

/-- In order but for the edges from slot `i` to its children (40_heap.md R123). -/
structure OrderedDownTo (h : List HeapEntry) (i : Nat) : Prop where
  edges : ∀ j, 0 < j → (j - 1) / 2 ≠ i → EdgeOk h ((j - 1) / 2) j
  skip : SkipOk h i

/-! ## An exchange of two entries -/

section Swap
variable {h : List HeapEntry} {a b : Nat} {x y : HeapEntry}

theorem swap_getElem?_right (hb : h[b]? = some y) : ((h.set a y).set b x)[b]? = some x := by
  have := (List.getElem?_eq_some_iff.1 hb).1
  simp [this]

theorem swap_getElem?_left (ha : h[a]? = some x) (hab : a ≠ b) : ((h.set a y).set b x)[a]? = some y := by
  have := (List.getElem?_eq_some_iff.1 ha).1
  simp [hab.symm, this]

theorem swap_getElem?_other {j : Nat} (hja : j ≠ a) (hjb : j ≠ b) : ((h.set a y).set b x)[j]? = h[j]? := by
  simp [hja.symm, hjb.symm]

variable (ha : h[a]? = some x) (hb : h[b]? = some y)
include ha hb

/-- The entry `y` of slot `b`, smaller than that of its parent slot `a`, is exchanged with it. -/
theorem OrderedUpTo.swap (o : OrderedUpTo h b) (hpos : 0 < b) (hab : a = (b - 1) / 2) (lt : y.prio < x.prio) :
    OrderedUpTo ((h.set a y).set b x) a := by
  have hne : a ≠ b := by omega
  have atA := swap_getElem?_left (y := y) ha hne
  have atB := swap_getElem?_right (a := a) (x := x) hb
  have other := fun j => @swap_getElem?_other h a b x y j
  have le : y.prio ≤ x.prio := BitVec.le_of_lt lt
  constructor
  · intro j hj hja
    by_cases hjb : j = b
    · rw [hjb, ← hab]
      exact edgeOk_of atA atB le
    by_cases hpb : (j - 1) / 2 = b
    · intro p c hp hc
      rw [hpb, atB] at hp
      rw [other j hja hjb] at hc
      cases hp
      exact o.skip hpos j hj hpb x c (hab ▸ ha) hc
    by_cases hpa : (j - 1) / 2 = a
    · intro p c hp hc
      rw [hpa, atA] at hp
      rw [other j hja hjb] at hc
      cases hp
      exact BitVec.le_trans le (o.edges j hj hjb x c (hpa ▸ ha) hc)
    · exact (edgeOk_congr (other _ hpa hpb) (other j hja hjb)).2 (o.edges j hj hjb)
  · intro hapos j hj hja
    have grand := other ((a - 1) / 2) (by omega) (by omega)
    have top : EdgeOk h ((a - 1) / 2) a := o.edges a hapos hne
    by_cases hjb : j = b
    · intro p c hp hc
      rw [grand] at hp
      rw [hjb, atB] at hc
      cases hc
      exact top p x hp ha
    · intro p c hp hc
      rw [grand] at hp
      rw [other j (by omega) hjb] at hc
      exact BitVec.le_trans (top p x hp ha) (o.edges j hj hjb x c (hja ▸ ha) hc)

/-- The entry `x` of slot `a` is exchanged with the smaller one `y` of its child slot `b`, which is at most the other child's. -/
theorem OrderedDownTo.swap (o : OrderedDownTo h a) (hpos : 0 < b) (hab : a = (b - 1) / 2) (lt : y.prio < x.prio)
    (least : ∀ j c, 0 < j → (j - 1) / 2 = a → h[j]? = some c → y.prio ≤ c.prio) :
    OrderedDownTo ((h.set a y).set b x) b := by
  have hne : a ≠ b := by omega
  have atA := swap_getElem?_left (y := y) ha hne
  have atB := swap_getElem?_right (a := a) (x := x) hb
  have other := fun j => @swap_getElem?_other h a b x y j
  constructor
  · intro j hj hpb
    by_cases hpa : (j - 1) / 2 = a
    · rw [hpa]
      by_cases hjb : j = b
      · rw [hjb]
        exact edgeOk_of atA atB (BitVec.le_of_lt lt)
      · intro p c hp hc
        rw [atA] at hp
        rw [other j (by omega) hjb] at hc
        cases hp
        exact least j c hj hpa hc
    have hjb : j ≠ b := by omega
    by_cases hja : j = a
    · intro p c hp hc
      rw [other _ hpa hpb] at hp
      rw [hja, atA] at hc
      cases hc
      rw [hja] at hp
      exact o.skip (by omega) b hpos hab.symm p y hp hb
    · exact (edgeOk_congr (other _ hpa hpb) (other j hja hjb)).2 (o.edges j hj hpa)
  · intro _ j hj hjb p c hp hc
    rw [← hab, atA] at hp
    rw [other j (by omega) (by omega)] at hc
    cases hp
    exact o.edges j hj (by omega) y c (hjb ▸ hb) hc

end Swap

/-! ## The sift loops -/

/-- Where the edge to the parent is in order too, the whole heap is. -/
theorem OrderedUpTo.heapOrdered {h : List HeapEntry} {i : Nat} (o : OrderedUpTo h i)
    (hi : 0 < i → EdgeOk h ((i - 1) / 2) i) : HeapOrdered h := by
  refine (heapOrdered_iff h).2 fun j hj => ?_
  by_cases hji : j = i
  · rw [hji] at hj ⊢
    exact hi hj
  · exact o.edges j hj hji

theorem siftUp_heapOrdered : ∀ (fuel i : Nat) (h : List HeapEntry), i ≤ fuel → OrderedUpTo h i →
    HeapOrdered (siftUp fuel i h)
  | 0, i, h, hf, o => o.heapOrdered fun hi => by omega
  | fuel + 1, i, h, hf, o => by
    unfold siftUp
    split
    · next h0 => exact o.heapOrdered fun hi => by omega
    · next h0 =>
      split
      · next p c hp hc =>
        split
        · next lt =>
          exact siftUp_heapOrdered fuel _ _ (by omega) (o.swap hp hc (by omega) rfl lt)
        · next ge => exact o.heapOrdered fun _ => edgeOk_of hp hc (BitVec.not_lt.1 ge)
      · next hnone => exact o.heapOrdered fun _ p c hp hc => absurd hc (hnone p c hp)

/-- Where the edges to the children are in order too, the whole heap is. -/
theorem OrderedDownTo.heapOrdered {h : List HeapEntry} {i : Nat} (o : OrderedDownTo h i)
    (hi : ∀ j, 0 < j → (j - 1) / 2 = i → EdgeOk h i j) : HeapOrdered h := by
  refine (heapOrdered_iff h).2 fun j hj => ?_
  by_cases hji : (j - 1) / 2 = i
  · rw [hji]
    exact hi j hj hji
  · exact o.edges j hj hji

/-- The child that the sift-down looks at is a child. -/
theorem smallerChild_eq (h : List HeapEntry) (i : Nat) : smallerChild h i = 2 * i + 1 ∨ smallerChild h i = 2 * i + 2 := by
  unfold smallerChild
  split
  · split
    · exact .inr rfl
    · exact .inl rfl
  · exact .inl rfl

/-- The child that the sift-down looks at is a least one; if it does not exist there is none (40_heap.md R123). -/
theorem smallerChild_least {h : List HeapEntry} {i j : Nat} {c : HeapEntry} (hj : 0 < j) (hi : (j - 1) / 2 = i)
    (hc : h[j]? = some c) : ∃ m, h[smallerChild h i]? = some m ∧ m.prio ≤ c.prio := by
  have hcases : j = 2 * i + 1 ∨ j = 2 * i + 2 := by omega
  have left : ∃ l, h[2 * i + 1]? = some l := by
    have : 2 * i + 1 < h.length := by have := (List.getElem?_eq_some_iff.1 hc).1; omega
    exact ⟨h[2 * i + 1], by simp [this]⟩
  obtain ⟨l, hl⟩ := left
  unfold smallerChild
  rw [hl]
  cases hr : h[2 * i + 2]? with
  | none =>
    rcases hcases with rfl | rfl
    · exact ⟨c, hc, BitVec.le_refl _⟩
    · cases hr.symm.trans hc
  | some r =>
    simp only
    split
    · next lt =>
      refine ⟨r, hr, ?_⟩
      rcases hcases with rfl | rfl
      · cases hl.symm.trans hc
        exact BitVec.le_of_lt lt
      · cases hr.symm.trans hc
        exact BitVec.le_refl _
    · next ge =>
      refine ⟨l, hl, ?_⟩
      rcases hcases with rfl | rfl
      · cases hl.symm.trans hc
        exact BitVec.le_refl _
      · cases hr.symm.trans hc
        exact BitVec.not_lt.1 ge

theorem siftDown_heapOrdered : ∀ (fuel i : Nat) (h : List HeapEntry), h.length ≤ i + fuel → OrderedDownTo h i →
    HeapOrdered (siftDown fuel i h)
  | 0, i, h, hf, o => o.heapOrdered fun j _ hj p c hp => by
    have := (List.getElem?_eq_some_iff.1 hp).1
    omega
  | fuel + 1, i, h, hf, o => by
    have hchild := smallerChild_eq h i
    unfold siftDown
    split
    · next m e hm he =>
      have least : ∀ j c, 0 < j → (j - 1) / 2 = i → h[j]? = some c → m.prio ≤ c.prio := by
        intro j c hj hji hc
        obtain ⟨m', hm', le⟩ := smallerChild_least hj hji hc
        cases hm.symm.trans hm'
        exact le
      split
      · next lt =>
        have hne : i ≠ smallerChild h i := by omega
        rw [List.set_comm _ _ hne.symm]
        exact siftDown_heapOrdered fuel _ _ (by simp only [List.length_set]; omega)
          (o.swap he hm (by omega) (by omega) lt least)
      · next ge =>
        refine o.heapOrdered fun j hj hji p c hp hc => ?_
        cases he.symm.trans hp
        exact BitVec.le_trans (BitVec.not_lt.1 ge) (least j c hj hji hc)
    · next hnone =>
      refine o.heapOrdered fun j hj hji p c hp hc => ?_
      obtain ⟨m, hm, -⟩ := smallerChild_least hj hji hc
      exact absurd hp (hnone m p hm)

/-! ## The heap procedures -/

theorem heapOrdered_nil : HeapOrdered [] := by
  intro i p c _ hp
  cases hp

theorem heapInsert_heapOrdered {h : List HeapEntry} (o : HeapOrdered h) (e : HeapEntry) : HeapOrdered (heapInsert h e) := by
  refine siftUp_heapOrdered _ _ _ le_rfl ⟨fun j hj hji p c hp hc => ?_, fun _ j hj hji p c _ hc => ?_⟩
  all_goals have hlt := (List.getElem?_eq_some_iff.1 hc).1
  all_goals rw [List.length_append, List.length_singleton] at hlt
  · rw [List.getElem?_append_left (by omega)] at hp hc
    exact o j p c hj hp hc
  · omega

theorem heapExtract_heapOrdered {h h' : List HeapEntry} {e : HeapEntry} (o : HeapOrdered h)
    (x : heapExtract h = some (e, h')) : HeapOrdered h' := by
  cases h with
  | nil => cases x
  | cons top rest =>
    rw [heapExtract_cons] at x
    simp only [Option.some.injEq, Prod.mk.injEq] at x
    obtain ⟨-, rfl⟩ := x
    refine siftDown_heapOrdered _ _ _ (by simp) ⟨fun j hj hji p c hp hc => ?_, fun h0 => absurd h0 (lt_irrefl 0)⟩
    have kept : ∀ {k q}, k ≠ 0 → ((top :: rest).dropLast.set 0 ((top :: rest).getLast (List.cons_ne_nil _ _)))[k]? = some q →
        (top :: rest)[k]? = some q := by
      intro k q hk hq
      rw [List.getElem?_set_ne hk.symm, List.getElem?_dropLast] at hq
      split at hq
      · exact hq
      · cases hq
    exact o j p c hj (kept hji hp) (kept hj.ne' hc)

/-! ## The commands that change the heap (40_heap.md R122, R124) -/

/-- HEAP_ADD changes nothing, or all its checks passed and the entry is inserted. -/
theorem workHeapAdd_carries {c : Bool} {pay : NodeIdx} {s u : State} (h : (workHeapAdd c pay s).carries u) :
    u = s ∨ s.heap.alloc = true ∧ payNull c pay = false ∧ payNotSymbol c pay = false ∧ s.heap.size ≠ Config.heapCap ∧
      u = { s with heap := { s.heap with entries := heapInsert s.heap.entries (addEntry s.regs.arg0 c pay) } } := by
  unfold workHeapAdd at h
  repeat' split at h
  all_goals cases h
  case isFalse.isFalse.isFalse.isFalse.isFalse =>
    refine .inr ⟨?_, ?_, ?_, ‹_›, rfl⟩
    all_goals simp_all
  all_goals exact .inl rfl

/-- HEAP_REMOVE leaves the heap, or extracts its root. -/
theorem workHeapRemove_carries {s u : State} (h : (workHeapRemove s).carries u) :
    u.heap = s.heap ∨ ∃ e l, s.heap.alloc = true ∧ heapExtract s.heap.entries = some (e, l) ∧
      u.heap = { s.heap with entries := l } := by
  unfold workHeapRemove at h
  split at h
  · cases h
    exact .inl rfl
  · split at h <;> cases h
    · exact .inl rfl
    · exact .inr ⟨_, _, by simp_all, ‹_›, rfl⟩

/-! ## Every step -/

theorem heapOrdered_keptByHost : KeptByHost fun s => HeapOrdered s.heap.entries where
  ext _ _ _ h := h
  reset _ := heapOrdered_nil
  pop _ h := h
  ctrl _ _ h := h
  status _ _ h := h
  cmd _ _ h := by unfold writeCmd; split <;> exact h
  arg _ _ h := h
  push _ _ h := by unfold pushIn; split <;> exact h
  illegal _ _ _ h := h

/-- The work of every command keeps the heap order: five commands change the heap, by an insertion, an extraction or by
emptying it. -/
theorem workOf_heapOrdered (i : Instr) {s u : State} (o : HeapOrdered s.heap.entries) (hu : (workOf i s).carries u) :
    HeapOrdered u.heap.entries := by
  have frame : u = touched i s u := (workOf_within i s).carries hu
  cases i with
  | heapCreate =>
    cases hu
    exact heapOrdered_nil
  | heapDestroy =>
    simp only [workOf, workHeapDestroy] at hu
    split at hu <;> cases hu
    · exact o
    · exact heapOrdered_nil
  | heapAdd c pay =>
    rcases workHeapAdd_carries hu with rfl | ⟨-, -, -, -, rfl⟩
    · exact o
    · exact heapInsert_heapOrdered o _
  | heapRemove =>
    rcases workHeapRemove_carries hu with e | ⟨_, _, -, x, e⟩
    · rw [e]
      exact o
    · rw [e]
      exact heapExtract_heapOrdered o x
  | buildTree =>
    simp only [workOf, workBuildTree] at hu
    split at hu <;> cases hu <;> exact heapOrdered_nil
  | _ => rw [congrArg State.heap frame]; exact o

theorem releaseOf_heapOrdered (i : Instr) {s : State} (o : HeapOrdered s.heap.entries) :
    HeapOrdered (releaseOf i s).heap.entries := by
  cases i with
  | buildTree => exact heapOrdered_nil
  | _ => simpa [releaseOf] using o

/-- Settles O15: the insertion and the extraction restore the order, and nothing else moves entries. -/
theorem heapOrderKeptByEveryStep : Obligations.HeapOrderKeptByEveryStep := by
  intro s t
  refine step_keeps heapOrdered_keptByHost fun i s t _ _ o h => ?_
  rw [exec_eq_unitStep] at h
  exact unitStep_keeps (fun s => HeapOrdered s.heap.entries) o (fun _ h => h) (fun _ _ _ h => h) (releaseOf_heapOrdered i o)
    (fun _ _ _ _ _ h _ => h) (fun _ _ _ h _ => h) (fun _ _ _ _ _ h _ => h) (fun _ => workOf_heapOrdered i o) h

end Sys2Proof.Machine
end

section
/-! SUPPORT. TOTAL is the sum of the counts and at most 2^31 − 1 (10_state.md R31), in every step. -/

namespace Sys2Proof.Machine

/-- The work of FREQ_COUNT leaves the table, clears it, or counts one byte while TOTAL is not at its maximum
(41_tree_builder.md R142). -/
theorem workFreqCount_carries {s u : State} (h : (workFreqCount s).carries u) :
    u = s ∨ u.freq = FreqTable.zero ∨ ∃ v, s.freq.total.toNat ≠ Config.prioMax ∧ u.freq = countByte s.freq v := by
  unfold workFreqCount at h
  split at h
  · cases h
    exact .inr (.inl rfl)
  · split at h
    · cases h
      exact .inl rfl
    · cases h
      exact .inl rfl
    · cases h
      exact .inr (.inl rfl)
    · split at h <;> cases h
      · exact .inr (.inl rfl)
      · exact .inr (.inr ⟨_, ‹_›, rfl⟩)
  · cases h

theorem freqOk_of_zero {s : State} (h : s.freq = FreqTable.zero) : FreqOk s := by
  rw [FreqOk, h, freqSum_zero]
  exact ⟨rfl, Nat.zero_le _⟩

/-- One byte more: the sum is below its maximum, so neither the count nor TOTAL wraps. -/
theorem freqOk_of_countByte {s u : State} (v : Byte) (o : FreqOk s) (hmax : s.freq.total.toNat ≠ Config.prioMax)
    (h : u.freq = countByte s.freq v) : FreqOk u := by
  obtain ⟨hsum, hle⟩ := o
  have hv := symGet_le_freqSum s.freq.count v
  have hp : Config.prioMax = 2 ^ 31 - 1 := rfl
  have htotal : (s.freq.total + 1).toNat = s.freq.total.toNat + 1 := by
    rw [BitVec.toNat_add, show (1 : Word).toNat = 1 from rfl, Nat.mod_eq_of_lt (by omega)]
  rw [FreqOk, h, countByte, freqSum_symSet_succ _ _ (by omega), htotal]
  omega

theorem freqOk_keptByHost : KeptByHost FreqOk where
  ext _ _ _ h := h
  reset _ := freqOk_of_zero rfl
  pop _ h := h
  ctrl _ _ h := h
  status _ _ h := h
  cmd _ _ h := by unfold writeCmd; split <;> exact h
  arg _ _ h := h
  push _ _ h := by unfold pushIn; split <;> exact h
  illegal _ _ _ h := h

theorem FreqOk.congr {s u : State} (o : FreqOk s) (h : u.freq = s.freq) : FreqOk u := by
  rwa [FreqOk, h]

theorem workOf_freqOk (i : Instr) {s u : State} (o : FreqOk s) (hu : (workOf i s).carries u) : FreqOk u := by
  have frame : u = touched i s u := (workOf_within i s).carries hu
  cases i with
  | freqClear =>
    cases hu
    exact freqOk_of_zero rfl
  | freqCount =>
    rcases workFreqCount_carries hu with rfl | h | ⟨v, hmax, h⟩
    · exact o
    · exact freqOk_of_zero h
    · exact freqOk_of_countByte v o hmax h
  | _ => exact o.congr ((congrArg State.freq frame).trans rfl)

theorem releaseOf_freqOk (i : Instr) {s : State} (o : FreqOk s) : FreqOk (releaseOf i s) := by
  cases i with
  | freqCount => exact freqOk_of_zero rfl
  | _ => exact o.congr (by simp [releaseOf])

/-- Settles O19: the table is only cleared, or counts a byte below the maximum. -/
theorem freqTotalKeptByEveryStep : Obligations.FreqTotalKeptByEveryStep := by
  intro s t
  refine step_keeps freqOk_keptByHost fun i s t _ _ o h => ?_
  rw [exec_eq_unitStep] at h
  exact unitStep_keeps FreqOk o (fun _ h => h) (fun _ _ _ h => h) (releaseOf_freqOk i o) (fun _ _ _ _ _ h _ => h)
    (fun _ _ _ h _ => h) (fun _ _ _ _ _ h _ => h) (fun _ => workOf_freqOk i o) h

end Sys2Proof.Machine
end

section
/-! SUPPORT. The merge of BUILD_TREE makes a tree of at most NODE_CAP nodes (41_tree_builder.md R140, R143, R149): while it
runs, the composite entries of the heap name trees that share no node. -/

namespace Sys2Proof.Machine

/-! ## The forest of a heap -/

/-- A composite entry names a tree that reaches no node twice. -/
def NamesTree (ns : List Node) (e : HeapEntry) : Prop :=
  e.comp = true → ∃ t ix, Holds ns t e.pay ix ∧ ix.Nodup

/-- The trees of two composite entries share no node. -/
def Apart (ns : List Node) (e e' : HeapEntry) : Prop :=
  e.comp = true → e'.comp = true → ∃ t ix t' ix', Holds ns t e.pay ix ∧ Holds ns t' e'.pay ix' ∧ ix.Disjoint ix'

/-- The composite entries of a heap name trees that share no node. -/
structure ForestOk (ns : List Node) (h : List HeapEntry) : Prop where
  trees : ∀ e ∈ h, NamesTree ns e
  apart : h.Pairwise (Apart ns)

theorem Apart.symm {ns : List Node} {e e' : HeapEntry} (h : Apart ns e e') : Apart ns e' e := by
  intro hc' hc
  obtain ⟨t, ix, t', ix', ht, ht', hd⟩ := h hc hc'
  exact ⟨t', ix', t, ix, ht', ht, hd.symm⟩

/-- The node lists are determined by the arena, so those of any two trees there are disjoint. -/
theorem Apart.disjoint {ns : List Node} {e e' : HeapEntry} {t t' : CodeTree} {ix ix' : List NodeIdx} (h : Apart ns e e')
    (hc : e.comp = true) (hc' : e'.comp = true) (ht : Holds ns t e.pay ix) (ht' : Holds ns t' e'.pay ix') :
    ix.Disjoint ix' := by
  obtain ⟨_, _, _, _, h1, h2, hd⟩ := h hc hc'
  obtain ⟨-, rfl⟩ := h1.unique ht
  obtain ⟨-, rfl⟩ := h2.unique ht'
  exact hd

theorem ForestOk.perm {ns : List Node} {h h' : List HeapEntry} (o : ForestOk ns h) (p : h'.Perm h) : ForestOk ns h' :=
  ⟨fun e he => o.trees e (p.subset he), (p.pairwise_iff fun h => h.symm).2 o.apart⟩

theorem NamesTree.append {ns : List Node} {e : HeapEntry} (o : NamesTree ns e) (l : List Node) : NamesTree (ns ++ l) e := by
  intro hc
  obtain ⟨t, ix, ht, hd⟩ := o hc
  exact ⟨t, ix, ht.append l, hd⟩

theorem Apart.append {ns : List Node} {e e' : HeapEntry} (o : Apart ns e e') (l : List Node) : Apart (ns ++ l) e e' := by
  intro hc hc'
  obtain ⟨t, ix, t', ix', ht, ht', hd⟩ := o hc hc'
  exact ⟨t, ix, t', ix', ht.append l, ht'.append l, hd⟩

/-- An allocation keeps the forest. -/
theorem ForestOk.append {ns : List Node} {h : List HeapEntry} (o : ForestOk ns h) (l : List Node) : ForestOk (ns ++ l) h :=
  ⟨fun e he => (o.trees e he).append l, o.apart.imp fun h => h.append l⟩

/-! ## A new node -/

/-- The index of an allocation is none of an allocated node (41_tree_builder.md R140). -/
theorem allocNode_fresh {ns : List Node} (n : Node) (h : ns.length < 512) {ix : List NodeIdx}
    (hix : ∀ j ∈ ix, j.toNat < ns.length) : (allocNode ns n).1 ∉ ix := by
  intro hmem
  have := hix _ hmem
  rw [allocNode, BitVec.toNat_ofNat, Nat.mod_eq_of_lt h] at this
  exact lt_irrefl _ this

theorem Holds.not_mem_allocNode {ns : List Node} {t : CodeTree} {i : NodeIdx} {ix : List NodeIdx} (ht : Holds ns t i ix)
    (n : Node) (h : ns.length < 512) : (allocNode ns n).1 ∉ ix :=
  allocNode_fresh n h ht.allocated

/-- An entry whose tree shares no node with the trees of a forest joins it. -/
theorem ForestOk.cons_composite {ns : List Node} {h : List HeapEntry} {e : HeapEntry} {t : CodeTree} {ix : List NodeIdx}
    (o : ForestOk ns h) (ht : Holds ns t e.pay ix) (hd : ix.Nodup)
    (hapart : ∀ x ∈ h, ∀ t' ix', Holds ns t' x.pay ix' → x.comp = true → ix.Disjoint ix') : ForestOk ns (e :: h) := by
  refine ⟨?_, List.pairwise_cons.2 ⟨fun x hx _ hc' => ?_, o.apart⟩⟩
  · rintro x hx hc
    rcases List.mem_cons.1 hx with rfl | hx
    · exact ⟨t, ix, ht, hd⟩
    · exact o.trees x hx hc
  · obtain ⟨t', ix', ht', -⟩ := o.trees x hx hc'
    exact ⟨t, ix, t', ix', ht, ht', hapart x hx t' ix' ht' hc'⟩

/-- The entry that names the node a promotion of `e` gives (41_tree_builder.md R140). -/
def promoted (ns : List Node) (e : HeapEntry) : HeapEntry := { e with comp := true, pay := (promote ns e).1 }

theorem promote_comp (ns : List Node) {e : HeapEntry} (h : e.comp = true) : promote ns e = (e.pay, ns) := by
  simp [promote, h]

theorem promote_bare (ns : List Node) {e : HeapEntry} (h : e.comp = false) :
    promote ns e = allocNode ns (.leaf (e.pay.setWidth 8)) := by
  simp [promote, h]

/-- A promotion gives the entry a tree of its own and leaves the others. -/
theorem ForestOk.promote {ns : List Node} {h : List HeapEntry} {e : HeapEntry} (o : ForestOk ns (e :: h))
    (hlen : ns.length < 512) : ForestOk (promote ns e).2 (promoted ns e :: h) := by
  cases hc : e.comp with
  | true =>
    have he : promoted ns e = e := by
      rw [promoted, promote_comp ns hc]
      cases e
      cases hc
      rfl
    rw [he, promote_comp ns hc]
    exact o
  | false =>
    have rest : ForestOk ns h := ⟨fun x hx => o.trees x (List.mem_cons_of_mem _ hx), (List.pairwise_cons.1 o.apart).2⟩
    rw [promoted, promote_bare ns hc]
    refine (rest.append _).cons_composite (t := .leaf (e.pay.setWidth 8))
      ⟨nodeAt_allocNode _ hlen, rfl⟩ (List.nodup_singleton _) fun x hx t' ix' ht' hcx => ?_
    obtain ⟨t, ix, ht, -⟩ := rest.trees x hx hcx
    obtain ⟨-, rfl⟩ := (ht.append _).unique ht'
    exact List.singleton_disjoint.2 (ht.not_mem_allocNode (.leaf (e.pay.setWidth 8)) hlen)

/-- Two trees joined under a new node (41_tree_builder.md R143): the new tree is apart from the others. -/
theorem ForestOk.join {ns : List Node} {h : List HeapEntry} {a b e : HeapEntry} (o : ForestOk ns (a :: b :: h))
    (ha : a.comp = true) (hb : b.comp = true) (hlen : ns.length < 512) (prio : Word)
    (he : e.pay = (allocNode ns (.internal a.pay b.pay prio)).1) :
    ForestOk (allocNode ns (.internal a.pay b.pay prio)).2 (e :: h) := by
  obtain ⟨oa, orest⟩ := List.pairwise_cons.1 o.apart
  obtain ⟨ob, oh⟩ := List.pairwise_cons.1 orest
  obtain ⟨ta, xs, hta, hxs⟩ := o.trees a (by simp) ha
  obtain ⟨tb, ys, htb, hys⟩ := o.trees b (by simp) hb
  have hxy : xs.Disjoint ys := (oa b (by simp)).disjoint ha hb hta htb
  have tree : Holds (ns ++ [.internal a.pay b.pay prio]) (.node ta tb) e.pay (e.pay :: (xs ++ ys)) :=
    ⟨a.pay, b.pay, prio, xs, ys, he ▸ nodeAt_allocNode _ hlen, hta.append _, htb.append _, rfl⟩
  have rest : ForestOk ns h := ⟨fun x hx => o.trees x (by simp [hx]), oh⟩
  refine (rest.append _).cons_composite tree ?_ fun x hx t' ix' ht' hcx => ?_
  · refine List.nodup_cons.2 ⟨?_, hxs.append hys hxy⟩
    rw [he, List.mem_append, not_or]
    exact ⟨hta.not_mem_allocNode _ hlen, htb.not_mem_allocNode _ hlen⟩
  · obtain ⟨t, ix, ht, -⟩ := rest.trees x hx hcx
    obtain ⟨-, rfl⟩ := (ht.append _).unique ht'
    refine List.disjoint_cons_left.2 ⟨he ▸ ht.not_mem_allocNode _ hlen, List.disjoint_append_left.2 ⟨?_, ?_⟩⟩
    · exact (oa x (by simp [hx])).disjoint ha hcx hta ht
    · exact (ob x hx).disjoint hb hcx htb ht

/-! ## The number of nodes -/

/-- The nodes an entry will still cost: its own leaf if it is bare, and the node that joins it to the rest. -/
def entryCost (e : HeapEntry) : Nat := if e.comp then 1 else 2

/-- The nodes the entries of a heap will still cost, one more than are allocated in the end (41_tree_builder.md R149). -/
def heapCost (h : List HeapEntry) : Nat := (h.map entryCost).sum

@[simp] theorem heapCost_cons (e : HeapEntry) (h : List HeapEntry) : heapCost (e :: h) = entryCost e + heapCost h := rfl

theorem heapCost_perm {h h' : List HeapEntry} (p : h.Perm h') : heapCost h = heapCost h' := (p.map entryCost).sum_eq

theorem entryCost_pos (e : HeapEntry) : 0 < entryCost e := by
  unfold entryCost
  split <;> decide

theorem promote_length (ns : List Node) (e : HeapEntry) : (promote ns e).2.length + 1 = ns.length + entryCost e := by
  cases hc : e.comp
  · simp [promote_bare ns hc, allocNode, entryCost, hc]
  · simp [promote_comp ns hc, entryCost, hc]

/-! ## The merge loop -/

/-- One merge keeps the forest and the number of nodes to come. -/
theorem mergeTwo_ok {ns : List Node} {e1 e2 : HeapEntry} {h : List HeapEntry} (o : ForestOk ns (e1 :: e2 :: h))
    (hcost : ns.length + heapCost (e1 :: e2 :: h) ≤ 512) :
    ForestOk (mergeTwo ns e1 e2).2 ((mergeTwo ns e1 e2).1 :: h) ∧
      (mergeTwo ns e1 e2).2.length + heapCost ((mergeTwo ns e1 e2).1 :: h) ≤ 512 := by
  have l1 := promote_length ns e1
  have l2 := promote_length (promote ns e1).2 e2
  have p1 := entryCost_pos e1
  have p2 := entryCost_pos e2
  rw [heapCost_cons, heapCost_cons] at hcost
  have o1 : ForestOk (promote ns e1).2 (e2 :: promoted ns e1 :: h) :=
    (o.promote (by omega)).perm (List.Perm.swap _ _ _)
  have o2 := (o1.promote (by omega)).perm (List.Perm.swap _ _ _)
  refine ⟨o2.join rfl rfl (by omega) _ rfl, ?_⟩
  have l3 : (mergeTwo ns e1 e2).2.length = (promote (promote ns e1).2 e2).2.length + 1 := List.length_append
  have c3 : entryCost (mergeTwo ns e1 e2).1 = 1 := rfl
  rw [heapCost_cons, l3, c3]
  omega

theorem mergeAll_tree : ∀ (fuel : Nat) (h : List HeapEntry) (ns : List Node) (root : NodeIdx) (nodes : List Node),
    ForestOk ns h → ns.length + heapCost h ≤ 512 → mergeAll fuel h ns = .tree root nodes →
      nodes.length ≤ Config.nodeCap ∧ ∃ t ix, Holds nodes t root ix ∧ ix.Nodup
  | 0, _, _, _, _, _, _, x => by cases x
  | fuel + 1, h, ns, root, nodes, o, hcost, x => by
    unfold mergeAll at x
    split at x
    · cases x
    · next e1 h1 x1 =>
      have p1 := heapExtract_perm x1
      have o1 := o.perm p1
      rw [← heapCost_perm p1] at hcost
      split at x
      · cases x
        have hl := promote_length ns e1
        have hp := entryCost_pos e1
        rw [heapCost_cons] at hcost
        refine ⟨by rw [show Config.nodeCap = 511 from rfl]; omega, ?_⟩
        exact (o1.promote (by omega)).trees _ List.mem_cons_self rfl
      · next e2 h2 x2 =>
        have p2 := (heapExtract_perm x2).cons e1
        rw [← heapCost_perm p2] at hcost
        split at x
        · cases x
        · obtain ⟨o2, hcost2⟩ := mergeTwo_ok (o1.perm p2) hcost
          have pi := heapInsert_perm h2 (mergeTwo ns e1 e2).1
          exact mergeAll_tree fuel _ _ root nodes (o2.perm pi) (by rwa [heapCost_perm pi]) x

theorem leafEntries_bare (f : SymTable Word) : ∀ e ∈ leafEntries f, e.comp = false := by
  intro e he
  obtain ⟨p, -, hp⟩ := List.mem_filterMap.1 he
  split at hp <;> cases hp
  rfl

/-- A tree that BUILD_TREE makes has at most NODE_CAP nodes and reaches none twice (41_tree_builder.md R149). -/
theorem huffmanMerge_tree {f : SymTable Word} {root : NodeIdx} {nodes : List Node} (h : huffmanMerge f = .tree root nodes) :
    nodes.length ≤ Config.nodeCap ∧ ∃ t ix, Holds nodes t root ix ∧ ix.Nodup := by
  have p : ((leafEntries f).foldl heapInsert []).Perm (leafEntries f) := by
    simpa using foldl_heapInsert_perm (leafEntries f) []
  have bare : ∀ {e}, e ∈ leafEntries f → e.comp = true → False := fun he hc => by
    rw [leafEntries_bare f _ he] at hc
    cases hc
  refine mergeAll_tree _ _ _ root nodes (ForestOk.perm ⟨fun e he hc => (bare he hc).elim, ?_⟩ p) ?_ h
  · exact List.pairwise_of_forall_mem_list fun e he e' _ hc => (bare he hc).elim
  · have cost : heapCost (leafEntries f) = (leafEntries f).length * 2 := by
      rw [heapCost, List.map_congr_left (g := fun _ => 2) fun e he => by simp [entryCost, leafEntries_bare f e he]]
      simp
    have : (leafEntries f).length ≤ 256 := leafEntries_length f
    rw [heapCost_perm p, cost, List.length_nil]
    omega

end Sys2Proof.Machine
end

section
/-! SUPPORT. The walk of BUILD_CODES ends and keeps CODE_LEN and CODE_BITS in range (42_code_table.md R160 to R163); every
value stays in the range the spec gives it (10_state.md R26, R28, R32, R34 to R37). -/

namespace Sys2Proof.Machine

/-! ## The walk of BUILD_CODES -/

/-- A bit shifted in makes a value at most one bit longer. -/
theorem shiftIn_lt {w : Nat} {v : BitVec w} {k : Nat} (b : Bool) (h : v.toNat < 2 ^ k) :
    (shiftIn v b).toNat < 2 ^ (k + 1) := by
  have hb := Bool.toNat_le b
  have hk : 2 ^ (k + 1) = 2 * 2 ^ k := by rw [pow_succ, Nat.mul_comm]
  by_cases hw : k + 1 ≤ w
  · have hle : 2 ^ (k + 1) ≤ 2 ^ w := Nat.pow_le_pow_right (by decide) hw
    rw [shiftIn_toNat v b (by omega)]
    omega
  · exact lt_of_lt_of_le (shiftIn v b).isLt (Nat.pow_le_pow_right (by decide) (by omega))

/-- CODE_LEN ≤ 32, and no code bit above the length (10_state.md R32). -/
def CodesOk (len : SymTable (BitVec 6)) (bits : SymTable Word) : Prop :=
  ∀ v : Byte, (symGet len v).toNat ≤ Config.codeMax ∧ (symGet bits v).toNat < 2 ^ (symGet len v).toNat

theorem codesOk_zero : CodesOk CodeTable.zero.len CodeTable.zero.bits := by
  intro v
  have hl : symGet CodeTable.zero.len v = 0 := symGet_replicate 0 v
  have hb : symGet CodeTable.zero.bits v = 0 := symGet_replicate 0 v
  rw [hl, hb]
  decide

theorem CodesOk.set {len : SymTable (BitVec 6)} {bits : SymTable Word} (o : CodesOk len bits) (sym : Byte) {n : Nat}
    {b : Word} (hn : n ≤ Config.codeMax) (hb : b.toNat < 2 ^ n) :
    CodesOk (symSet len sym (BitVec.ofNat 6 n)) (symSet bits sym b) := by
  intro v
  have hn6 : (BitVec.ofNat 6 n).toNat = n := Nat.mod_eq_of_lt (lt_of_le_of_lt hn (by decide))
  rw [symGet_symSet, symGet_symSet]
  split
  · rw [hn6]
    exact ⟨hn, hb⟩
  · exact o v

theorem codeWalk_codesOk (ns : List Node) : ∀ (fuel : Nat) (st : List PathEntry) (len : SymTable (BitVec 6))
    (bits : SymTable Word), CodesOk len bits → (∀ p ∈ st, p.bits.toNat < 2 ^ p.len) →
      ∀ len' bits', codeWalk ns fuel st len bits = .table len' bits' → CodesOk len' bits'
  | _, [], _, _, o, _, _, _, x => by
    rw [codeWalk] at x
    cases x
    exact o
  | 0, _ :: _, _, _, _, _, _, _, x => by cases x
  | fuel + 1, p :: st, len, bits, o, hst, len', bits', x => by
    obtain ⟨hp, hst⟩ := List.forall_mem_cons.1 hst
    rw [codeWalk] at x
    split at x
    · cases x
    · next sym _ =>
      split at x
      · cases x
      · next hle => exact codeWalk_codesOk ns fuel st _ _ (o.set sym (Nat.le_of_not_lt hle) hp) hst _ _ x
    · refine codeWalk_codesOk ns fuel _ _ _ o ?_ _ _ x
      exact List.forall_mem_cons.2 ⟨shiftIn_lt _ hp, List.forall_mem_cons.2 ⟨shiftIn_lt _ hp, hst⟩⟩

theorem codesOf_codesOk {a : Arena} {len : SymTable (BitVec 6)} {bits : SymTable Word} (h : codesOf a = .table len bits) :
    CodesOk len bits := by
  unfold codesOf at h
  split at h
  · cases h
  · cases h
    exact codesOk_zero.set _ (n := 1) (by decide) (by decide)
  · exact codeWalk_codesOk _ _ _ _ _ codesOk_zero (by simp) _ _ h

/-- The walk over trees with as many nodes as it has visits does not break. -/
theorem codeWalk_ne_broken (ns : List Node) : ∀ (fuel : Nat) (st : List PathEntry) (ts : List CodeTree)
    (len : SymTable (BitVec 6)) (bits : SymTable Word), List.Forall₂ (fun p t => ∃ ix, Holds ns t p.node ix) st ts →
      (ts.map CodeTree.size).sum ≤ fuel → codeWalk ns fuel st len bits ≠ .broken
  | _, [], _, _, _, _, _ => by
    rw [codeWalk]
    exact nofun
  | 0, _ :: _, _, _, _, .cons (b := t) _ _, hf => by
    have := t.size_pos
    simp only [List.map_cons, List.sum_cons] at hf
    omega
  | fuel + 1, p :: st, _, len, bits, .cons (b := t) (l₂ := ts) ⟨ix, ht⟩ hst, hf => by
    rw [List.map_cons, List.sum_cons] at hf
    rw [codeWalk]
    cases t with
    | leaf sym =>
      rw [ht.1]
      simp only [CodeTree.size] at hf ⊢
      split
      · exact nofun
      · exact codeWalk_ne_broken ns fuel st ts _ _ hst (by omega)
    | node l r =>
      obtain ⟨a, b, prio, xs, ys, hn, hl, hr, -⟩ := ht
      rw [hn]
      simp only [CodeTree.size] at hf
      refine codeWalk_ne_broken ns fuel _ (l :: r :: ts) _ _ (.cons ⟨xs, hl⟩ (.cons ⟨ys, hr⟩ hst)) ?_
      simp only [List.map_cons, List.sum_cons]
      omega

/-- A tree that reaches no node twice has at most as many nodes as the arena. -/
theorem Holds.size_le {ns : List Node} {t : CodeTree} {i : NodeIdx} {ix : List NodeIdx} (h : Holds ns t i ix)
    (hd : ix.Nodup) : t.size ≤ ns.length := by
  have inj : (ix.map BitVec.toNat).Nodup := hd.map fun _ _ => BitVec.eq_of_toNat_eq
  have sub : ix.map BitVec.toNat ⊆ List.range ns.length := by
    intro n hn
    obtain ⟨j, hj, rfl⟩ := List.mem_map.1 hn
    exact List.mem_range.2 (h.allocated j hj)
  have := (inj.subperm sub).length_le
  rwa [List.length_map, List.length_range, h.length_eq] at this

/-- BUILD_CODES never breaks on a tree (assumption 11). -/
theorem codesOf_ne_broken {a : Arena} (h : TreeOk a) (hn : a.count ≤ Config.nodeCap) : codesOf a ≠ .broken := by
  obtain ⟨t, ix, ht, hd⟩ := h
  have hs := ht.size_le hd
  unfold codesOf
  split
  · next hroot =>
    have := (List.getElem?_eq_none_iff.1 hroot)
    exact absurd (ht.allocated _ ht.root_mem) (by omega)
  · exact nofun
  · refine codeWalk_ne_broken _ _ _ [t] _ _ (.cons ⟨ix, ht⟩ .nil) ?_
    rw [List.map_singleton, List.sum_singleton]
    exact hs.trans hn

/-! ## The cursors -/

theorem takeBit_bit {r r' : BitReader} {b : Bool} (h : takeBit r = .bit b r') :
    r'.fifo = r.fifo ∧ r'.rdCnt = r.rdCnt - 1 := by
  cases h
  exact ⟨rfl, rfl⟩

/-- A bit read leaves at most the bytes there were, and RD_CNT in range (20_memory.md R71). -/
theorem readBit_range {r r' : BitReader} {b : Bool} (h : readBit r = .bit b r') (hr : r.rdCnt.toNat ≤ 8) :
    r'.fifo.length ≤ r.fifo.length ∧ r'.rdCnt.toNat ≤ 8 := by
  unfold readBit at h
  split at h
  · split at h
    · next hf =>
      obtain ⟨h1, h2⟩ := takeBit_bit h
      rw [h1, h2, hf]
      exact ⟨Nat.le_succ _, (by decide : (8 - 1 : BitVec 4).toNat ≤ 8)⟩
    · split at h <;> cases h
  · next hne =>
    obtain ⟨h1, h2⟩ := takeBit_bit h
    rw [h1, h2]
    exact ⟨le_rfl, by bv_omega⟩

theorem emptyAcc_lt : (0 : Byte).toNat < 2 ^ (0 : BitVec 3).toNat := by decide

/-- A bit written leaves the output FIFO within its depth and the partial byte within WR_CNT bits (20_memory.md R73). -/
theorem writeBit_range {cap : Nat} {b : Bool} {w w' : BitWriter} (h : writeBit cap b w = some w')
    (hl : w.fifo.length ≤ cap) (ha : w.wrAcc.toNat < 2 ^ w.wrCnt.toNat) :
    w'.fifo.length ≤ cap ∧ w'.wrAcc.toNat < 2 ^ w'.wrCnt.toNat := by
  unfold writeBit at h
  split at h
  · cases h
  · next hfull =>
    split at h <;> cases h
    · next h7 =>
      have hne : w.fifo.length ≠ cap := by simpa [h7] using hfull
      exact ⟨List.length_append.trans_le (Nat.lt_of_le_of_ne hl hne), emptyAcc_lt⟩
    · next h7 =>
      have hc : (w.wrCnt + 1).toNat = w.wrCnt.toNat + 1 := by bv_omega
      exact ⟨hl, hc ▸ shiftIn_lt b ha⟩

/-! ## The ranges are kept -/

/-- The ranges of the heap (10_state.md R26). -/
structure HeapInRange (h : Heap) : Prop where
  size : h.size ≤ Config.heapCap
  gone : h.alloc = false → h.entries = []
  payload : ∀ e ∈ h.entries, payNull e.comp e.pay = false ∧ payNotSymbol e.comp e.pay = false

theorem heapInRange_empty (a : Bool) : HeapInRange { alloc := a, entries := [] } :=
  ⟨Nat.zero_le _, fun _ => rfl, fun _ he => by cases he⟩

section Replace
variable {s u : State} (r : InRange s)
include r

theorem InRange.heapInRange : HeapInRange s.heap := ⟨r.heapSize, r.heapGone, r.payload⟩

/-- The ranges speak of the heap, the arena, the code table, the cursors and the parameters, each by itself. -/
theorem InRange.congr (heap : u.heap = s.heap) (arena : u.arena = s.arena) (codes : u.codes = s.codes) (inp : u.inp = s.inp)
    (out : u.out = s.out) (params : u.ext.params = s.ext.params) : InRange u := by
  constructor
  case heapSize => rw [heap]; exact r.heapSize
  case heapGone => rw [heap]; exact r.heapGone
  case payload => rw [heap]; exact r.payload
  case nodeCount => rw [arena]; exact r.nodeCount
  case codeLen => rw [codes]; exact r.codeLen
  case codeBits => rw [codes]; exact r.codeBits
  case inLevel => rw [inp, params]; exact r.inLevel
  case outLevel => rw [out, params]; exact r.outLevel
  case rdCnt => rw [inp]; exact r.rdCnt
  case wrAcc => rw [out]; exact r.wrAcc

theorem InRange.setHeap {h : Heap} (o : HeapInRange h) : InRange { s with heap := h } :=
  { r with heapSize := o.size, heapGone := o.gone, payload := o.payload }

theorem InRange.setArena {a : Arena} (h : a.count ≤ Config.nodeCap) : InRange { s with arena := a } :=
  { r with nodeCount := h }

theorem InRange.setCodes {c : CodeTable} (h : CodesOk c.len c.bits) : InRange { s with codes := c } :=
  { r with codeLen := fun v => (h v).1, codeBits := fun v => (h v).2 }

theorem InRange.setInp {i : BitReader} (hl : i.fifo.length ≤ s.ext.params.inCap) (hc : i.rdCnt.toNat ≤ 8) :
    InRange { s with inp := i } :=
  { r with inLevel := hl, rdCnt := hc }

theorem InRange.setOut {o : BitWriter} (hl : o.fifo.length ≤ s.ext.params.outCap) (ha : o.wrAcc.toNat < 2 ^ o.wrCnt.toNat) :
    InRange { s with out := o } :=
  { r with outLevel := hl, wrAcc := ha }

end Replace

theorem inRange_reset (e : Outside) : InRange { State.reset with ext := e } where
  heapSize := Nat.zero_le _
  heapGone _ := rfl
  payload _ h := by cases h
  nodeCount := Nat.zero_le _
  codeLen v := (codesOk_zero v).1
  codeBits v := (codesOk_zero v).2
  inLevel := Nat.zero_le _
  outLevel := Nat.zero_le _
  rdCnt := Nat.zero_le _
  wrAcc := emptyAcc_lt

theorem inRange_pushIn (v : Word) {s : State} (r : InRange s) : InRange (pushIn v s) := by
  unfold pushIn
  split
  · next h =>
    simp only [Bool.and_eq_true, decide_eq_true_eq] at h
    exact r.setInp (by simp only [List.length_append, List.length_singleton]; omega) r.rdCnt
  · exact r.congr rfl rfl rfl rfl rfl rfl

theorem inRange_keptByHost : KeptByHost InRange where
  ext _ _ he r := r.congr rfl rfl rfl rfl rfl he
  reset := inRange_reset
  pop s r := r.setOut (by rw [List.length_tail]; exact (Nat.sub_le _ _).trans r.outLevel) r.wrAcc
  ctrl v s r := (r.setInp (i := (writeCtrl v s).inp) r.inLevel r.rdCnt).congr rfl rfl rfl rfl rfl rfl
  status _ _ r := r.congr rfl rfl rfl rfl rfl rfl
  cmd _ _ r := by unfold writeCmd; split <;> exact r.congr rfl rfl rfl rfl rfl rfl
  arg _ _ r := r.congr rfl rfl rfl rfl rfl rfl
  push v _ r := inRange_pushIn v r
  illegal _ _ _ r := r.congr rfl rfl rfl rfl rfl rfl

/-! ## The commands that change a structure with a range -/

theorem heapInRange_insert {s : State} {c : Bool} {pay : NodeIdx} (r : HeapInRange s.heap) (halloc : s.heap.alloc = true)
    (hsize : s.heap.size ≠ Config.heapCap) (hnull : payNull c pay = false) (hsym : payNotSymbol c pay = false) :
    HeapInRange { s.heap with entries := heapInsert s.heap.entries (addEntry s.regs.arg0 c pay) } where
  size := (heapInsert_length _ _).trans_le (Nat.lt_of_le_of_ne r.size hsize)
  gone h := by
    rw [halloc] at h
    cases h
  payload e he := by
    rcases List.mem_cons.1 ((heapInsert_perm _ _).subset he) with rfl | he
    · exact ⟨hnull, hsym⟩
    · exact r.payload e he

theorem heapInRange_extract {h : Heap} {e : HeapEntry} {l : List HeapEntry} (r : HeapInRange h) (halloc : h.alloc = true)
    (x : heapExtract h.entries = some (e, l)) : HeapInRange { h with entries := l } where
  size := Nat.le_of_succ_le ((heapExtract_length x).symm.trans_le r.size)
  gone h := by
    rw [halloc] at h
    cases h
  payload e' he := r.payload e' ((heapExtract_perm x).subset (List.mem_cons_of_mem _ he))

theorem deliver_count : ∀ (st : List Frame) (n : NodeIdx) (s u : State), (deliver n st s).carries u →
    u.arena.count = s.arena.count
  | [], _, _, _, h => by
    cases h
    rfl
  | f :: st, _, s, u, h => by
    unfold deliver at h
    split at h
    · cases h
      exact setChild_length s.arena.nodes f.node .left _
    · exact (deliver_count st _ _ _ h).trans (setChild_length s.arena.nodes f.node .right _)

/-- DESERIALIZE_TREE allocates a node only in an arena that is not full (43_tree_codec.md R172). -/
theorem workDeserializeTree_count {s u : State} (r : s.arena.count ≤ Config.nodeCap) (h : (workDeserializeTree s).carries u) :
    u.arena.count ≤ Config.nodeCap := by
  unfold workDeserializeTree at h
  split at h
  · cases h
    exact Nat.zero_le _
  · split at h
    · split at h <;> cases h <;> exact Nat.zero_le _
    · unfold desControl at h
      split at h
      · cases h
        exact Nat.zero_le _
      · next hfull =>
        have hlt : s.arena.count < Config.nodeCap := Nat.lt_of_le_of_ne r hfull
        split at h <;> cases h <;> exact List.length_append.trans_le hlt
  · split at h
    · cases h
      exact Nat.zero_le _
    · split at h
      · rw [deliver_count _ _ _ _ h]
        exact List.length_set.trans_le r
      · cases h
        exact r
  · cases h

theorem workBuildTree_carries {s u : State} (h : (workBuildTree s).carries u) :
    u.heap = { alloc := false, entries := [] } ∧
      (u.arena = Arena.empty ∨
        ∃ root nodes, huffmanMerge s.freq.count = .tree root nodes ∧ u.arena = ⟨nodes, root, true⟩) := by
  unfold workBuildTree at h
  split at h <;> cases h
  · exact ⟨rfl, .inr ⟨_, _, ‹_›, rfl⟩⟩
  · exact ⟨rfl, .inl rfl⟩
  · exact ⟨rfl, .inl rfl⟩

theorem workBuildCodes_carries {s u : State} (h : (workBuildCodes s).carries u) :
    u.codes = s.codes ∨ u.codes = CodeTable.zero ∨
      ∃ len bits, codesOf s.arena = .table len bits ∧ u.codes = ⟨len, bits, true⟩ := by
  unfold workBuildCodes at h
  split at h
  · cases h
    exact .inl rfl
  · split at h <;> cases h
    · exact .inr (.inr ⟨_, _, ‹_›, rfl⟩)
    · exact .inr (.inl rfl)

/-- The work of every command keeps the ranges. -/
theorem workOf_inRange (i : Instr) {s u : State} (r : InRange s) (hu : (workOf i s).carries u) : InRange u := by
  have frame : u = touched i s u := (workOf_within i s).carries hu
  cases i with
  | heapCreate =>
    rw [frame]
    cases hu
    exact r.setHeap (heapInRange_empty _)
  | heapDestroy =>
    simp only [workOf, workHeapDestroy] at hu
    split at hu <;> cases hu
    · exact r
    · exact r.setHeap (heapInRange_empty _)
  | heapAdd c pay =>
    rcases workHeapAdd_carries hu with rfl | ⟨halloc, hnull, hsym, hsize, rfl⟩
    · exact r
    · exact r.setHeap (heapInRange_insert r.heapInRange halloc hsize hnull hsym)
  | heapRemove =>
    rw [frame]
    refine InRange.congr (r.setHeap (h := u.heap) ?_) rfl rfl rfl rfl rfl rfl
    rcases workHeapRemove_carries hu with e | ⟨_, _, halloc, x, e⟩ <;> rw [e]
    · exact r.heapInRange
    · exact heapInRange_extract r.heapInRange halloc x
  | buildTree =>
    obtain ⟨hheap, harena⟩ := workBuildTree_carries hu
    rw [frame]
    refine (r.setHeap (h := u.heap) ?_).setArena (a := u.arena) ?_
    · rw [hheap]
      exact heapInRange_empty _
    · rcases harena with e | ⟨root, nodes, hm, e⟩ <;> rw [e]
      · exact Nat.zero_le _
      · exact (huffmanMerge_tree hm).1
  | treeClear =>
    cases hu
    exact r.setArena (Nat.zero_le _)
  | deserializeTree =>
    rw [frame]
    exact r.setArena (workDeserializeTree_count r.nodeCount hu)
  | buildCodes =>
    rw [frame]
    refine r.setCodes ?_
    rcases workBuildCodes_carries hu with e | e | ⟨len, bits, hc, e⟩ <;> rw [e]
    · exact fun v => ⟨r.codeLen v, r.codeBits v⟩
    · exact codesOk_zero
    · exact codesOf_codesOk hc
  | streamReset o j =>
    cases hu
    have r' : InRange { s with inp := if j then BitReader.empty else s.inp } := by
      cases j
      · exact r
      · exact r.setInp (Nat.zero_le _) (Nat.zero_le _)
    cases o
    · exact r'
    · exact r'.setOut (Nat.zero_le _) emptyAcc_lt
  | _ => rw [frame]; exact r.congr rfl rfl rfl rfl rfl rfl

theorem releaseOf_inRange (i : Instr) {s : State} (r : InRange s) : InRange (releaseOf i s) := by
  cases i with
  | freqCount => exact r.congr rfl rfl rfl rfl rfl rfl
  | buildTree => exact (r.setArena (a := Arena.empty) (Nat.zero_le _)).setHeap (heapInRange_empty _)
  | deserializeTree => exact r.setArena (a := Arena.empty) (Nat.zero_le _)
  | buildCodes => exact r.setCodes codesOk_zero
  | encodeSym _ | encodeEos | decodeN | decodeEos =>
    exact r.congr (countWritten_heap s) (countWritten_arena s) (countWritten_codes s) (countWritten_inp s)
      (countWritten_out s) (congrArg Outside.params (countWritten_ext s))
  | _ => exact r

theorem exec_inRange {i : Instr} {s t : State} (r : InRange s) (h : exec i s = .next t) : InRange t := by
  rw [exec_eq_unitStep] at h
  refine unitStep_keeps InRange r (fun _ r => r.congr rfl rfl rfl rfl rfl rfl) (fun _ _ _ r => r.congr rfl rfl rfl rfl rfl rfl)
    (releaseOf_inRange i r) (fun u k b i _ r hb => ?_) (fun _ _ _ r _ => r.congr rfl rfl rfl rfl rfl rfl)
    (fun b u c w _ r hb => ?_) (fun _ => workOf_inRange i r) h
  · obtain ⟨hl, hc⟩ := readBit_range hb r.rdCnt
    exact (r.setInp (hl.trans r.inLevel) hc).congr rfl rfl rfl rfl rfl rfl
  · obtain ⟨hl, ha⟩ := writeBit_range hb r.outLevel r.wrAcc
    exact (r.setOut hl ha).congr rfl rfl rfl rfl rfl rfl

end Sys2Proof.Machine
end

section
/-! SUPPORT. The engine stays consistent and the arena a tree (10_state.md R29, R39): in a sound state the work of every command
leads on, to a place where the command can stand, on nodes of the tree. With the ranges this gives that every step keeps the
machine sound and that none faults. -/

namespace Sys2Proof.Machine

/-! ## Where the work of a unit step may lead -/

/-- The work `w` of a unit step of `i` does not break, leaves TREE_VALID = 1 only over a tree, and leads to a place where `i` can
stand (10_state.md R29, R39). A read that is held does not take place (20_memory.md R78). -/
def Work.LeadsOn (i : Instr) : Work → Prop
  | .finish u | .fail _ _ u => u.arena.valid = true → TreeOk u.arena
  | .read u k => readBit u.inp ≠ .hold → ∀ r, contFits i (k r) ∧ ArenaOk { u with cont := k r }
  | .write _ u c => contFits i c ∧ ArenaOk { u with cont := c }
  | .broken _ => False

theorem contFits_start (i : Instr) : contFits i .start := by
  cases i with
  | nop | heapCreate | heapDestroy | heapAdd | heapRemove | heapSize | freqClear | buildTree | treeClear | buildCodes
  | streamReset => exact rfl
  | _ => exact .inl rfl

/-- ArenaOk speaks of the arena and of ENGINE_CONT only. -/
theorem ArenaOk.congr {s u : State} (o : ArenaOk s) (ha : u.arena = s.arena) (hc : u.cont = s.cont) : ArenaOk u := by
  unfold ArenaOk at o ⊢
  rwa [ha, hc]

theorem ArenaOk.tree {s : State} (o : ArenaOk s) : s.arena.valid = true → TreeOk s.arena := o.1

section Stands
variable {s : State} (o : ArenaOk s)
include o

theorem ArenaOk.walk {n : NodeIdx} {b : Bool} {l : Word} {r : ReadRes} (h : s.cont = .walk n b l r) :
    s.arena.valid = true ∧ ∃ t ix, Holds s.arena.nodes t n ix := by
  rw [ArenaOk, h] at o
  exact o.2

theorem ArenaOk.outSym {v : Byte} {rem : Nat} {l : Word} (h : s.cont = .outSym v rem l) : s.arena.valid = true := by
  rw [ArenaOk, h] at o
  exact o.2

theorem ArenaOk.ser {st : List NodeIdx} {v : Byte} {rem : Nat} (h : s.cont = .ser st v rem) :
    s.arena.valid = true ∧ ∀ n ∈ st, ∃ t ix, Holds s.arena.nodes t n ix := by
  rw [ArenaOk, h] at o
  exact o.2

theorem ArenaOk.desCtl {st : List Frame} {first : Bool} {r : ReadRes} (h : s.cont = .desCtl st first r) :
    s.arena.valid = false ∧ ∃ ix, StackOk s.arena.nodes st ix ∧ ix.Nodup := by
  rw [ArenaOk, h] at o
  exact o.2

theorem ArenaOk.desSym {st : List Frame} {n : NodeIdx} {k : Nat} {v : Byte} {r : ReadRes} (h : s.cont = .desSym st n k v r) :
    s.arena.valid = false ∧ (∃ sym, nodeAt s.arena.nodes n = some (.leaf sym)) ∧
      ∃ ix, StackOk s.arena.nodes st ix ∧ (n :: ix).Nodup := by
  rw [ArenaOk, h] at o
  exact o.2

end Stands

/-! ## Reading bytes, writing codes and symbols -/

theorem rawByte_more {k k' : Nat} {v v' : Byte} {r : ReadRes} (h : rawByte k v r = .more k' v') (hk : k < 8) : k' < 8 := by
  unfold rawByte at h
  split at h
  · split at h <;> cases h
  · split at h <;> cases h
    omega

theorem workFreqCount_leadsOn {s : State} (o : ArenaOk s) (hfit : contFits .freqCount s.cont) :
    (workFreqCount s).LeadsOn .freqCount := by
  have first : ∀ r, contFits .freqCount (.rawByte 0 0 r) := fun r => .inr ⟨0, 0, r, rfl, by decide⟩
  unfold workFreqCount
  rcases hfit with hc | ⟨k, v, r, hc, hk⟩ <;> rw [hc]
  · exact fun _ r => ⟨first r, o.tree, trivial⟩
  · dsimp only
    split
    · next k' v' hm => exact fun _ r => ⟨.inr ⟨k', v', r, rfl, rawByte_more hm hk⟩, o.tree, trivial⟩
    · exact o.tree
    · exact o.tree
    · split
      · exact o.tree
      · exact fun _ r => ⟨first r, o.tree, trivial⟩

theorem emitNext_leadsOn {i : Instr} {t : State} {after : State → Work} {v : Byte} (rem : Nat)
    (hfit : ∀ k, contFits i (.emit v k)) (htree : t.arena.valid = true → TreeOk t.arena) (ha : (after t).LeadsOn i) :
    (emitNext v rem after t).LeadsOn i := by
  cases rem with
  | zero => exact ha
  | succ k => exact ⟨hfit k, htree, trivial⟩

theorem workEncodeSym_leadsOn {sym : Byte} {s : State} (o : ArenaOk s) (hfit : contFits (.encodeSym sym) s.cont) :
    (workEncodeSym sym s).LeadsOn (.encodeSym sym) := by
  have emits : ∀ k, contFits (.encodeSym sym) (.emit sym k) := fun k => .inr ⟨k, rfl⟩
  unfold workEncodeSym
  rcases hfit with hc | ⟨rem, hc⟩ <;> rw [hc] <;> dsimp only
  · split
    · exact o.tree
    · exact emitNext_leadsOn _ emits o.tree o.tree
  · exact emitNext_leadsOn _ emits o.tree o.tree

theorem workEncodeEos_leadsOn {s : State} (o : ArenaOk s) (hfit : contFits .encodeEos s.cont) :
    (workEncodeEos s).LeadsOn .encodeEos := by
  have first : ∀ r, contFits .encodeEos (.rawByte 0 0 r) := fun r => .inr (.inl ⟨0, 0, r, rfl, by decide⟩)
  have emits : ∀ v k, contFits .encodeEos (.emit v k) := fun v k => .inr (.inr ⟨v, k, rfl⟩)
  unfold workEncodeEos
  rcases hfit with hc | ⟨k, v, r, hc, hk⟩ | ⟨v, rem, hc⟩ <;> rw [hc] <;> dsimp only
  · split
    · exact o.tree
    · exact fun _ r => ⟨first r, o.tree, trivial⟩
  · split
    · next k' v' hm => exact fun _ r => ⟨.inr (.inl ⟨k', v', r, rfl, rawByte_more hm hk⟩), o.tree, trivial⟩
    · exact o.tree
    · exact o.tree
    · exact emitNext_leadsOn _ (emits _) o.tree o.tree
  · exact emitNext_leadsOn _ (emits v) o.tree fun _ r => ⟨first r, o.tree, trivial⟩

theorem workPutBits_leadsOn {n : BitVec 6} {s : State} (o : ArenaOk s) (hfit : contFits (.putBits n) s.cont) :
    (workPutBits n s).LeadsOn (.putBits n) := by
  have next : ∀ v rem, rem ≤ n.toNat → (putNext v rem s).LeadsOn (.putBits n) := by
    intro v rem hrem
    cases rem with
    | zero => exact o.tree
    | succ k => exact ⟨.inr ⟨v, k, rfl, hrem⟩, o.tree, trivial⟩
  unfold workPutBits
  split
  · exact o.tree
  · rcases hfit with hc | ⟨v, rem, hc, hrem⟩ <;> rw [hc]
    · exact next _ _ le_rfl
    · exact next _ _ hrem.le

theorem workGetBits_leadsOn {n : BitVec 6} {s : State} (o : ArenaOk s) (hfit : contFits (.getBits n) s.cont) :
    (workGetBits n s).LeadsOn (.getBits n) := by
  unfold workGetBits
  split
  · exact o.tree
  · next hn =>
    have hpos : 0 < n.toNat := by
      simp only [bitCountLegal, Bool.not_eq_true', Bool.not_eq_false, Bool.and_eq_true, decide_eq_true_eq] at hn
      exact hn.1
    rcases hfit with hc | ⟨k, v, r, hc, hk⟩ <;> rw [hc] <;> dsimp only
    · exact fun _ r => ⟨.inr ⟨0, 0, r, rfl, hpos⟩, o.tree, trivial⟩
    · split
      · exact o.tree
      · split
        · exact o.tree
        · next hlast => exact fun _ r => ⟨.inr ⟨_, _, r, rfl, Nat.lt_of_le_of_ne hk hlast⟩, o.tree, trivial⟩

theorem workFlush_leadsOn {s : State} (o : ArenaOk s) (hfit : contFits .flush s.cont) : (workFlush s).LeadsOn .flush := by
  have pad : (if s.out.wrCnt = 0 then Work.finish s else .write false s .flush).LeadsOn .flush := by
    split
    · exact o.tree
    · exact ⟨.inr rfl, o.tree, trivial⟩
  unfold workFlush
  rcases hfit with hc | hc <;> rw [hc] <;> exact pad

/-! ## Walks over the tree -/

theorem arriveAt_holds {ns : List Node} {t : CodeTree} {c : NodeIdx} {ix : List NodeIdx} (h : Holds ns t c ix) :
    (∃ v, arriveAt ns c = .sym v) ∨ arriveAt ns c = .go c := by
  unfold arriveAt
  cases t with
  | leaf sym =>
    rw [h.1]
    exact .inl ⟨sym, rfl⟩
  | node l r =>
    obtain ⟨_, _, _, _, _, hn, _⟩ := h
    rw [hn]
    exact .inr rfl

/-- From a node of a tree the walk of DecodeOne does not break, and goes on at a node of a tree (44_stream_codec.md R183). -/
theorem walkStep_holds {ns : List Node} {t : CodeTree} {n : NodeIdx} {ix : List NodeIdx} (h : Holds ns t n ix) (r : ReadRes) :
    walkStep ns n r ≠ .broken ∧ ∀ c, walkStep ns n r = .go c → ∃ t' ix', Holds ns t' c ix' := by
  have arrive : ∀ {t' c' ix'}, Holds ns t' c' ix' →
      arriveAt ns c' ≠ .broken ∧ ∀ c, arriveAt ns c' = .go c → ∃ t' ix', Holds ns t' c ix' := by
    intro t' c' ix' h'
    rcases arriveAt_holds h' with ⟨v, e⟩ | e <;> rw [e]
    · exact ⟨nofun, nofun⟩
    · refine ⟨nofun, fun c h => ?_⟩
      cases h
      exact ⟨t', ix', h'⟩
  unfold walkStep
  cases t with
  | leaf sym =>
    rw [h.1]
    dsimp only
    split <;> exact ⟨nofun, nofun⟩
  | node l r' =>
    obtain ⟨a, b, p, xs, ys, hn, hl, hr, -⟩ := h
    rw [hn]
    dsimp only
    split
    · exact ⟨nofun, nofun⟩
    · split
      · exact arrive hr
      · exact arrive hl

theorem TreeOk.root {a : Arena} (h : TreeOk a) : ∃ t ix, Holds a.nodes t a.root ix := by
  obtain ⟨t, ix, ht, -⟩ := h
  exact ⟨t, ix, ht⟩

/-- DecodeOne begins at the root of a tree. -/
theorem walkStart_leadsOn {i : Instr} {s : State} (limit : Word) (hfit : ∀ n b l r, contFits i (.walk n b l r))
    (hv : s.arena.valid = true) (ht : TreeOk s.arena) : (walkStart limit s).LeadsOn i :=
  fun _ _ => ⟨hfit _ _ _ _, fun _ => ht, hv, ht.root⟩

theorem outNext_leadsOn {i : Instr} {t : State} {after : State → Work} {v : Byte} {rem : Nat} {limit : Word}
    (hfit : ∀ k, k < 8 → contFits i (.outSym v k limit)) (hrem : rem ≤ 8) (hv : t.arena.valid = true) (ht : TreeOk t.arena)
    (ha : (after t).LeadsOn i) : (outNext v rem limit after t).LeadsOn i := by
  cases rem with
  | zero => exact ha
  | succ k => exact ⟨hfit k hrem, fun _ => ht, hv⟩

theorem workDecodeSym_leadsOn {s : State} (o : ArenaOk s) (hfit : contFits .decodeSym s.cont) :
    (workDecodeSym s).LeadsOn .decodeSym := by
  have walks : ∀ n b l r, contFits .decodeSym (.walk n b l r) := fun n b l r => .inr ⟨n, b, l, r, rfl⟩
  unfold workDecodeSym
  rcases hfit with hc | ⟨n, b, l, r, hc⟩
  · rw [hc]
    dsimp only
    split
    · exact o.tree
    · next hv =>
      have hv : s.arena.valid = true := by simpa using hv
      exact walkStart_leadsOn _ walks hv (o.tree hv)
  · obtain ⟨hv, t, ix, h⟩ := o.walk hc
    obtain ⟨hbroken, hgo⟩ := walkStep_holds h r
    rw [hc]
    dsimp only
    split
    · exact o.tree
    · next c e => exact fun _ _ => ⟨walks _ _ _ _, o.tree, hv, hgo c e⟩
    · exact o.tree
    · exact o.tree
    · next e => exact absurd e hbroken

theorem contFits_decodeN_walk (n : NodeIdx) (b : Bool) (l : Word) (r : ReadRes) : contFits .decodeN (.walk n b l r) :=
  .inr (.inr (.inl ⟨n, b, l, r, rfl⟩))

theorem decodeNLoop_leadsOn {s : State} (limit : Word) (hv : s.arena.valid = true) (ht : TreeOk s.arena) :
    (decodeNLoop limit s).LeadsOn .decodeN := by
  unfold decodeNLoop
  split
  · exact walkStart_leadsOn _ contFits_decodeN_walk hv ht
  · exact fun _ => ht

theorem decodeNStart_leadsOn {s : State} (htree : s.arena.valid = true → TreeOk s.arena) :
    (decodeNStart s).LeadsOn .decodeN := by
  unfold decodeNStart
  split
  · exact htree
  · next hv =>
    have hv : s.arena.valid = true := by simpa using hv
    exact decodeNLoop_leadsOn _ hv (htree hv)

theorem workDecodeN_leadsOn {s : State} (o : ArenaOk s) (hfit : contFits .decodeN s.cont) :
    (workDecodeN s).LeadsOn .decodeN := by
  have outs : ∀ v l k, k < 8 → contFits .decodeN (.outSym v k l) := fun v l k hk => .inr (.inr (.inr ⟨v, k, l, rfl, hk⟩))
  unfold workDecodeN
  rcases hfit with hc | hc | ⟨n, b, l, r, hc⟩ | ⟨v, rem, l, hc, hrem⟩
  · rw [hc]
    exact decodeNStart_leadsOn o.tree
  · rw [hc]
    dsimp only
    split
    · next hold => exact fun h => absurd hold h
    · exact decodeNStart_leadsOn o.tree
  · obtain ⟨hv, t, ix, h⟩ := o.walk hc
    obtain ⟨hbroken, hgo⟩ := walkStep_holds h r
    rw [hc]
    dsimp only
    split
    · exact outNext_leadsOn (outs _ _) le_rfl hv (o.tree hv) (decodeNLoop_leadsOn _ hv (o.tree hv))
    · next c e => exact fun _ _ => ⟨contFits_decodeN_walk _ _ _ _, o.tree, hv, hgo c e⟩
    · exact o.tree
    · exact o.tree
    · next e => exact absurd e hbroken
  · have hv := o.outSym hc
    rw [hc]
    exact outNext_leadsOn (outs _ _) hrem.le hv (o.tree hv) (decodeNLoop_leadsOn _ hv (o.tree hv))

theorem workDecodeEos_leadsOn {s : State} (o : ArenaOk s) (hfit : contFits .decodeEos s.cont) :
    (workDecodeEos s).LeadsOn .decodeEos := by
  have walks : ∀ n b l r, contFits .decodeEos (.walk n b l r) := fun n b l r => .inr (.inl ⟨n, b, l, r, rfl⟩)
  have outs : ∀ v l k, k < 8 → contFits .decodeEos (.outSym v k l) := fun v l k hk => .inr (.inr ⟨v, k, l, rfl, hk⟩)
  unfold workDecodeEos
  rcases hfit with hc | ⟨n, b, l, r, hc⟩ | ⟨v, rem, l, hc, hrem⟩
  · rw [hc]
    dsimp only
    split
    · exact o.tree
    · next hv =>
      have hv : s.arena.valid = true := by simpa using hv
      exact walkStart_leadsOn _ walks hv (o.tree hv)
  · obtain ⟨hv, t, ix, h⟩ := o.walk hc
    obtain ⟨hbroken, hgo⟩ := walkStep_holds h r
    rw [hc]
    dsimp only
    split
    · exact outNext_leadsOn (outs _ _) le_rfl hv (o.tree hv) (walkStart_leadsOn _ walks hv (o.tree hv))
    · next c e => exact fun _ _ => ⟨walks _ _ _ _, o.tree, hv, hgo c e⟩
    · exact o.tree
    · exact o.tree
    · next e => exact absurd e hbroken
  · have hv := o.outSym hc
    rw [hc]
    exact outNext_leadsOn (outs _ _) hrem.le hv (o.tree hv) (walkStart_leadsOn _ walks hv (o.tree hv))

/-! ## SERIALIZE_TREE -/

theorem serNext_leadsOn {s : State} {st : List NodeIdx} (htree : s.arena.valid = true → TreeOk s.arena)
    (hv : s.arena.valid = true) (hst : ∀ n ∈ st, ∃ t ix, Holds s.arena.nodes t n ix) :
    (serNext st s).LeadsOn .serializeTree := by
  cases st with
  | nil => exact htree
  | cons n st =>
    obtain ⟨⟨t, ix, h⟩, hst⟩ := List.forall_mem_cons.1 hst
    rw [serNext]
    cases t with
    | leaf sym =>
      rw [h.1]
      exact ⟨.inr ⟨st, sym, 8, rfl, le_rfl⟩, htree, hv, hst⟩
    | node l r =>
      obtain ⟨a, b, p, xs, ys, hn, hl, hr, -⟩ := h
      rw [hn]
      exact ⟨.inr ⟨_, 0, 0, rfl, Nat.zero_le _⟩, htree, hv,
        List.forall_mem_cons.2 ⟨⟨l, xs, hl⟩, List.forall_mem_cons.2 ⟨⟨r, ys, hr⟩, hst⟩⟩⟩

theorem workSerializeTree_leadsOn {s : State} (o : ArenaOk s) (hfit : contFits .serializeTree s.cont) :
    (workSerializeTree s).LeadsOn .serializeTree := by
  unfold workSerializeTree
  rcases hfit with hc | ⟨st, sym, rem, hc, hrem⟩
  · rw [hc]
    dsimp only
    split
    · exact o.tree
    · next hv =>
      have hv : s.arena.valid = true := by simpa using hv
      exact serNext_leadsOn o.tree hv (by simpa using (o.tree hv).root)
  · obtain ⟨hv, hst⟩ := o.ser hc
    rw [hc]
    cases rem with
    | zero => exact serNext_leadsOn o.tree hv hst
    | succ k => exact ⟨.inr ⟨st, sym, k, rfl, (Nat.lt_of_succ_le hrem).le⟩, o.tree, hv, hst⟩

/-! ## DESERIALIZE_TREE (43_tree_codec.md R172) -/

theorem contFits_desCtl (st : List Frame) (first : Bool) (r : ReadRes) : contFits .deserializeTree (.desCtl st first r) :=
  .inr (.inl ⟨st, first, r, rfl⟩)

theorem invalid_tree {a : Arena} (h : a.valid = false) : a.valid = true → TreeOk a := fun hv => by
  rw [h] at hv
  cases hv

/-- An update of one node leaves the others. -/
theorem nodeAt_set_of_not_mem {ns : List Node} {p : NodeIdx} (n : Node) {ix : List NodeIdx} (h : p ∉ ix) :
    ∀ j ∈ ix, nodeAt (ns.set p.toNat n) j = nodeAt ns j :=
  fun _ hj => nodeAt_set_ne n fun e => h (e ▸ hj)

/-- A complete subtree `t` at `n`, apart from the nodes `ix` of the stack, is delivered to its parent: the stack waits for its
next right child, or the whole tree is complete. -/
theorem deliver_leadsOn : ∀ (st : List Frame) (n : NodeIdx) (s : State) (t : CodeTree) (xs ix : List NodeIdx),
    s.arena.valid = false → Holds s.arena.nodes t n xs → StackOk s.arena.nodes st ix → (xs ++ ix).Nodup →
      (deliver n st s).LeadsOn .deserializeTree
  | [], n, s, t, xs, ix, _, ht, _, hd => fun _ => ⟨t, xs, ht, hd.of_append_left⟩
  | f :: st, n, s, t, xs, ix, hv, ht, ⟨a, b, prio, rest, hf, hst, hix⟩, hd => by
    unfold deliver
    cases hside : f.side with
    | left =>
      simp only [hside] at hix ⊢
      subst hix
      have hd' : (f.node :: (xs ++ rest)).Nodup := List.perm_middle.nodup_iff.1 hd
      obtain ⟨hx, hrest⟩ : f.node ∉ xs ∧ f.node ∉ rest := by
        simpa [not_or] using (List.nodup_cons.1 hd').1
      rw [setChild_left hf]
      refine fun _ r => ⟨contFits_desCtl _ _ r, invalid_tree hv, hv, f.node :: (xs ++ rest), ?_, hd'⟩
      exact ⟨n, b, prio, rest, nodeAt_set_self (nodeAt_lt hf), hst.congr (nodeAt_set_of_not_mem _ hrest), t, xs,
        ht.congr (nodeAt_set_of_not_mem _ hx), rfl⟩
    | right =>
      simp only [hside] at hix ⊢
      obtain ⟨tl, xl, htl, rfl⟩ := hix
      have hd' : (f.node :: (xl ++ xs) ++ rest).Nodup := by
        refine (List.Perm.nodup_iff ?_).1 hd
        refine List.perm_middle.trans (List.Perm.cons _ ?_)
        rw [← List.append_assoc]
        exact List.perm_append_comm.append_right rest
      obtain ⟨hl, hx, hrest⟩ : f.node ∉ xl ∧ f.node ∉ xs ∧ f.node ∉ rest := by
        simpa [not_or] using (List.nodup_cons.1 hd').1
      rw [setChild_right hf]
      refine deliver_leadsOn st f.node _ (.node tl t) (f.node :: (xl ++ xs)) rest hv ?_
        (hst.congr (nodeAt_set_of_not_mem _ hrest)) hd'
      exact ⟨a, n, prio, xl, xs, nodeAt_set_self (nodeAt_lt hf), htl.congr (nodeAt_set_of_not_mem _ hl),
        ht.congr (nodeAt_set_of_not_mem _ hx), rfl⟩

theorem StackOk.append {ns : List Node} {st : List Frame} {ix : List NodeIdx} (h : StackOk ns st ix) (l : List Node) :
    StackOk (ns ++ l) st ix :=
  h.congr fun j hj => by rw [nodeAt, List.getElem?_append_left (h.allocated j hj), nodeAt]

theorem desControl_leadsOn {s : State} {st : List Frame} {ix : List NodeIdx} (b : Bool) (hv : s.arena.valid = false)
    (hst : StackOk s.arena.nodes st ix) (hd : ix.Nodup) (hn : s.arena.count ≤ Config.nodeCap) :
    (desControl st b s).LeadsOn .deserializeTree := by
  unfold desControl
  split
  · exact invalid_tree rfl
  · next hfull =>
    have hlen : s.arena.nodes.length < 512 := lt_of_le_of_lt hn (by decide)
    have hd' : ∀ n, ((allocNode s.arena.nodes n).1 :: ix).Nodup := fun n =>
      List.nodup_cons.2 ⟨allocNode_fresh n hlen hst.allocated, hd⟩
    split
    · exact fun _ r => ⟨.inr (.inr ⟨_, _, 0, 0, r, rfl, by decide⟩), invalid_tree hv, hv,
        ⟨0, nodeAt_allocNode _ hlen⟩, ix, hst.append _, hd' (.leaf 0)⟩
    · exact fun _ r => ⟨contFits_desCtl _ _ r, invalid_tree hv, hv, _,
        ⟨_, _, _, ix, nodeAt_allocNode _ hlen, hst.append _, rfl⟩, hd' (.internal Config.nilIdx Config.nilIdx 0)⟩

theorem workDeserializeTree_leadsOn {s : State} (o : ArenaOk s) (hfit : contFits .deserializeTree s.cont)
    (hn : s.arena.count ≤ Config.nodeCap) : (workDeserializeTree s).LeadsOn .deserializeTree := by
  unfold workDeserializeTree
  rcases hfit with hc | ⟨st, first, r, hc⟩ | ⟨st, n, k, v, r, hc, hk⟩
  · rw [hc]
    exact fun _ r => ⟨contFits_desCtl _ _ r, invalid_tree rfl, rfl, [], rfl, List.nodup_nil⟩
  · obtain ⟨hv, ix, hst, hd⟩ := o.desCtl hc
    rw [hc]
    dsimp only
    split
    · split <;> exact invalid_tree rfl
    · exact desControl_leadsOn _ hv hst hd hn
  · obtain ⟨hv, ⟨sym, hleaf⟩, ix, hst, hd⟩ := o.desSym hc
    rw [hc]
    dsimp only
    split
    · exact invalid_tree rfl
    · split
      · refine deliver_leadsOn st n _ (.leaf _) [n] ix hv ⟨nodeAt_set_self (nodeAt_lt hleaf), rfl⟩ ?_ hd
        exact hst.congr (nodeAt_set_of_not_mem _ (List.nodup_cons.1 hd).1)
      · next hk8 =>
        exact fun _ r => ⟨.inr (.inr ⟨_, _, _, _, r, rfl, Nat.lt_of_le_of_ne hk hk8⟩), invalid_tree hv, hv, ⟨sym, hleaf⟩,
          ix, hst, hd⟩

/-! ## Every command -/

/-- In a sound state, at a place where the command can stand, its work leads on. -/
theorem workOf_leadsOn {i : Instr} {s : State} (r : InRange s) (o : ArenaOk s) (hfit : contFits i s.cont) :
    (workOf i s).LeadsOn i := by
  cases i with
  | nop | heapCreate | freqClear | streamReset => exact o.tree
  | treeClear => exact invalid_tree rfl
  | heapDestroy =>
    change (workHeapDestroy s).LeadsOn _
    unfold workHeapDestroy
    split <;> exact o.tree
  | heapAdd c pay =>
    change (workHeapAdd c pay s).LeadsOn _
    unfold workHeapAdd
    repeat' split
    all_goals exact o.tree
  | heapRemove =>
    change (workHeapRemove s).LeadsOn _
    unfold workHeapRemove
    repeat' split
    all_goals exact o.tree
  | heapSize =>
    change (workHeapSize s).LeadsOn _
    unfold workHeapSize
    split <;> exact o.tree
  | buildTree =>
    change (workBuildTree s).LeadsOn _
    unfold workBuildTree
    split
    · next hm => exact fun _ => (huffmanMerge_tree hm).2
    · exact invalid_tree rfl
    · exact invalid_tree rfl
    · next hm => exact absurd hm (mergeAll_ends _)
  | buildCodes =>
    change (workBuildCodes s).LeadsOn _
    unfold workBuildCodes
    split
    · exact o.tree
    · next hv =>
      split
      · exact o.tree
      · exact o.tree
      · next hm => exact absurd hm (codesOf_ne_broken (o.tree (by simpa using hv)) r.nodeCount)
  | freqCount => exact workFreqCount_leadsOn o hfit
  | serializeTree => exact workSerializeTree_leadsOn o hfit
  | deserializeTree => exact workDeserializeTree_leadsOn o hfit r.nodeCount
  | encodeSym sym => exact workEncodeSym_leadsOn o hfit
  | encodeEos => exact workEncodeEos_leadsOn o hfit
  | decodeSym => exact workDecodeSym_leadsOn o hfit
  | decodeN => exact workDecodeN_leadsOn o hfit
  | decodeEos => exact workDecodeEos_leadsOn o hfit
  | putBits n => exact workPutBits_leadsOn o hfit
  | getBits n => exact workGetBits_leadsOn o hfit
  | flush => exact workFlush_leadsOn o hfit

/-! ## The unit step of a sound state -/

theorem releaseOf_tree (i : Instr) {s : State} (h : s.arena.valid = true → TreeOk s.arena) :
    (releaseOf i s).arena.valid = true → TreeOk (releaseOf i s).arena := by
  cases i with
  | buildTree | deserializeTree => exact invalid_tree rfl
  | encodeSym _ | encodeEos | decodeN | decodeEos =>
    change (countWritten s).arena.valid = true → TreeOk (countWritten s).arena
    rwa [countWritten_arena]
  | _ => exact h

/-- An idle engine is consistent. -/
theorem engineOk_idle {s : State} (hb : s.stat.busy = false) (hc : s.cont = .idle) : EngineOk s := by
  refine ⟨fun _ => hc, fun h => ?_⟩
  rw [hb] at h
  cases h

theorem engineOk_busy {i : Instr} {s : State} (hb : s.stat.busy = true) (hd : decode s.regs.curCmd = .ok i)
    (hf : contFits i s.cont) : EngineOk s := by
  refine ⟨fun h => ?_, fun _ => by rwa [hd]⟩
  rw [hb] at h
  cases h

theorem EngineOk.contFits {i : Instr} {s : State} (o : EngineOk s) (hb : s.stat.busy = true)
    (hd : decode s.regs.curCmd = .ok i) : contFits i s.cont := by
  have := o.2 hb
  rwa [hd] at this

/-- Work that leads on does not fault. -/
theorem unitStep_next {i : Instr} {work : State → Work} {s : State} (rel : State → State) (h : (work s).LeadsOn i) :
    ∃ t, unitStep rel work s = .next t := by
  unfold unitStep
  split
  · exact ⟨_, rfl⟩
  · split
    · exact ⟨_, rfl⟩
    · exact ⟨_, rfl⟩
    · split <;> exact ⟨_, rfl⟩
    · split <;> exact ⟨_, rfl⟩
    · next hw =>
      rw [hw] at h
      exact h.elim

section Unit
variable {i : Instr} {s : State} (h : Sound s) (hb : s.stat.busy = true) (hd : decode s.regs.curCmd = .ok i)
include h hb hd

theorem Sound.leadsOn : (workOf i s).LeadsOn i := workOf_leadsOn h.range h.arena (h.engine.contFits hb hd)

theorem Sound.exec_next : ∃ t, exec i s = .next t := by
  rw [exec_eq_unitStep]
  exact unitStep_next _ (h.leadsOn hb hd)

/-- A unit step of a sound state ends in a sound state. -/
theorem Sound.exec {t : State} (hx : exec i s = .next t) : Sound t := by
  have range := exec_inRange h.range hx
  have lead := h.leadsOn hb hd
  have within := workOf_within i s
  have moves : ∀ {u : State}, u = touched i s u → u.stat.busy = true ∧ decode u.regs.curCmd = .ok i := by
    intro u hu
    rw [hu, touched_stat, touched_curCmd]
    exact ⟨hb, hd⟩
  rw [exec_eq_unitStep] at hx
  rcases unitStep_cases hx with ⟨_, rfl⟩ | ⟨_, ⟨_, rfl⟩ | ⟨u, e, rfl⟩ | ⟨_, _, u, e, rfl⟩ | ⟨u, k, e, hr, rfl⟩ |
    ⟨u, k, b, r, e, hr, rfl⟩ | ⟨b, u, c, w, e, hr, rfl⟩⟩
  · refine ⟨engineOk_idle rfl rfl, range, ?_, trivial⟩
    split
    · exact h.arena.tree
    · exact releaseOf_tree i h.arena.tree
  · exact h
  all_goals rw [e] at lead within
  · exact ⟨engineOk_idle rfl rfl, range, lead, trivial⟩
  · exact ⟨engineOk_idle rfl rfl, range, lead, trivial⟩
  · obtain ⟨hfit, ha⟩ := lead (by rw [hr]; exact nofun) .exh
    exact ⟨engineOk_busy (moves within.1).1 (moves within.1).2 hfit, range, ha⟩
  · obtain ⟨hfit, ha⟩ := lead (by rw [hr]; exact nofun) (.bit b)
    exact ⟨engineOk_busy (moves within.1).1 (moves within.1).2 hfit, range, ha.congr rfl rfl⟩
  · exact ⟨engineOk_busy (moves within.1).1 (moves within.1).2 lead.1, range, lead.2.congr rfl rfl⟩

end Unit

/-! ## The host's turns -/

theorem EngineOk.congr {s u : State} (o : EngineOk s) (hb : u.stat.busy = s.stat.busy) (hc : u.cont = s.cont)
    (hd : u.regs.curCmd = s.regs.curCmd) : EngineOk u := by
  unfold EngineOk at o ⊢
  rwa [hb, hc, hd]

/-- Acceptance puts the engine at the start of its command (60_exceptions.md R230). -/
theorem engineOk_accept (w : Word) (s : State) : EngineOk (accept w s) := by
  refine ⟨nofun, fun _ => ?_⟩
  split
  · exact contFits_start _
  · rfl

theorem engineOk_writeArg (v : Word) {s : State} (o : EngineOk s) : EngineOk (writeArg v s) := by
  cases hh : heldAtCount s with
  | false => exact o.congr rfl (by simp [hh]) rfl
  | true =>
    obtain ⟨hd, hc, hheld⟩ := (heldAtCount_iff s).1 hh
    have hb : s.stat.busy = true := by
      simp only [held, Bool.and_eq_true] at hheld
      exact hheld.1.1
    refine engineOk_busy (i := .decodeN) hb hd ?_
    rw [writeArg_cont, hh]
    exact .inr (.inl rfl)

theorem arenaOk_writeArg (v : Word) {s : State} (o : ArenaOk s) : ArenaOk (writeArg v s) := by
  cases hh : heldAtCount s with
  | false => exact o.congr rfl (by simp [hh])
  | true =>
    refine ⟨o.tree, ?_⟩
    rw [writeArg_cont, hh]
    trivial

theorem sound_keptByHost : KeptByHost Sound where
  ext s e he h := ⟨h.engine.congr rfl rfl rfl, inRange_keptByHost.ext s e he h.range, h.arena.congr rfl rfl⟩
  reset e := ⟨engineOk_idle rfl rfl, inRange_reset e, invalid_tree rfl, trivial⟩
  pop s h := ⟨h.engine.congr rfl rfl rfl, inRange_keptByHost.pop s h.range, h.arena.congr rfl rfl⟩
  ctrl v s h := ⟨h.engine.congr rfl rfl rfl, inRange_keptByHost.ctrl v s h.range, h.arena.congr rfl rfl⟩
  status v s h := ⟨h.engine.congr rfl rfl rfl, inRange_keptByHost.status v s h.range, h.arena.congr rfl rfl⟩
  cmd v s h := by
    refine ⟨?_, inRange_keptByHost.cmd v s h.range, ?_⟩ <;> unfold writeCmd <;> split
    · exact h.engine.congr rfl rfl rfl
    · exact engineOk_accept v s
    · exact h.arena.congr rfl rfl
    · exact ⟨h.arena.tree, trivial⟩
  arg v s h := ⟨engineOk_writeArg v h.engine, inRange_keptByHost.arg v s h.range, arenaOk_writeArg v h.arena⟩
  push v s h := by
    refine ⟨?_, inRange_keptByHost.push v s h.range, ?_⟩ <;> unfold pushIn <;> split
    · exact h.engine.congr rfl rfl rfl
    · exact h.engine.congr rfl rfl rfl
    · exact h.arena.congr rfl rfl
    · exact h.arena.congr rfl rfl
  illegal e info s h := ⟨engineOk_idle rfl rfl, inRange_keptByHost.illegal e info s h.range, h.arena.tree, trivial⟩

/-! ## Every step -/

/-- Settles O50: the host's turns keep the engine, the ranges and the arena, and the work of every command leads on. -/
theorem soundnessKeptByEveryStep : Obligations.SoundnessKeptByEveryStep :=
  fun _ _ => step_keeps sound_keptByHost fun _ _ _ hb hd h hx => h.exec hb hd hx

/-- In a sound state the engine's turn does not stop. -/
theorem Sound.engineTurn_next {s : State} (h : Sound s) : ∃ t, engineTurn s = .next t := by
  unfold engineTurn
  split
  · next hb =>
    split
    · next hd => exact h.exec_next hb hd
    · obtain ⟨e, info, he⟩ := execIllegal_raises s
      exact ⟨_, he⟩
  · exact ⟨_, rfl⟩

/-- A host access is refused exactly if it is malformed (20_memory.md R61; assumption 12). -/
theorem accessLegal_eq_false (width : Nat) (off : BitVec 14) :
    accessLegal width off = false ↔ width ≠ 32 ∨ off.toNat % 4 ≠ 0 := by
  rw [← Bool.not_eq_true, accessLegal_iff, not_and_or]

theorem hostRead_ends (width : Nat) (off : BitVec 14) (s : State) :
    (∃ t, hostRead width off s = .next t) ∨
      hostRead width off s = .refused .protocolViolation ∧ (width ≠ 32 ∨ off.toNat % 4 ≠ 0) := by
  unfold hostRead
  split
  · exact .inl ⟨_, rfl⟩
  · next h => exact .inr ⟨rfl, (accessLegal_eq_false _ _).1 (by simpa using h)⟩

theorem hostWrite_ends (width : Nat) (off : BitVec 14) (v : Word) (s : State) :
    (∃ t, hostWrite width off v s = .next t) ∨
      hostWrite width off v s = .refused .protocolViolation ∧ (width ≠ 32 ∨ off.toNat % 4 ≠ 0) := by
  unfold hostWrite
  split
  · exact .inl ⟨_, rfl⟩
  · next h => exact .inr ⟨rfl, (accessLegal_eq_false _ _).1 (by simpa using h)⟩

/-- The head of the agenda is a host access that 20_memory.md R61 excludes. -/
def MalformedAccess (s : State) : Prop :=
  ∃ width off rest, (width ≠ 32 ∨ off.toNat % 4 ≠ 0) ∧
    (s.ext.agenda = .read width off :: rest ∨ ∃ v, s.ext.agenda = .write width off v :: rest)

/-- A turn under an asserted reset input stops only at a malformed access. -/
theorem resetTurn_ends (s : State) :
    (∃ t, resetTurn s = .next t) ∨ resetTurn s = .refused .protocolViolation ∧ MalformedAccess s := by
  unfold resetTurn
  split
  · exact .inl ⟨_, rfl⟩
  · exact .inl ⟨_, rfl⟩
  · exact .inl ⟨_, rfl⟩
  · next width off rest ha =>
    rcases hostRead_ends width off (resetBlock (withAgenda rest s)) with ht | ⟨hr, hbad⟩
    · exact .inl ht
    · exact .inr ⟨hr, width, off, rest, hbad, .inl ha⟩
  · next width off v rest ha =>
    split
    · exact .inl ⟨_, rfl⟩
    · next hl => exact .inr ⟨rfl, width, off, rest, (accessLegal_eq_false _ _).1 (by simpa using hl), .inr ⟨v, ha⟩⟩
  · exact .inl ⟨_, rfl⟩

/-- Where the engine's turn does not stop, a turn stops only at a malformed access. -/
theorem runTurn_ends {s : State} (engine : ∀ a, ∃ t, engineTurn (withAgenda a s) = .next t) :
    (∃ t, runTurn s = .next t) ∨ runTurn s = .refused .protocolViolation ∧ MalformedAccess s := by
  unfold runTurn
  split
  · exact .inl (engine s.ext.agenda)
  · exact .inl (engine _)
  · split
    · exact .inl ⟨_, rfl⟩
    · exact .inl (engine s.ext.agenda)
  · next width off rest ha =>
    rcases hostRead_ends width off (withAgenda rest s) with ht | ⟨hr, hbad⟩
    · exact .inl ht
    · exact .inr ⟨hr, width, off, rest, hbad, .inl ha⟩
  · next width off v rest ha =>
    rcases hostWrite_ends width off v (withAgenda rest s) with ht | ⟨hr, hbad⟩
    · exact .inl ht
    · exact .inr ⟨hr, width, off, rest, hbad, .inr ⟨v, ha⟩⟩
  · exact .inl ⟨_, rfl⟩

/-- Settles O51: the engine's turn does not stop in a sound state, and of the other turns only a host access can. -/
theorem soundStepNeverFaults : Obligations.SoundStepNeverFaults := by
  intro s h
  cases hr : s.ext.resetIn with
  | true =>
    rw [step, takeTurn_reset hr]
    exact resetTurn_ends s
  | false =>
    rw [step, takeTurn_run hr]
    exact runTurn_ends fun a => Sound.engineTurn_next (s := withAgenda a s)
      (sound_keptByHost.ext s (withAgenda a s).ext rfl h)

end Sys2Proof.Machine
end

section
/-! SUPPORT. ReadBit and WriteBit, one equation per case (20_memory.md R71, R73), and what they do to the bits the block holds
(R75). -/

namespace Sys2Proof.Machine

/-! ## ReadBit (20_memory.md R71) -/

/-- With RD_CNT not 0 the bit comes from RD_BUF. -/
theorem readBit_buffered {r : BitReader} (h : r.rdCnt ≠ 0) : readBit r = takeBit r := if_neg h

/-- With RD_CNT = 0 the oldest byte of the FIFO is loaded and its bit 7 taken. -/
theorem readBit_loads {r : BitReader} {x : Byte} {f : List Byte} (h : r.rdCnt = 0) (hf : r.fifo = x :: f) :
    readBit r = .bit (x.getLsbD 7) { r with fifo := f, rdBuf := x, rdCnt := 7, rdBits := r.rdBits + 1 } := by
  rw [readBit, if_pos h, hf]
  exact congrArg (fun n : BitVec 4 => ReadOut.bit (x.getLsbD n.toNat) ⟨f, x, n, r.rdBits + 1, r.eos⟩)
    (by decide : (8 - 1 : BitVec 4) = 7)

/-- An empty input is exhausted once IN_EOS is set (20_memory.md R70). -/
theorem readBit_exh_iff (r : BitReader) : readBit r = .exh ↔ r.rdCnt = 0 ∧ r.fifo = [] ∧ r.eos = true := by
  unfold readBit
  split
  · next hc =>
    split
    · next hf => simp [takeBit, hf]
    · next hf => split <;> simp_all
  · next hc => exact iff_of_false nofun fun h => hc h.1

/-- An empty input without IN_EOS holds the reader (20_memory.md R70, R78). -/
theorem readBit_hold_iff (r : BitReader) : readBit r = .hold ↔ r.rdCnt = 0 ∧ r.fifo = [] ∧ r.eos = false := by
  unfold readBit
  split
  · next hc =>
    split
    · next hf => simp [takeBit, hf]
    · next hf => split <;> simp_all
  · next hc => exact iff_of_false nofun fun h => hc h.1

/-- A bit comes from RD_BUF or from the oldest byte of the FIFO. -/
theorem readBit_bit_cases {r r' : BitReader} {b : Bool} (h : readBit r = .bit b r') :
    r.rdCnt ≠ 0 ∧ takeBit r = .bit b r' ∨
      ∃ x f, r.rdCnt = 0 ∧ r.fifo = x :: f ∧ takeBit { r with fifo := f, rdBuf := x, rdCnt := 8 } = .bit b r' := by
  unfold readBit at h
  split at h
  · next hc =>
    split at h
    · exact .inr ⟨_, _, hc, ‹_›, h⟩
    · split at h <;> cases h
  · exact .inl ⟨‹_›, h⟩

/-- A bit read is counted in RD_BITS, and IN_EOS stays. -/
theorem readBit_counts {r r' : BitReader} {b : Bool} (h : readBit r = .bit b r') :
    r'.rdBits = r.rdBits + 1 ∧ r'.eos = r.eos := by
  rcases readBit_bit_cases h with ⟨-, h⟩ | ⟨x, f, -, -, h⟩ <;> cases h <;> exact ⟨rfl, rfl⟩

/-- A bit read is the first of the unread bits (20_memory.md R75). -/
theorem readBit_inBits {r : BitReader} {b : Bool} {bs : List Bool} (h : inBits r = b :: bs) :
    ∃ r', readBit r = .bit b r' ∧ inBits r' = bs := by
  by_cases hc : r.rdCnt = 0
  · cases hf : r.fifo with
    | nil =>
      rw [inBits, hc, hf] at h
      cases h
    | cons x f =>
      rw [inBits, hc, hf] at h
      obtain ⟨rfl, rfl⟩ := List.cons.inj h
      exact ⟨_, readBit_loads hc hf, rfl⟩
  · obtain ⟨k, hk⟩ : ∃ k, r.rdCnt.toNat = k + 1 := Nat.exists_eq_succ_of_ne_zero fun h0 => hc (BitVec.eq_of_toNat_eq h0)
    have hk' : (r.rdCnt - 1).toNat = k := by bv_omega
    rw [inBits, hk] at h
    obtain ⟨rfl, rfl⟩ := List.cons.inj h
    refine ⟨_, (readBit_buffered hc).trans (by rw [takeBit, hk']), ?_⟩
    rw [inBits, hk']
    rfl

/-- Settles O39, by the two places a bit can come from: RD_BUF and the FIFO's oldest byte. -/
theorem readBitTakesTheNextBit : Obligations.ReadBitTakesTheNextBit := by
  refine ⟨fun r hr b bs h => ?_, fun r => ⟨readBit_exh_iff r, readBit_hold_iff r, fun hc => ?_, fun x f => readBit_loads⟩⟩
  · obtain ⟨r', hb, hbits⟩ := readBit_inBits h
    obtain ⟨hcount, heos⟩ := readBit_counts hb
    exact ⟨r', hb, hbits, hcount, heos, (readBit_range hb hr).2⟩
  · have hpred : (r.rdCnt - 1).toNat = r.rdCnt.toNat - 1 := by bv_omega
    rw [readBit_buffered hc, takeBit, hpred]

/-! ## WriteBit (20_memory.md R73) -/

/-- A bit that is not the eighth stays in WR_ACC. -/
theorem writeBit_within {cap : Nat} {b : Bool} {w : BitWriter} (h : w.wrCnt ≠ 7) :
    writeBit cap b w = some { w with wrAcc := shiftIn w.wrAcc b, wrCnt := w.wrCnt + 1, wrBits := w.wrBits + 1 } := by
  rw [writeBit, if_neg (by simp only [h, decide_false, Bool.false_and, Bool.false_eq_true, not_false_eq_true]), if_neg h]

/-- The eighth bit completes a byte, if the FIFO has room for it. -/
theorem writeBit_completes {cap : Nat} {b : Bool} {w : BitWriter} (h : w.wrCnt = 7) (hcap : w.fifo.length ≠ cap) :
    writeBit cap b w =
      some { fifo := w.fifo ++ [shiftIn w.wrAcc b], wrAcc := 0, wrCnt := 0, wrBits := w.wrBits + 1 } := by
  simp [writeBit, h, hcap]

/-- A WriteBit that takes place stays within the byte or completes it. -/
theorem writeBit_cases {cap : Nat} {b : Bool} {w w' : BitWriter} (h : writeBit cap b w = some w') :
    w.wrCnt ≠ 7 ∧ w' = { w with wrAcc := shiftIn w.wrAcc b, wrCnt := w.wrCnt + 1, wrBits := w.wrBits + 1 } ∨
      w.wrCnt = 7 ∧ w.fifo.length ≠ cap ∧
        w' = { fifo := w.fifo ++ [shiftIn w.wrAcc b], wrAcc := 0, wrCnt := 0, wrBits := w.wrBits + 1 } := by
  by_cases h7 : w.wrCnt = 7
  · have hcap : w.fifo.length ≠ cap := fun hc => by
      rw [(writeBit_none_iff cap b w).2 ⟨h7, hc⟩] at h
      cases h
    rw [writeBit_completes h7 hcap] at h
    cases h
    exact .inr ⟨h7, hcap, rfl⟩
  · rw [writeBit_within h7] at h
    cases h
    exact .inl ⟨h7, rfl⟩

theorem writeBit_counts {cap : Nat} {b : Bool} {w w' : BitWriter} (h : writeBit cap b w = some w') :
    w'.wrBits = w.wrBits + 1 := by
  rcases writeBit_cases h with ⟨-, rfl⟩ | ⟨-, -, rfl⟩ <;> rfl

/-- A bit written is the last of the output bits (20_memory.md R75). -/
theorem writeBit_outBits {cap : Nat} {b : Bool} {w w' : BitWriter} (h : writeBit cap b w = some w') :
    outBits w' = outBits w ++ [b] := by
  rcases writeBit_cases h with ⟨h7, rfl⟩ | ⟨h7, -, rfl⟩
  · have hn : (w.wrCnt + 1).toNat = w.wrCnt.toNat + 1 := by bv_omega
    rw [outBits, outBits, hn, bitsOf_shiftIn _ _ _ (by have := w.wrCnt.isLt; omega), List.append_assoc]
  · calc bytesBits (w.fifo ++ [shiftIn w.wrAcc b]) ++ []
        = bytesBits w.fifo ++ bitsOf (7 + 1) (shiftIn w.wrAcc b) := by rw [bytesBits_append]; simp
      _ = bytesBits w.fifo ++ bitsOf 7 w.wrAcc ++ [b] := by rw [bitsOf_shiftIn _ _ 7 le_rfl, List.append_assoc]
      _ = outBits w ++ [b] := by rw [outBits, h7]; rfl

/-- Settles O40, by whether the bit completes a byte. -/
theorem writeBitAppendsTheBit : Obligations.WriteBitAppendsTheBit := by
  refine fun cap b w => ⟨writeBit_none_iff cap b w, fun w' h => ⟨writeBit_outBits h, writeBit_counts h, ?_⟩⟩
  rcases writeBit_cases h with ⟨h7, rfl⟩ | ⟨h7, -, rfl⟩
  · exact ⟨fun h => absurd h h7, fun _ => ⟨rfl, rfl, rfl⟩⟩
  · exact ⟨fun _ => ⟨rfl, rfl, rfl⟩, fun h => absurd h7 h⟩

end Sys2Proof.Machine
end

section
/-! SUPPORT. Statements about the register port: the address map by number (20_memory.md R63), the words of registers and
windows as sums of their fields (R64), and the host's accesses (R61, R62, R66 to R68). -/

namespace Sys2Proof.Machine

/-! ## The address map (20_memory.md R63) -/

theorem regAt_low {off : BitVec 14} (h : off.toNat < 0x400) : regAt off = namedReg (off.toNat / 4) := if_pos h

theorem namedReg_unmapped {n : Nat} (h : 22 ≤ n) : namedReg n = .unmapped := by
  unfold namedReg
  split
  case h_23 => rfl
  all_goals omega

/-- Each named register has one word number. -/
theorem namedReg_inj {m n : Nat} (hm : m < 22) (h : namedReg n = namedReg m) : n = m := by
  have mapped : ∀ m < 22, namedReg m ≠ .unmapped := by decide
  have inj : ∀ m < 22, ∀ n < 22, namedReg n = namedReg m → n = m := by decide
  by_cases hn : n < 22
  · exact inj m hm n hn h
  · exact absurd (h.symm.trans (namedReg_unmapped (Nat.le_of_not_lt hn))) (mapped m hm)

/-- Each named register is at one aligned offset only. -/
theorem regAt_named_offset {off : BitVec 14} {m : Nat} (h4 : off.toNat % 4 = 0) (hm : m < 22)
    (h : regAt off = namedReg m) : off.toNat = 4 * m := by
  by_cases hlow : off.toNat < 0x400
  · rw [regAt_low hlow] at h
    have := namedReg_inj hm h
    omega
  · simp only [regAt, if_neg hlow] at h
    repeat' split at h
    all_goals interval_cases m <;> cases h

/-- What maps to nothing: the rest of the first KiB, the last words of the node windows, and 0x2800 on (20_memory.md R63). -/
theorem regAt_unmapped {off : BitVec 14}
    (h : 0x058 ≤ off.toNat ∧ off.toNat < 0x400 ∨ off = 0x17FC#14 ∨ off = 0x1FFC#14 ∨ 0x2800 ≤ off.toNat) :
    regAt off = .unmapped := by
  rcases h with ⟨hlo, hhi⟩ | rfl | rfl | h
  · rw [regAt_low hhi, namedReg_unmapped (by omega)]
  · rfl
  · rfl
  · simp only [regAt]
    repeat rw [if_neg (by omega)]

section Windows
variable {off : BitVec 14}

/-- The entry number of a window's offset. -/
theorem entry_of_offset {w : Nat} (base : Nat) (i : BitVec w) : BitVec.ofNat w ((base + 4 * i.toNat - base) / 4) = i := by
  rw [Nat.add_sub_cancel_left, Nat.mul_div_cancel_left _ (by decide), BitVec.ofNat_toNat, BitVec.setWidth_eq]

theorem regAt_freq {u : Byte} (h : off.toNat = 0x400 + 4 * u.toNat) : regAt off = .freq u := by
  have := u.isLt
  rw [regAt, h]
  repeat rw [if_neg (by omega)]
  rw [if_pos (by omega), entry_of_offset]

theorem regAt_codeLen {u : Byte} (h : off.toNat = 0x800 + 4 * u.toNat) : regAt off = .codeLen u := by
  have := u.isLt
  rw [regAt, h]
  repeat rw [if_neg (by omega)]
  rw [if_pos (by omega), entry_of_offset]

theorem regAt_codeBits {u : Byte} (h : off.toNat = 0xC00 + 4 * u.toNat) : regAt off = .codeBits u := by
  have := u.isLt
  rw [regAt, h]
  repeat rw [if_neg (by omega)]
  rw [if_pos (by omega), entry_of_offset]

theorem regAt_node {n : NodeIdx} (hn : n.toNat ≤ 510) (h : off.toNat = 0x1000 + 4 * n.toNat) : regAt off = .node n := by
  rw [regAt, h]
  repeat rw [if_neg (by omega)]
  rw [if_pos (by omega), entry_of_offset]

theorem regAt_nodePrio {n : NodeIdx} (hn : n.toNat ≤ 510) (h : off.toNat = 0x1800 + 4 * n.toNat) :
    regAt off = .nodePrio n := by
  rw [regAt, h]
  repeat rw [if_neg (by omega)]
  rw [if_pos (by omega), entry_of_offset]

theorem regAt_heapPrio {i : Byte} (h : off.toNat = 0x2000 + 4 * i.toNat) : regAt off = .heapPrio i := by
  have := i.isLt
  rw [regAt, h]
  repeat rw [if_neg (by omega)]
  rw [if_pos (by omega), entry_of_offset]

theorem regAt_heapPay {i : Byte} (h : off.toNat = 0x2400 + 4 * i.toNat) : regAt off = .heapPay i := by
  have := i.isLt
  rw [regAt, h]
  repeat rw [if_neg (by omega)]
  rw [if_pos (by omega), entry_of_offset]

end Windows

/-! ## Words as sums of their fields (20_memory.md R63, R64) -/

/-- The number of a concatenation. -/
theorem toNat_append_add {m n : Nat} (x : BitVec m) (y : BitVec n) : (x ++ y).toNat = x.toNat * 2 ^ n + y.toNat := by
  rw [BitVec.toNat_append, ← Nat.shiftLeft_add_eq_or_of_lt y.isLt, Nat.shiftLeft_eq]

theorem ctrlWord_eq (s : State) : ctrlWord s = BitVec.ofNat 32 (s.stat.ie.toNat + 2 * s.inp.eos.toNat) := by
  rw [ctrlWord]
  cases s.stat.ie <;> cases s.inp.eos <;> rfl

theorem inCap_le (p : Params) : p.inCap ≤ 255 := p.inDepth.isLt

theorem outCap_le (p : Params) : p.outCap ≤ 255 := p.outDepth.isLt

/-- A FIFO level fits its 8 bits. -/
theorem fifoWord_eq {s : State} (r : InRange s) :
    fifoWord s = BitVec.ofNat 32 (s.inp.fifo.length + 2 ^ 8 * s.out.fifo.length) := by
  have hin := r.inLevel.trans (inCap_le _)
  have hout := r.outLevel.trans (outCap_le _)
  refine BitVec.eq_of_toNat_eq ?_
  simp only [fifoWord, toNat_append_add, BitVec.toNat_ofNat]
  omega

theorem param1Word_eq (p : Params) : param1Word p = BitVec.ofNat 32 (32 + 2 ^ 8 * p.inCap + 2 ^ 16 * p.outCap) := by
  have hin := inCap_le p
  have hout := outCap_le p
  refine BitVec.eq_of_toNat_eq ?_
  simp only [param1Word, Config.codeMax, toNat_append_add, BitVec.toNat_ofNat]
  omega

theorem cursorWord_eq (s : State) :
    cursorWord s =
      BitVec.ofNat 32
        (s.inp.rdCnt.toNat + 2 ^ 8 * s.inp.rdBuf.toNat + 2 ^ 16 * s.out.wrCnt.toNat + 2 ^ 24 * s.out.wrAcc.toNat) := by
  have h1 := s.inp.rdCnt.isLt
  have h2 := s.inp.rdBuf.isLt
  have h3 := s.out.wrCnt.isLt
  have h4 := s.out.wrAcc.isLt
  refine BitVec.eq_of_toNat_eq ?_
  simp only [cursorWord, toNat_append_add, BitVec.toNat_ofNat]
  omega

theorem popWord_eq (b : Byte) : 0#23 ++ 1#1 ++ b = BitVec.ofNat 32 (256 + b.toNat) := by
  have := b.isLt
  refine BitVec.eq_of_toNat_eq ?_
  simp only [toNat_append_add, BitVec.toNat_ofNat]
  omega

theorem nodeWord_leaf {ns : List Node} {n : NodeIdx} {v : Byte} (h : nodeAt ns n = some (.leaf v)) :
    nodeWord ns n = BitVec.ofNat 32 (2 ^ 31 + 2 ^ 30 + v.toNat) := by
  have := v.isLt
  rw [nodeWord, h]
  refine BitVec.eq_of_toNat_eq ?_
  simp only [toNat_append_add, BitVec.toNat_ofNat]
  omega

theorem nodeWord_internal {ns : List Node} {n a b : NodeIdx} {p : Word} (h : nodeAt ns n = some (.internal a b p)) :
    nodeWord ns n = BitVec.ofNat 32 (2 ^ 31 + 2 ^ 9 * a.toNat + b.toNat) := by
  have := a.isLt
  have := b.isLt
  rw [nodeWord, h]
  refine BitVec.eq_of_toNat_eq ?_
  simp only [toNat_append_add, BitVec.toNat_ofNat]
  omega

theorem nodeWord_none {ns : List Node} {n : NodeIdx} (h : nodeAt ns n = none) : nodeWord ns n = 0 := by
  rw [nodeWord, h]

theorem heapPayWord_some {h : Heap} {i : Byte} {e : HeapEntry} (he : h.entries[i.toNat]? = some e) :
    heapPayWord h i = BitVec.ofNat 32 (2 ^ 9 * e.comp.toNat + e.pay.toNat) := by
  have := e.pay.isLt
  rw [heapPayWord, he]
  refine BitVec.eq_of_toNat_eq ?_
  simp only [toNat_append_add, BitVec.toNat_ofNat, BitVec.toNat_ofBool]
  have := Bool.toNat_le e.comp
  omega

/-! ## Host reads (20_memory.md R65, R68) -/

/-- A read of OUT_DATA is exact at all times. -/
theorem readReg_outData (s : State) : readReg .outData s = popOut s := if_neg (by simp [exactWhileBusy])

/-- A read of IN_DATA gives a free value at all times (assumption 7). -/
theorem readReg_inData (s : State) : readReg .inData s = drawRead s := ite_self _

section Read
variable {s : State} {off : BitVec 14} {rest : List Turn} (hr : s.ext.resetIn = false)
  (ha : s.ext.agenda = .read 32 off :: rest)
include hr ha

/-- A step whose turn is a host read at an aligned offset (20_memory.md R61, R65). -/
theorem step_read (h4 : off.toNat % 4 = 0) :
    step s = .next (returnWord (readReg (regAt off) (withAgenda rest s))) := by
  rw [step, takeTurn_run hr, runTurn, ha]
  exact if_pos ((accessLegal_iff 32 off).2 ⟨rfl, h4⟩)

/-- A read without a side effect, of a register that is exact, gives the host its word. -/
theorem step_read_exact {word : Word} (h4 : off.toNat % 4 = 0)
    (hx : s.stat.busy = false ∨ exactWhileBusy (regAt off) = true)
    (hw : readExact (withAgenda rest s) (regAt off) = (word, withAgenda rest s)) :
    step s = .next { s with ext := { s.ext with agenda := rest, hostReads := word :: s.ext.hostReads } } := by
  rw [step_read hr ha h4, readReg, if_neg (by rcases hx with hx | hx <;> simp [hx]), hw]
  rfl

/-- A read of a drawn value gives the host a fresh free one (20_memory.md R68; assumption 6). -/
theorem step_read_free (h4 : off.toNat % 4 = 0)
    (hd : readReg (regAt off) (withAgenda rest s) = drawRead (withAgenda rest s)) :
    step s =
      .next
        { s with
          ext :=
            { s.ext with
              agenda := rest, hostReads := Config.freeRead s.ext.draws :: s.ext.hostReads, draws := s.ext.draws + 1 } } := by
  rw [step_read hr ha h4, hd]
  rfl

end Read

/-- The registers outside R68's list, and the windows, are not exact while BUSY = 1. -/
theorem not_exactWhileBusy {off : BitVec 14} (h4 : off.toNat % 4 = 0)
    (hn : off ∉ [0x000#14, 0x004#14, 0x008#14, 0x00C#14, 0x010#14, 0x044#14, 0x04C#14, 0x050#14, 0x054#14])
    (h : off.toNat < 0x058 ∨ 0x400 ≤ off.toNat ∧ off.toNat < 0x2800 ∧ off ≠ 0x17FC#14 ∧ off ≠ 0x1FFC#14) :
    exactWhileBusy (regAt off) = false := by
  rcases h with h | ⟨hlo, hhi, h1, h2⟩
  · have listed : ∀ k < 22, BitVec.ofNat 14 (4 * k) ∉
        [0x000#14, 0x004#14, 0x008#14, 0x00C#14, 0x010#14, 0x044#14, 0x04C#14, 0x050#14, 0x054#14] →
        exactWhileBusy (namedReg k) = false := by decide
    have hoff : off = BitVec.ofNat 14 (4 * (off.toNat / 4)) := BitVec.eq_of_toNat_eq (by simp; omega)
    rw [regAt_low (by omega)]
    exact listed _ (by omega) (hoff ▸ hn)
  · have h1 : off.toNat ≠ 0x17FC := fun e => h1 (BitVec.eq_of_toNat_eq e)
    have h2 : off.toNat ≠ 0x1FFC := fun e => h2 (BitVec.eq_of_toNat_eq e)
    simp only [regAt]
    rw [if_neg (by omega)]
    split_ifs
    · rfl
    · rfl
    · rfl
    · rfl
    · omega
    · rfl
    · omega
    · rfl
    · rfl

/-- Settles O57: each listed word, its fields put together, is what `readExact` answers, and the rest is drawn. -/
theorem readsAreExactWhenIdleAndFreeWhenBusy : Obligations.ReadsAreExactWhenIdleAndFreeWhenBusy := by
  intro s off rest hr ha h4 range
  refine ⟨fun word h => ?_, fun h => ?_⟩
  · rw [← ctrlWord_eq, ← held_withAgenda rest s, ← fifoWord_eq range, ← param1Word_eq, ← cursorWord_eq] at h
    rcases h with h | ⟨hb, h⟩ | ⟨h, rfl⟩
    · simp only [List.mem_cons, Prod.mk.injEq, List.not_mem_nil, or_false] at h
      rcases h with ⟨rfl, rfl⟩ | ⟨rfl, rfl⟩ | ⟨rfl, rfl⟩ | ⟨rfl, rfl⟩ | ⟨rfl, rfl⟩ | ⟨rfl, rfl⟩ | ⟨rfl, rfl⟩ | ⟨rfl, rfl⟩
      all_goals exact step_read_exact hr ha h4 (.inr rfl) rfl
    · simp only [List.mem_cons, Prod.mk.injEq, List.not_mem_nil, or_false] at h
      rcases h with ⟨rfl, rfl⟩ | ⟨rfl, rfl⟩ | ⟨rfl, rfl⟩ | ⟨rfl, rfl⟩ | ⟨rfl, rfl⟩ | ⟨rfl, rfl⟩ | ⟨rfl, rfl⟩ | ⟨rfl, rfl⟩ |
        ⟨rfl, rfl⟩ | ⟨rfl, rfl⟩ | ⟨rfl, rfl⟩ | ⟨rfl, rfl⟩
      all_goals exact step_read_exact hr ha h4 (.inl hb) rfl
    · have hu := regAt_unmapped h
      exact step_read_exact hr ha h4 (.inr (by rw [hu]; rfl)) (by rw [hu]; rfl)
  · refine step_read_free hr ha h4 ?_
    rcases h with rfl | ⟨hb, hn, h⟩
    · exact readReg_inData _
    · have hx := not_exactWhileBusy h4 hn h
      exact if_pos (by simp [hb, hx])

/-- Settles O58: each window's offset names its entry, and the entry's word is the sum of its fields. -/
theorem windowsShowTheTables : Obligations.WindowsShowTheTables := by
  intro s off rest word hr ha hb h
  have shows : ∀ r, regAt off = r → off.toNat % 4 = 0 → readExact (withAgenda rest s) r = (word, withAgenda rest s) →
      step s = .next { s with ext := { s.ext with agenda := rest, hostReads := word :: s.ext.hostReads } } := by
    rintro r rfl h4 hw
    exact step_read_exact hr ha h4 (.inl hb) hw
  have missing : ∀ {n : NodeIdx}, s.arena.nodes.length ≤ n.toNat → nodeAt s.arena.nodes n = none :=
    fun hn => List.getElem?_eq_none hn
  rcases h with ⟨u, h⟩ | ⟨n, hn, hoff, h⟩ | ⟨n, hn, hoff, h⟩ | ⟨i, h⟩
  · rcases h with ⟨hoff, rfl⟩ | ⟨hoff, rfl⟩ | ⟨hoff, rfl⟩
    · exact shows _ (regAt_freq hoff) (by omega) rfl
    · exact shows _ (regAt_codeLen hoff) (by omega) rfl
    · exact shows _ (regAt_codeBits hoff) (by omega) rfl
  · refine shows _ (regAt_node hn hoff) (by omega) (congrArg (·, _) ?_)
    rcases h with ⟨v, hv, rfl⟩ | ⟨a, b, p, hp, rfl⟩ | ⟨hlen, rfl⟩
    · exact nodeWord_leaf hv
    · exact nodeWord_internal hp
    · exact nodeWord_none (missing hlen)
  · refine shows _ (regAt_nodePrio hn hoff) (by omega) (congrArg (·, _) ?_)
    change nodePrioWord s.arena.nodes n = word
    rcases h with ⟨v, hv, rfl⟩ | ⟨a, b, p, hp, rfl⟩ | ⟨hlen, rfl⟩
    · rw [nodePrioWord, hv]
    · rw [nodePrioWord, hp]
    · rw [nodePrioWord, missing hlen]
  · rcases h with ⟨e, he, ⟨hoff, rfl⟩ | ⟨hoff, rfl⟩⟩ | ⟨hlen, hoff, rfl⟩
    · refine shows _ (regAt_heapPrio hoff) (by omega) (congrArg (·, _) ?_)
      change heapPrioWord s.heap i = _
      rw [heapPrioWord, he]
    · exact shows _ (regAt_heapPay hoff) (by omega) (congrArg (·, _) (heapPayWord_some he))
    · have he : s.heap.entries[i.toNat]? = none := List.getElem?_eq_none hlen
      rcases hoff with hoff | hoff
      · refine shows _ (regAt_heapPrio hoff) (by omega) (congrArg (·, _) ?_)
        change heapPrioWord s.heap i = _
        rw [heapPrioWord, he]
      · refine shows _ (regAt_heapPay hoff) (by omega) (congrArg (·, _) ?_)
        change heapPayWord s.heap i = _
        rw [heapPayWord, he]

/-! ## The FIFO ports (20_memory.md R66, R67) -/

/-- Settles O56: a push and a pop by whether there is room, and whether there is a byte. -/
theorem fifoPortsPushAndPop : Obligations.FifoPortsPushAndPop := by
  intro s rest hr
  refine ⟨fun v ha => ⟨fun heos hroom => ?_, fun hfull => ?_⟩, fun ha => ⟨fun b bs hf => ?_, fun hf => ?_⟩⟩
  · rw [step_write hr ha rfl]
    exact congrArg _ (if_pos (by simp [heos, hroom]))
  · rw [step_write hr ha rfl]
    exact congrArg _ (if_neg (by rcases hfull with h | h <;> simp [h]))
  · have hpop : popOut (withAgenda rest s) =
        (BitVec.ofNat 32 (256 + b.toNat), withAgenda rest { s with out := { s.out with fifo := bs } }) := by
      rw [popOut, withAgenda_out, hf, ← popWord_eq]
      rfl
    rw [step_read hr ha rfl, show regAt 0x04C#14 = .outData from rfl, readReg_outData, hpop]
    rfl
  · exact step_read_exact hr ha rfl (.inr rfl) (by
      change popOut (withAgenda rest s) = _
      rw [popOut, withAgenda_out, hf])

/-! ## Malformed and stray accesses (20_memory.md R61, R62) -/

/-- Only five registers take a write. -/
theorem writeReg_ignored {r : Reg} (v : Word) (s : State)
    (h : r ≠ .ctrl ∧ r ≠ .status ∧ r ≠ .cmd ∧ r ≠ .arg0 ∧ r ≠ .inData) : writeReg r v s = s := by
  obtain ⟨h1, h2, h3, h4, h5⟩ := h
  cases r
  case ctrl => exact absurd rfl h1
  case status => exact absurd rfl h2
  case cmd => exact absurd rfl h3
  case arg0 => exact absurd rfl h4
  case inData => exact absurd rfl h5
  all_goals rfl

/-- A malformed access at the head of the agenda is refused, the reset input asserted or not. -/
theorem step_malformed {s : State} {width : Nat} {off : BitVec 14} {rest : List Turn} (h : width ≠ 32 ∨ off.toNat % 4 ≠ 0)
    (ha : s.ext.agenda = .read width off :: rest ∨ ∃ v, s.ext.agenda = .write width off v :: rest) :
    step s = .refused .protocolViolation := by
  have hl := (accessLegal_eq_false width off).2 h
  unfold step takeTurn resetTurn runTurn
  rcases ha with ha | ⟨v, ha⟩ <;> rw [ha] <;> split <;> simp [hostRead, hostWrite, hl]

/-- Settles O59: an access is refused by its form, and a write is ignored unless its offset is one of five registers. -/
theorem illegalAccessRefusedAndStrayWriteIgnored : Obligations.IllegalAccessRefusedAndStrayWriteIgnored := by
  intro s width off v rest
  refine ⟨fun h => ⟨fun ha => step_malformed h (.inl ha), fun ha => step_malformed h (.inr ⟨v, ha⟩)⟩,
    fun hr ha h4 h1 h2 h3 h5 h6 => ?_⟩
  have other : ∀ m < 22, off ≠ BitVec.ofNat 14 (4 * m) → regAt off ≠ namedReg m := fun m hm hne h =>
    hne (BitVec.eq_of_toNat_eq (by rw [regAt_named_offset h4 hm h]; simp; omega))
  rw [step_write hr ha h4, writeReg_ignored v _ ⟨other 1 (by decide) h1, other 2 (by decide) h2, other 3 (by decide) h3,
    other 4 (by decide) h5, other 18 (by decide) h6⟩]
  rfl

end Sys2Proof.Machine
end

section
/-! SUPPORT. The engine's turn (20_memory.md R91), and what the host can change without the work of a unit step looking at it:
the contents of the FIFOs, IN_EOS, the bits of STATUS and CTRL, and what lies outside the block (R78, R92). -/

namespace Sys2Proof.Machine

/-! ## The engine's turn -/

theorem engineTurn_busy {s : State} {i : Instr} (hb : s.stat.busy = true) (hd : decode s.regs.curCmd = .ok i) :
    engineTurn s = exec i s := by
  rw [engineTurn, if_pos hb, hd]

/-- Settles O4: in each of these turns the step is the engine's, and CUR_CMD decodes to the command. -/
theorem stepRunsDecodedCommand : Obligations.StepRunsDecodedCommand := by
  intro s i
  refine ⟨fun hr hb hd => ⟨fun ha => ?_, fun rest ha => ?_, fun rest ha hdone => ?_⟩, fun w hd => ?_⟩
  · rw [step, takeTurn_run hr, runTurn, ha]
    exact engineTurn_busy hb hd
  · rw [step, takeTurn_run hr, runTurn, ha]
    exact engineTurn_busy (s := withAgenda rest s) hb hd
  · rw [step, takeTurn_run hr, runTurn, ha]
    simp only [hdone, Bool.false_eq_true, if_false]
    exact engineTurn_busy hb hd
  · have hw : BitVec.ofNat 32 (w.toNat % 2 ^ 32) = w := BitVec.eq_of_toNat_eq (by simp [w.isLt])
    rw [State.withFetchWord, hw]
    exact ⟨loadCommand w s, engineTurn_busy (s := loadCommand w s) rfl hd, rfl, rfl, rfl, rfl, rfl, rfl, rfl, rfl, rfl⟩

/-! ## Effects of the host -/

/-- A change of the input side, the output FIFO, the bits of STATUS and CTRL, and what lies outside the block. PARTIAL, the one
status bit that a command's work writes (44_stream_codec.md R186), is neither changed nor looked at. -/
structure HostEffect where
  inp : BitReader → BitReader
  fifo : List Byte → List Byte
  stat : Stat → Stat
  ext : Outside → Outside
  keepsPartial : ∀ st p, stat { st with partialCode := p } = { stat st with partialCode := p }

namespace HostEffect

/-- The state after the effect. -/
def apply (e : HostEffect) (s : State) : State :=
  { s with inp := e.inp s.inp, out := { s.out with fifo := e.fifo s.out.fifo }, stat := e.stat s.stat, ext := e.ext s.ext }

variable (e : HostEffect) (s : State)

@[simp] theorem apply_regs : (e.apply s).regs = s.regs := rfl
@[simp] theorem apply_stat : (e.apply s).stat = e.stat s.stat := rfl
@[simp] theorem apply_heap : (e.apply s).heap = s.heap := rfl
@[simp] theorem apply_arena : (e.apply s).arena = s.arena := rfl
@[simp] theorem apply_freq : (e.apply s).freq = s.freq := rfl
@[simp] theorem apply_codes : (e.apply s).codes = s.codes := rfl
@[simp] theorem apply_inp : (e.apply s).inp = e.inp s.inp := rfl
@[simp] theorem apply_out : (e.apply s).out = { s.out with fifo := e.fifo s.out.fifo } := rfl
@[simp] theorem apply_cont : (e.apply s).cont = s.cont := rfl
@[simp] theorem apply_symcnt : (e.apply s).symcnt = s.symcnt := rfl
@[simp] theorem apply_ext : (e.apply s).ext = e.ext s.ext := rfl

/-- An effect leaves PARTIAL for the work to write. -/
theorem apply_partialCode (started : Bool) :
    { e.apply s with
      stat := { (e.apply s).stat with partialCode := (e.apply s).stat.partialCode || started } } =
    e.apply { s with stat := { s.stat with partialCode := s.stat.partialCode || started } } := by
  have same : (e.stat s.stat).partialCode = s.stat.partialCode :=
    (congrArg Stat.partialCode (e.keepsPartial s.stat s.stat.partialCode)).trans rfl
  rw [apply_stat, same]
  exact congrArg (fun st => { e.apply s with stat := st }) (e.keepsPartial s.stat _).symm

end HostEffect

/-- The work with its state changed by `f`. -/
def Work.map (f : State → State) : Work → Work
  | .finish t => .finish (f t)
  | .fail e info t => .fail e info (f t)
  | .read t k => .read (f t) k
  | .write b t c => .write b (f t) c
  | .broken x => .broken x

theorem Work.map_ite (f : State → State) {p : Prop} [Decidable p] (a b : Work) :
    (if p then a else b).map f = if p then a.map f else b.map f := apply_ite _ _ _ _

/-! ## The work of a command does not see the host's effects -/

section Unseen
variable (e : HostEffect)

theorem emitNext_apply {after : State → Work} (v : Byte) (rem : Nat) (s : State)
    (ha : after (e.apply s) = (after s).map e.apply) :
    emitNext v rem after (e.apply s) = (emitNext v rem after s).map e.apply := by
  cases rem
  · exact ha
  · rfl

theorem outNext_apply {after : State → Work} (v : Byte) (rem : Nat) (limit : Word) (s : State)
    (ha : after (e.apply s) = (after s).map e.apply) :
    outNext v rem limit after (e.apply s) = (outNext v rem limit after s).map e.apply := by
  cases rem
  · exact ha
  · rfl

theorem workFreqCount_apply (s : State) : workFreqCount (e.apply s) = (workFreqCount s).map e.apply := by
  unfold workFreqCount
  rw [HostEffect.apply_cont]
  split
  · rfl
  · split
    · rfl
    · rfl
    · rfl
    · rw [Work.map_ite]
      rfl
  · rfl

theorem serNext_apply (st : List NodeIdx) (s : State) : serNext st (e.apply s) = (serNext st s).map e.apply := by
  unfold serNext
  rw [HostEffect.apply_arena]
  split
  · rfl
  · split <;> rfl

theorem workSerializeTree_apply (s : State) : workSerializeTree (e.apply s) = (workSerializeTree s).map e.apply := by
  unfold workSerializeTree
  rw [HostEffect.apply_cont]
  split
  · rw [HostEffect.apply_arena, Work.map_ite, serNext_apply]
    rfl
  · split
    · exact serNext_apply e _ s
    · rfl
  · rfl

theorem deliver_apply (st : List Frame) (n : NodeIdx) (s : State) :
    deliver n st (e.apply s) = (deliver n st s).map e.apply := by
  induction st generalizing n s with
  | nil => rfl
  | cons f st ih =>
    unfold deliver
    split
    · rfl
    · exact ih f.node { s with arena := { s.arena with nodes := setChild s.arena.nodes f.node .right n } }

theorem desControl_apply (st : List Frame) (b : Bool) (s : State) :
    desControl st b (e.apply s) = (desControl st b s).map e.apply := by
  unfold desControl
  rw [Work.map_ite, Work.map_ite]
  rfl

theorem workDeserializeTree_apply (s : State) : workDeserializeTree (e.apply s) = (workDeserializeTree s).map e.apply := by
  unfold workDeserializeTree
  rw [HostEffect.apply_cont]
  split
  · rfl
  · split
    · rw [Work.map_ite]
      rfl
    · exact desControl_apply e _ _ s
  · next st n k v r _ =>
    split
    · rfl
    · next b =>
      rw [Work.map_ite, ← deliver_apply]
      rfl
  · rfl

theorem workEncodeSym_apply (sym : Byte) (s : State) : workEncodeSym sym (e.apply s) = (workEncodeSym sym s).map e.apply := by
  unfold workEncodeSym
  rw [HostEffect.apply_cont]
  split
  · rw [Work.map_ite]
    exact if_congr Iff.rfl rfl (emitNext_apply e sym _ { s with symcnt := 0 } rfl)
  · exact emitNext_apply e _ _ s rfl
  · rfl

theorem workEncodeEos_apply (s : State) : workEncodeEos (e.apply s) = (workEncodeEos s).map e.apply := by
  unfold workEncodeEos
  rw [HostEffect.apply_cont]
  split
  · rw [Work.map_ite]
    rfl
  · split
    · rfl
    · rfl
    · rfl
    · exact emitNext_apply e _ _ s rfl
  · exact emitNext_apply e _ _ s rfl
  · rfl

theorem workDecodeSym_apply (s : State) : workDecodeSym (e.apply s) = (workDecodeSym s).map e.apply := by
  unfold workDecodeSym
  rw [HostEffect.apply_cont]
  split
  · rw [Work.map_ite]
    rfl
  · rw [HostEffect.apply_arena]
    split <;> rfl
  · rfl

theorem decodeNLoop_apply (limit : Word) (s : State) : decodeNLoop limit (e.apply s) = (decodeNLoop limit s).map e.apply := by
  rw [decodeNLoop, decodeNLoop, Work.map_ite]
  rfl

theorem decodeNStart_apply (s : State) : decodeNStart (e.apply s) = (decodeNStart s).map e.apply := by
  rw [decodeNStart, decodeNStart, Work.map_ite, ← decodeNLoop_apply]
  rfl

/-- A hold of the first unit step that outlasted a write of ARG0 looks at the input (assumption 24). -/
theorem workDecodeN_apply (s : State)
    (hold : s.cont = .heldStart → (readBit (e.inp s.inp) = .hold ↔ readBit s.inp = .hold)) :
    workDecodeN (e.apply s) = (workDecodeN s).map e.apply := by
  unfold workDecodeN
  rw [HostEffect.apply_cont]
  split
  · exact decodeNStart_apply e s
  · next hc =>
    rw [Work.map_ite, ← decodeNStart_apply]
    exact if_congr (hold hc) rfl rfl
  · rw [HostEffect.apply_arena]
    split
    · exact outNext_apply e _ _ _ s (decodeNLoop_apply e _ s)
    · rfl
    · rfl
    · rfl
    · rfl
  · exact outNext_apply e _ _ _ s (decodeNLoop_apply e _ { s with symcnt := s.symcnt + 1 })
  · rfl

theorem workDecodeEos_apply (s : State) : workDecodeEos (e.apply s) = (workDecodeEos s).map e.apply := by
  unfold workDecodeEos
  rw [HostEffect.apply_cont]
  split
  · rw [Work.map_ite]
    rfl
  · rw [HostEffect.apply_arena]
    split
    · exact outNext_apply e _ _ _ s rfl
    · rfl
    · exact congrArg Work.finish (e.apply_partialCode s _)
    · rfl
    · rfl
  · exact outNext_apply e _ _ _ s rfl
  · rfl

theorem putNext_apply (v : Word) (rem : Nat) (s : State) : putNext v rem (e.apply s) = (putNext v rem s).map e.apply := by
  cases rem <;> rfl

theorem workPutBits_apply (n : BitVec 6) (s : State) : workPutBits n (e.apply s) = (workPutBits n s).map e.apply := by
  unfold workPutBits
  rw [HostEffect.apply_cont, Work.map_ite]
  congr 1
  split
  · exact putNext_apply e _ _ s
  · exact putNext_apply e _ _ s
  · rfl

theorem workGetBits_apply (n : BitVec 6) (s : State) : workGetBits n (e.apply s) = (workGetBits n s).map e.apply := by
  unfold workGetBits
  rw [HostEffect.apply_cont, Work.map_ite]
  congr 1
  split
  · rfl
  · split
    · rfl
    · rw [Work.map_ite]
      rfl
  · rfl

theorem workFlush_apply (s : State) : workFlush (e.apply s) = (workFlush s).map e.apply := by
  unfold workFlush
  rw [HostEffect.apply_cont]
  split
  · rw [Work.map_ite]
    rfl
  · rw [Work.map_ite]
    rfl
  · rfl

/-- Reset sides stay as they are under the effect, where STREAM_RESET resets them. -/
def HostEffect.KeepsReset (i : Instr) : Prop :=
  ∀ o j, i = .streamReset o j →
    (o = true → e.fifo [] = []) ∧ (j = true → e.inp BitReader.empty = BitReader.empty)

theorem workStreamReset_apply (o j : Bool) (s : State) (h : e.KeepsReset (.streamReset o j)) :
    workStreamReset o j (e.apply s) = (workStreamReset o j s).map e.apply := by
  obtain ⟨ho, hj⟩ := h o j rfl
  have hout : (if o then BitWriter.empty else (e.apply s).out) =
      { (if o then BitWriter.empty else s.out) with fifo := e.fifo (if o then BitWriter.empty else s.out).fifo } := by
    cases o
    · rfl
    · exact congrArg (fun f => { BitWriter.empty with fifo := f }) (ho rfl).symm
  have hinp : (if j then BitReader.empty else (e.apply s).inp) = e.inp (if j then BitReader.empty else s.inp) := by
    cases j
    · rfl
    · exact (hj rfl).symm
  rw [workStreamReset, hout, hinp]
  rfl

/-- The work of a command is the same before and after an effect of the host. -/
theorem workOf_apply (i : Instr) (s : State) (hreset : e.KeepsReset i)
    (hold : i = .decodeN → s.cont = .heldStart → (readBit (e.inp s.inp) = .hold ↔ readBit s.inp = .hold)) :
    workOf i (e.apply s) = (workOf i s).map e.apply := by
  cases i with
  | nop | heapCreate | freqClear | treeClear => rfl
  | streamReset o j => exact workStreamReset_apply e o j s hreset
  | heapDestroy =>
    change workHeapDestroy _ = (workHeapDestroy s).map _
    rw [workHeapDestroy, workHeapDestroy, Work.map_ite]
    rfl
  | heapAdd c pay =>
    change workHeapAdd c pay _ = (workHeapAdd c pay s).map _
    simp only [workHeapAdd, Work.map_ite]
    rfl
  | heapRemove =>
    change workHeapRemove _ = (workHeapRemove s).map _
    rw [workHeapRemove, workHeapRemove, Work.map_ite, HostEffect.apply_heap]
    congr 1
    split <;> rfl
  | heapSize =>
    change workHeapSize _ = (workHeapSize s).map _
    rw [workHeapSize, workHeapSize, Work.map_ite]
    rfl
  | buildTree =>
    change workBuildTree _ = (workBuildTree s).map _
    rw [workBuildTree, workBuildTree, HostEffect.apply_freq]
    split <;> rfl
  | buildCodes =>
    change workBuildCodes _ = (workBuildCodes s).map _
    rw [workBuildCodes, workBuildCodes, Work.map_ite, HostEffect.apply_arena]
    congr 1
    split <;> rfl
  | freqCount => exact workFreqCount_apply e s
  | serializeTree => exact workSerializeTree_apply e s
  | deserializeTree => exact workDeserializeTree_apply e s
  | encodeSym sym => exact workEncodeSym_apply e sym s
  | encodeEos => exact workEncodeEos_apply e s
  | decodeSym => exact workDecodeSym_apply e s
  | decodeN => exact workDecodeN_apply e s (hold rfl)
  | decodeEos => exact workDecodeEos_apply e s
  | putBits n => exact workPutBits_apply e n s
  | getBits n => exact workGetBits_apply e n s
  | flush => exact workFlush_apply e s

end Unseen

end Sys2Proof.Machine
end

section
/-! SUPPORT. A push, the end of input or a pop commutes with every unit step that is taken (20_memory.md R92). -/

namespace Sys2Proof.Machine

/-! ## What a unit step does to the cursors -/

theorem touched_inp {i : Instr} (h : readsInput i = true) (s u : State) : (touched i s u).inp = s.inp := by
  cases i with
  | streamReset o j => cases h
  | _ => rfl

theorem touched_out {i : Instr} (h : writesOutput i = true) (s u : State) : (touched i s u).out = s.out := by
  cases i with
  | streamReset o j => cases h
  | _ => rfl

/-- The work before a ReadBit leaves the reader. -/
theorem workOf_read_inp {i : Instr} {s u : State} {k : ReadRes → EngineCont} (h : workOf i s = .read u k) :
    u.inp = s.inp := by
  have hw := workOf_within i s
  rw [h] at hw
  rw [hw.1, touched_inp hw.2]

/-- The work before a WriteBit leaves the writer and the depth of its FIFO. -/
theorem workOf_write_out {i : Instr} {s u : State} {b : Bool} {c : EngineCont} (h : workOf i s = .write b u c) :
    u.out = s.out ∧ u.ext = s.ext := by
  have hw := workOf_within i s
  rw [h] at hw
  rw [hw.1, touched_out hw.2, touched_ext]
  exact ⟨rfl, rfl⟩

/-! ## Streaming -/

/-- The input side and the output FIFO changed, by a host that streams. -/
def streaming (ρ : BitReader → BitReader) (φ : List Byte → List Byte) : HostEffect := ⟨ρ, φ, id, id, fun _ _ => rfl⟩

theorem releaseOf_streaming (ρ : BitReader → BitReader) (φ : List Byte → List Byte) (i : Instr) (s : State) :
    releaseOf i ((streaming ρ φ).apply s) = (streaming ρ φ).apply (releaseOf i s) := by
  have count : countWritten ((streaming ρ φ).apply s) = (streaming ρ φ).apply (countWritten s) := by
    unfold countWritten
    rw [HostEffect.apply_cont]
    split <;> rfl
  cases i with
  | encodeSym _ | encodeEos | decodeN | decodeEos => exact count
  | _ => rfl

/-- A bit operation that takes place does the same before and after the host's change, and so does STREAM_RESET. -/
structure Commutes (ρ : BitReader → BitReader) (φ : List Byte → List Byte) (i : Instr) (s : State) : Prop where
  bit : ∀ b r, readBit s.inp = .bit b r → readBit (ρ s.inp) = .bit b (ρ r)
  exh : readBit s.inp = .exh → readBit (ρ s.inp) = .exh
  write : ∀ b w, writeBit s.ext.params.outCap b s.out = some w →
    writeBit s.ext.params.outCap b { s.out with fifo := φ s.out.fifo } = some { w with fifo := φ w.fifo }
  reset : (streaming ρ φ).KeepsReset i

/-- Where ReadBit is held, a DECODE_N whose hold outlasted a write of ARG0 is held too (assumption 24). -/
theorem workDecodeN_heldStart_blocked {s : State} (hc : s.cont = .heldStart) (h : readBit s.inp = .hold) :
    (workDecodeN s).blocked = true := by
  simp [workDecodeN, hc, h, walkStart, Work.blocked]

/-- The host's change and a unit step that is taken commute. -/
theorem exec_streaming {ρ : BitReader → BitReader} {φ : List Byte → List Byte} {i : Instr} {s t : State}
    (c : Commutes ρ φ i s) (h : exec i s = .next t) (hne : t ≠ s) :
    exec i ((streaming ρ φ).apply s) = .next ((streaming ρ φ).apply t) := by
  have hx := h
  rw [exec_eq_unitStep] at hx ⊢
  rcases unitStep_cases hx with ⟨habort, rfl⟩ | ⟨habort, hcase⟩
  · have ha : ((streaming ρ φ).apply s).stat.abortReq = true := habort
    rw [unitStep, if_pos ha, HostEffect.apply_cont, releaseOf_streaming]
    split <;> rfl
  have taken : (workOf i s).blocked = false := by
    by_contra hb
    rw [exec_blocked habort (by simpa [blocked] using hb)] at h
    cases h
    exact hne rfl
  have hold : i = .decodeN → s.cont = .heldStart → (readBit (ρ s.inp) = .hold ↔ readBit s.inp = .hold) := by
    rintro rfl hc
    cases hr : readBit s.inp with
    | hold => exact absurd ((workDecodeN_heldStart_blocked hc hr).symm.trans taken) nofun
    | exh => rw [c.exh hr]
    | bit b r => rw [c.bit b r hr]; exact iff_of_false nofun nofun
  have ha : ((streaming ρ φ).apply s).stat.abortReq = false := habort
  have hwork := workOf_apply (streaming ρ φ) i s c.reset hold
  rcases hcase with ⟨hb, -⟩ | ⟨u, hw, rfl⟩ | ⟨_, _, u, hw, rfl⟩ | ⟨u, k, hw, hr, rfl⟩ | ⟨u, k, b, r, hw, hr, rfl⟩ |
    ⟨b, u, c', w, hw, hr, rfl⟩
  · rw [taken] at hb
    cases hb
  all_goals rw [hw] at hwork; rw [unitStep, ha, hwork]
  · rfl
  · rfl
  · have hr' : readBit ((streaming ρ φ).apply u).inp = .exh := by
      rw [workOf_read_inp hw] at hr
      exact (congrArg (fun x => readBit (ρ x)) (workOf_read_inp hw)).trans (c.exh hr)
    simp only [Work.map, hr', Bool.false_eq_true, if_false]
    rfl
  · have hr' : readBit ((streaming ρ φ).apply u).inp = .bit b (ρ r) := by
      rw [workOf_read_inp hw] at hr
      exact (congrArg (fun x => readBit (ρ x)) (workOf_read_inp hw)).trans (c.bit b r hr)
    simp only [Work.map, hr', Bool.false_eq_true, if_false]
    rfl
  · obtain ⟨hout, hext⟩ := workOf_write_out hw
    have hr' : writeBit ((streaming ρ φ).apply u).ext.params.outCap b ((streaming ρ φ).apply u).out =
        some { w with fifo := φ w.fifo } := by
      rw [hout, hext] at hr
      rw [HostEffect.apply_out, HostEffect.apply_ext, hout, hext]
      exact c.write b w hr
    simp only [Work.map, hr', Bool.false_eq_true, if_false]
    rfl

/-! ## The host's three changes -/

/-- A byte pushed behind the bytes there are does not change the next bit (20_memory.md R66, R71). -/
theorem readBit_push {r r' : BitReader} {b : Bool} (x : Byte) (h : readBit r = .bit b r') :
    readBit { r with fifo := r.fifo ++ [x] } = .bit b { r' with fifo := r'.fifo ++ [x] } := by
  rcases readBit_bit_cases h with ⟨hc, h⟩ | ⟨y, f, hc, hf, h⟩
  · cases h
    exact readBit_buffered (r := { r with fifo := r.fifo ++ [x] }) hc
  · cases h
    rw [hf]
    exact if_pos hc

/-- The end of input does not change the next bit, if there is one (20_memory.md R71). -/
theorem readBit_setEos {r r' : BitReader} {b : Bool} (h : readBit r = .bit b r') :
    readBit { r with eos := true } = .bit b { r' with eos := true } := by
  rcases readBit_bit_cases h with ⟨hc, h⟩ | ⟨y, f, hc, hf, h⟩
  · cases h
    exact readBit_buffered (r := { r with eos := true }) hc
  · cases h
    rw [readBit, if_pos hc, hf]
    rfl

/-- A byte popped at the front does not change what is appended at the back (20_memory.md R67, R73). -/
theorem writeBit_pop {cap : Nat} {b : Bool} {w w' : BitWriter} {x : Byte} {f : List Byte} (hf : w.fifo = x :: f)
    (hcap : w.fifo.length ≤ cap) (h : writeBit cap b w = some w') :
    writeBit cap b { w with fifo := w.fifo.tail } = some { w' with fifo := w'.fifo.tail } := by
  have hroom : w.fifo.tail.length ≠ cap := by
    rw [hf] at hcap ⊢
    exact (Nat.lt_of_succ_le hcap).ne
  rcases writeBit_cases h with ⟨h7, rfl⟩ | ⟨h7, -, rfl⟩
  · exact writeBit_within (w := { w with fifo := w.fifo.tail }) h7
  · rw [writeBit_completes (w := { w with fifo := w.fifo.tail }) h7 hroom, hf]
    rfl

/-- Settles O9: each of the three changes commutes with the bit operations, and the rest of a unit step does not see it. -/
theorem hostStreamingCommutesWithUnitSteps : Obligations.HostStreamingCommutesWithUnitSteps := by
  intro i s t h hne
  refine ⟨fun heos hi => ?_, fun hcap hi b bs hf => ?_⟩
  · have notExh : readBit s.inp ≠ .exh := fun he => by
      have := ((readBit_exh_iff s.inp).1 he).2.2
      rw [heos] at this
      cases this
    have keeps : ∀ ρ, (streaming ρ id).KeepsReset i := fun ρ o j e =>
      ⟨fun _ => rfl, fun hj => absurd (hj ▸ e) (hi o)⟩
    refine ⟨fun b => ?_, ?_⟩
    · exact exec_streaming (ρ := fun r => { r with fifo := r.fifo ++ [b] }) (φ := id)
        ⟨fun _ _ => readBit_push b, fun he => absurd he notExh, fun _ _ => id, keeps _⟩ h hne
    · exact exec_streaming (ρ := fun r => { r with eos := true }) (φ := id)
        ⟨fun _ _ => readBit_setEos, fun he => absurd he notExh, fun _ _ => id, keeps _⟩ h hne
  · have keeps : (streaming id List.tail).KeepsReset i := fun o j e => ⟨fun _ => rfl, fun _ => rfl⟩
    have hx := exec_streaming (ρ := id) (φ := List.tail)
      ⟨fun _ _ => id, id, fun _ _ => writeBit_pop hf hcap, keeps⟩ h hne
    have hbs : bs = s.out.fifo.tail := by rw [hf]; rfl
    rw [hbs]
    exact hx

end Sys2Proof.Machine
end

section
/-! SUPPORT. STATUS.HOLD (20_memory.md R78): it is 1 exactly where the unit step changes nothing, and only the actions that R78
names lift it. -/

namespace Sys2Proof.Machine

/-! ## A step that changes nothing is a held one -/

/-- From a command that stands at `c`, a ReadBit that answers EXH leads to another place: no command that has seen EXH reads
again. -/
def Work.MovesOn (c : EngineCont) : Work → Prop
  | .read _ k => c ≠ k .exh
  | .finish _ | .fail _ _ _ | .write _ _ _ | .broken _ => True

theorem rawByte_exh_not_more (n n' : Nat) (v v' : Byte) : rawByte n v .exh ≠ .more n' v' := by
  rw [rawByte]
  split <;> exact nofun

theorem rawByte_exh_not_byte (n : Nat) (v v' : Byte) : rawByte n v .exh ≠ .byte v' := by
  rw [rawByte]
  split <;> exact nofun

theorem walkStep_exh_not_go (ns : List Node) (n c : NodeIdx) : walkStep ns n .exh ≠ .go c := by
  unfold walkStep
  split <;> exact nofun

theorem emitNext_movesOn {c : EngineCont} {t : State} {after : State → Work} (v : Byte) (rem : Nat)
    (h : (after t).MovesOn c) : (emitNext v rem after t).MovesOn c := by
  cases rem
  · exact h
  · trivial

theorem outNext_movesOn {c : EngineCont} {t : State} {after : State → Work} (v : Byte) (rem : Nat) (limit : Word)
    (h : (after t).MovesOn c) : (outNext v rem limit after t).MovesOn c := by
  cases rem
  · exact h
  · trivial

theorem workFreqCount_movesOn (s : State) : (workFreqCount s).MovesOn s.cont := by
  unfold workFreqCount
  split
  · next hc => rw [hc]; exact nofun
  · next n v r hc =>
    rw [hc]
    split
    · next hm =>
      rintro ⟨⟩
      exact rawByte_exh_not_more _ _ _ _ hm
    · trivial
    · trivial
    · next hm =>
      split
      · trivial
      · rintro ⟨⟩
        exact rawByte_exh_not_byte _ _ _ hm
  · trivial

theorem deliver_movesOn {c : EngineCont} (hc : ∀ st first, c ≠ .desCtl st first .exh) :
    ∀ (st : List Frame) (n : NodeIdx) (s : State), (deliver n st s).MovesOn c
  | [], _, _ => trivial
  | f :: st, n, s => by
    unfold deliver
    split
    · exact hc _ _
    · exact deliver_movesOn hc st _ _

theorem desControl_movesOn {st st' : List Frame} {first b : Bool} (s : State) :
    (desControl st b s).MovesOn (.desCtl st' first (.bit b)) := by
  unfold desControl
  split
  · trivial
  · split <;> exact nofun

theorem workDeserializeTree_movesOn (s : State) : (workDeserializeTree s).MovesOn s.cont := by
  unfold workDeserializeTree
  split
  · next hc => rw [hc]; exact nofun
  · next hc =>
    rw [hc]
    split
    · split <;> trivial
    · exact desControl_movesOn s
  · next hc =>
    rw [hc]
    split
    · trivial
    · split
      · exact deliver_movesOn (fun _ _ => by exact nofun) _ _ _
      · exact nofun
  · trivial

theorem workEncodeEos_movesOn (s : State) : (workEncodeEos s).MovesOn s.cont := by
  unfold workEncodeEos
  split
  · next hc =>
    rw [hc]
    split
    · trivial
    · exact nofun
  · next hc =>
    rw [hc]
    split
    · next hm =>
      rintro ⟨⟩
      exact rawByte_exh_not_more _ _ _ _ hm
    · trivial
    · trivial
    · exact emitNext_movesOn _ _ trivial
  · next hc =>
    rw [hc]
    exact emitNext_movesOn _ _ nofun
  · trivial

theorem workDecodeSym_movesOn (s : State) : (workDecodeSym s).MovesOn s.cont := by
  unfold workDecodeSym
  split
  · next hc =>
    rw [hc]
    split
    · trivial
    · exact nofun
  · next hc =>
    rw [hc]
    split
    · trivial
    · next hm =>
      rintro ⟨⟩
      exact walkStep_exh_not_go _ _ _ hm
    · trivial
    · trivial
    · trivial
  · trivial

theorem decodeNLoop_movesOn {c : EngineCont} (hc : ∀ n st l, c ≠ .walk n st l .exh) (limit : Word) (s : State) :
    (decodeNLoop limit s).MovesOn c := by
  unfold decodeNLoop
  split
  · exact hc _ _ _
  · trivial

theorem decodeNStart_movesOn {c : EngineCont} (hc : ∀ n st l, c ≠ .walk n st l .exh) (s : State) :
    (decodeNStart s).MovesOn c := by
  unfold decodeNStart
  split
  · trivial
  · exact decodeNLoop_movesOn hc _ _

theorem workDecodeN_movesOn (s : State) : (workDecodeN s).MovesOn s.cont := by
  unfold workDecodeN
  split
  · next hc =>
    rw [hc]
    exact decodeNStart_movesOn (fun _ _ _ => by exact nofun) _
  · next hc =>
    rw [hc]
    split
    · exact nofun
    · exact decodeNStart_movesOn (fun _ _ _ => by exact nofun) _
  · next hc =>
    rw [hc]
    split
    · trivial
    · next hm =>
      rintro ⟨⟩
      exact walkStep_exh_not_go _ _ _ hm
    · trivial
    · trivial
    · trivial
  · next hc =>
    rw [hc]
    exact outNext_movesOn _ _ _ (decodeNLoop_movesOn (fun _ _ _ => by exact nofun) _ _)
  · trivial

theorem workDecodeEos_movesOn (s : State) : (workDecodeEos s).MovesOn s.cont := by
  unfold workDecodeEos
  split
  · next hc =>
    rw [hc]
    split
    · trivial
    · exact nofun
  · next hc =>
    rw [hc]
    split
    · trivial
    · next hm =>
      rintro ⟨⟩
      exact walkStep_exh_not_go _ _ _ hm
    · trivial
    · trivial
    · trivial
  · next hc =>
    rw [hc]
    exact outNext_movesOn _ _ _ nofun
  · trivial

theorem workGetBits_movesOn (n : BitVec 6) (s : State) : (workGetBits n s).MovesOn s.cont := by
  unfold workGetBits
  split
  · trivial
  · split
    · next hc => rw [hc]; exact nofun
    · next hc =>
      rw [hc]
      split
      · trivial
      · split
        · trivial
        · rintro ⟨⟩
    · trivial

theorem workOf_movesOn {i : Instr} {s u : State} {k : ReadRes → EngineCont} (h : workOf i s = .read u k) :
    s.cont ≠ k .exh := by
  have hr := workOf_within i s
  rw [h] at hr
  change (Work.read u k).MovesOn s.cont
  rw [← h]
  cases i with
  | freqCount => exact workFreqCount_movesOn s
  | deserializeTree => exact workDeserializeTree_movesOn s
  | encodeEos => exact workEncodeEos_movesOn s
  | decodeSym => exact workDecodeSym_movesOn s
  | decodeN => exact workDecodeN_movesOn s
  | decodeEos => exact workDecodeEos_movesOn s
  | getBits n => exact workGetBits_movesOn n s
  | _ => cases hr.2

/-- A counter that is raised is not what it was. -/
theorem word_succ_ne (v : Word) : v + 1 ≠ v := by
  bv_omega

/-- A unit step that changes nothing is a held one: completion ends BUSY, an EXH moves ENGINE_CONT, and a bit is counted. -/
theorem blocked_of_exec_self {i : Instr} {s : State} (hb : s.stat.busy = true) (ha : s.stat.abortReq = false)
    (h : exec i s = .next s) : blocked i s = true := by
  rw [exec_eq_unitStep] at h
  rcases unitStep_cases h with ⟨habort, -⟩ | ⟨-, ⟨hbl, -⟩ | ⟨u, -, e⟩ | ⟨_, _, u, -, e⟩ | ⟨u, k, hw, -, e⟩ |
    ⟨u, k, b, r, hw, hr, e⟩ | ⟨b, u, c, w, hw, hr, e⟩⟩
  · exact absurd (ha.symm.trans habort) nofun
  · exact hbl
  · rw [e] at hb
    cases hb
  · rw [e] at hb
    cases hb
  · exact absurd (congrArg State.cont e) (workOf_movesOn hw)
  · have hinp : s.inp = r := congrArg State.inp e
    rw [workOf_read_inp hw] at hr
    have hcount := (readBit_counts hr).1
    rw [← hinp] at hcount
    exact absurd hcount.symm (word_succ_ne _)
  · have hout : s.out = w := congrArg State.out e
    rw [(workOf_write_out hw).1] at hr
    have hcount := writeBit_counts hr
    rw [← hout] at hcount
    exact absurd hcount.symm (word_succ_ne _)

/-- While BUSY = 1 and no abort is requested, HOLD says that the next bit operation cannot proceed. -/
theorem held_iff_blocked {i : Instr} {s : State} (hb : s.stat.busy = true) (ha : s.stat.abortReq = false)
    (hd : decode s.regs.curCmd = .ok i) : held s = true ↔ blocked i s = true := by
  simp [held, hb, ha, hd]

/-- HOLD is 1 exactly where the unit step of the command is not enabled (20_memory.md R78; assumptions 14 and 17). -/
theorem held_iff_exec_self (s : State) :
    held s = true ↔
      s.stat.busy = true ∧ s.stat.abortReq = false ∧ ∃ i, decode s.regs.curCmd = .ok i ∧ exec i s = .next s := by
  constructor
  · intro h
    cases hd : decode s.regs.curCmd with
    | illegal _ => simp [held, hd] at h
    | ok i =>
      obtain ⟨⟨hb, ha⟩, hbl⟩ : (s.stat.busy = true ∧ s.stat.abortReq = false) ∧ blocked i s = true := by
        simpa [held, hd] using h
      exact ⟨hb, ha, i, rfl, exec_blocked ha hbl⟩
  · rintro ⟨hb, ha, i, hd, hx⟩
    exact (held_iff_blocked hb ha hd).2 (blocked_of_exec_self hb ha hx)

/-! ## What lifts a hold -/

/-- An effect on the bits of STATUS and CTRL and on what lies outside the block. -/
def control (σ : Stat → Stat) (ε : Outside → Outside)
    (h : ∀ st p, σ { st with partialCode := p } = { σ st with partialCode := p }) : HostEffect := ⟨id, id, σ, ε, h⟩

/-- Such an effect lifts and begins no hold, unless it changes BUSY, ABORT_REQ or a FIFO's depth. -/
theorem held_control {σ : Stat → Stat} {ε : Outside → Outside}
    {h : ∀ st p, σ { st with partialCode := p } = { σ st with partialCode := p }} {s : State}
    (hb : (σ s.stat).busy = s.stat.busy) (ha : (σ s.stat).abortReq = s.stat.abortReq)
    (hp : (ε s.ext).params = s.ext.params) : held ((control σ ε h).apply s) = held s := by
  have hbl : ∀ i, blocked i ((control σ ε h).apply s) = blocked i s := by
    intro i
    rw [blocked, workOf_apply _ i s (fun _ _ _ => ⟨fun _ => rfl, fun _ => rfl⟩) (fun _ _ => Iff.rfl), blocked]
    cases hw : workOf i s with
    | write b u c =>
      have hcap : ((control σ ε h).apply u).ext.params = u.ext.params := by
        rw [HostEffect.apply_ext, (workOf_write_out hw).2]
        exact hp
      rw [Work.map, Work.blocked, Work.blocked, hcap]
      rfl
    | _ => rfl
  simp only [held, HostEffect.apply_stat, HostEffect.apply_regs, hbl]
  exact congrArg₂ (fun x y => x && !y && _) hb ha

theorem held_setExt {s : State} {e : Outside} (hp : e.params = s.ext.params) : held { s with ext := e } = held s :=
  held_control (σ := id) (ε := fun _ => e) (h := fun _ _ => rfl) rfl rfl hp

/-- Of the host's writes only a push and a CTRL write with EOS, ABORT or SRST can lift a hold. -/
theorem held_writeReg {r : Reg} {v : Word} {s : State} (h : held s = true) :
    held (writeReg r v s) = true ∨ r = .inData ∨
      r = .ctrl ∧ (v.getLsbD 1 = true ∨ v.getLsbD 2 = true ∨ v.getLsbD 3 = true) := by
  cases r
  case ctrl =>
    by_cases hv : v.getLsbD 1 = true ∨ v.getLsbD 2 = true ∨ v.getLsbD 3 = true
    · exact .inr (.inr ⟨rfl, hv⟩)
    · simp only [not_or, Bool.not_eq_true] at hv
      obtain ⟨h1, h2, h3⟩ := hv
      have hw : writeCtrl v s = (control (fun st => { st with ie := v.getLsbD 0 }) id fun _ _ => rfl).apply s := by
        simp only [writeCtrl, h1, h2, Bool.false_and, Bool.or_false]
        rfl
      rw [writeReg_ctrl, if_neg (by rw [h3]; decide), hw, held_control rfl rfl rfl]
      exact .inl h
  case status =>
    exact .inl ((held_control (σ := fun st => (writeStatus v { s with stat := st }).stat) (ε := id)
      (h := fun _ _ => rfl) rfl rfl rfl).trans h)
  case cmd =>
    obtain ⟨hb, -, -⟩ := (held_iff_exec_self s).1 h
    rw [writeReg, writeCmd, if_pos hb]
    exact .inl ((held_control (σ := fun st => { st with cmdOvr := true }) (ε := id) (h := fun _ _ => rfl) rfl rfl rfl).trans h)
  case arg0 => exact .inl (held_writeArg h)
  case inData => exact .inr (.inl rfl)
  all_goals exact .inl h

/-- Of the host's reads only one of OUT_DATA can lift a hold. -/
theorem held_returnWord_readReg {r : Reg} {s : State} (hr : r ≠ .outData) (h : held s = true) :
    held (returnWord (readReg r s)) = true := by
  have hst : (readReg r s).2 = s ∨ (readReg r s).2 = (drawRead s).2 := by
    unfold readReg
    split
    · exact .inr rfl
    · cases r
      case outData => exact absurd rfl hr
      case inData => exact .inr rfl
      all_goals exact .inl rfl
  rw [returnWord]
  rcases hst with e | e <;> rw [e]
  · refine (held_setExt ?_).trans h
    rfl
  · refine (held_setExt (s := s) ?_).trans h
    rfl

/-- The engine's turn leaves a held command as it is. -/
theorem engineTurn_held {s : State} (h : held s = true) : engineTurn s = .next s := by
  obtain ⟨hb, -, i, hd, hx⟩ := (held_iff_exec_self s).1 h
  rw [engineTurn_busy hb hd, hx]

/-- Only the actions of 20_memory.md R78 lift a hold. -/
theorem held_step {s t : State} (h : held s = true) (hst : step s = .next t) :
    held t = true ∨ s.ext.resetIn = true ∨
      ∃ turn rest, s.ext.agenda = turn :: rest ∧
        ((∃ v, turn = .write 32 0x048#14 v) ∨ turn = .read 32 0x04C#14 ∨ turn = .resetPin true ∨
          ∃ v : Word, turn = .write 32 0x004#14 v ∧
            (v.getLsbD 1 = true ∨ v.getLsbD 2 = true ∨ v.getLsbD 3 = true)) := by
  have hag : ∀ a, held (withAgenda a s) = true := fun a => (held_withAgenda a s).trans h
  cases hr : s.ext.resetIn with
  | true => exact .inr (.inl rfl)
  | false =>
    rw [step, takeTurn_run hr] at hst
    rcases runTurn_cases hst with ⟨a, -, he⟩ | ⟨a, rfl⟩ | ⟨off, a, ha, rfl⟩ | ⟨off, v, a, ha, h4, rfl⟩ | ⟨level, a, ha, rfl⟩
    · rw [engineTurn_held (hag a)] at he
      cases he
      exact .inl (hag a)
    · exact .inl (hag a)
    · by_cases ho : regAt off = .outData
      · rw [runTurn, ha] at hst
        obtain ⟨-, h4, -⟩ := hostRead_next hst
        have hoff : off = 0x04C#14 := BitVec.eq_of_toNat_eq (regAt_named_offset (m := 19) h4 (by decide) ho)
        exact .inr (.inr ⟨_, a, ha, .inr (.inl (by rw [hoff]))⟩)
      · exact .inl (held_returnWord_readReg ho (hag a))
    · rcases held_writeReg (r := regAt off) (v := v) (hag a) with hh | ho | ⟨ho, hv⟩
      · exact .inl hh
      · have hoff : off = 0x048#14 := BitVec.eq_of_toNat_eq (regAt_named_offset (m := 18) h4 (by decide) ho)
        exact .inr (.inr ⟨_, a, ha, .inl ⟨v, by rw [hoff]⟩⟩)
      · exact .inr (.inr ⟨_, a, ha, .inr (.inr (.inr ⟨v, by rw [regAt_eq_ctrl h4 ho], hv⟩))⟩)
    · cases level with
      | true => exact .inr (.inr ⟨_, a, ha, .inr (.inr (.inl rfl))⟩)
      | false =>
        refine .inl ((held_setExt (s := withAgenda a s) ?_).trans (hag a))
        rfl

end Sys2Proof.Machine
end

section
/-! SUPPORT. Where each command's next unit step has a bit operation, and so when HOLD is 1 there (20_memory.md R70, R71, R73,
R78). -/

namespace Sys2Proof.Machine

/-! ## A decoded word is a command (30_encoding.md R104, R109) -/

section Formats
variable {w : Word} {j : Instr}

theorem decodeF0_wellFormed {i : Instr} (hi : WellFormed i = true) (h : decodeF0 i w = .ok j) : WellFormed j = true := by
  unfold decodeF0 at h
  split at h <;> cases h
  exact hi

theorem decodeFH_wellFormed {mk : Bool → NodeIdx → Instr} (hmk : ∀ c pay, WellFormed (mk c pay) = true)
    (h : decodeFH mk w = .ok j) : WellFormed j = true := by
  unfold decodeFH at h
  split at h <;> cases h
  exact hmk _ _

theorem decodeFS_wellFormed {mk : Byte → Instr} (hmk : ∀ v, WellFormed (mk v) = true) (h : decodeFS mk w = .ok j) :
    WellFormed j = true := by
  unfold decodeFS at h
  split at h <;> cases h
  exact hmk _

/-- Format FB is the one with a range check (30_encoding.md R110 (c)). -/
theorem decodeFB_wellFormed {mk : BitVec 6 → Instr} (hmk : ∀ n, bitCountLegal n = true → WellFormed (mk n) = true)
    (h : decodeFB mk w = .ok j) : WellFormed j = true := by
  unfold decodeFB at h
  split at h
  · split at h <;> cases h
    exact hmk _ ‹_›
  · cases h

theorem decodeFR_wellFormed {mk : Bool → Bool → Instr} (hmk : ∀ o i, WellFormed (mk o i) = true)
    (h : decodeFR mk w = .ok j) : WellFormed j = true := by
  unfold decodeFR at h
  split at h <;> cases h
  exact hmk _ _

theorem decode_wellFormed (h : decode w = .ok j) : WellFormed j = true := by
  unfold decode at h
  split at h
  case h_4 => exact decodeFH_wellFormed (fun _ _ => rfl) h
  case h_14 => exact decodeFS_wellFormed (fun _ => rfl) h
  case h_19 => exact decodeFB_wellFormed (fun _ => id) h
  case h_20 => exact decodeFB_wellFormed (fun _ => id) h
  case h_22 => exact decodeFR_wellFormed (fun _ _ => rfl) h
  case h_23 => cases h
  all_goals exact decodeF0_wellFormed rfl h

end Formats

/-! ## Where the next unit step has a bit operation -/

/-- The unit step has a ReadBit. -/
def Work.isRead : Work → Bool
  | .read _ _ => true
  | .finish _ | .fail _ _ _ | .write _ _ _ | .broken _ => false

/-- The unit step has a WriteBit. -/
def Work.isWrite : Work → Bool
  | .write _ _ _ => true
  | .finish _ | .fail _ _ _ | .read _ _ | .broken _ => false

section Held
variable {i : Instr} {s : State} (hb : s.stat.busy = true) (ha : s.stat.abortReq = false)
  (hd : decode s.regs.curCmd = .ok i)
include hb ha hd

/-- A step with a ReadBit is held exactly where the input is empty and not ended (20_memory.md R71, R78). -/
theorem held_iff_of_isRead (h : (workOf i s).isRead = true) :
    held s = true ↔ s.inp.rdCnt = 0 ∧ s.inp.fifo = [] ∧ s.inp.eos = false := by
  rw [held_iff_blocked hb ha hd, blocked]
  cases hw : workOf i s with
  | read u k => rw [Work.blocked, decide_eq_true_iff, workOf_read_inp hw, readBit_hold_iff]
  | _ => rw [hw] at h; cases h

/-- A step with a WriteBit is held exactly where the bit completes a byte and the output FIFO is full (20_memory.md R73,
R78). -/
theorem held_iff_of_isWrite (h : (workOf i s).isWrite = true) :
    held s = true ↔ s.out.wrCnt = 7 ∧ s.out.fifo.length = s.ext.params.outCap := by
  rw [held_iff_blocked hb ha hd, blocked]
  cases hw : workOf i s with
  | write b u c =>
    obtain ⟨hout, hext⟩ := workOf_write_out hw
    rw [Work.blocked, decide_eq_true_iff, hout, hext, writeBit_none_iff]
  | _ => rw [hw] at h; cases h

end Held

theorem rawByte_bit_more {k : Nat} {v : Byte} {b : Bool} (h : k < 7) : rawByte k v (.bit b) = .more (k + 1) (shiftIn v b) :=
  if_neg (by omega)

theorem rawByte_bit_byte (v : Byte) (b : Bool) : rawByte 7 v (.bit b) = .byte (shiftIn v b) := rfl

theorem emitNext_isWrite {rem : Nat} (h : rem ≠ 0) (v : Byte) (after : State → Work) (s : State) :
    (emitNext v rem after s).isWrite = true := by
  cases rem
  · exact absurd rfl h
  · rfl

theorem emitStart_isWrite {v : Byte} {s : State} (h : symGet s.codes.len v ≠ 0) : (emitStart v s).isWrite = true :=
  emitNext_isWrite (fun h0 => h (BitVec.eq_of_toNat_eq h0)) v _ s

/-- An edge to an internal node goes on (44_stream_codec.md R183). -/
theorem walkStep_go {ns : List Node} {n x y x' y' : NodeIdx} {p p' : Word} {b : Bool}
    (hn : nodeAt ns n = some (.internal x y p)) (hc : nodeAt ns (if b then y else x) = some (.internal x' y' p')) :
    walkStep ns n (.bit b) = .go (if b then y else x) := by
  rw [walkStep, hn]
  simp only [arriveAt, hc]

/-- The one code of a lone leaf and an edge to a leaf give its symbol (44_stream_codec.md R183). -/
theorem walkStep_sym {ns : List Node} {n : NodeIdx} {b : Bool} {v : Byte}
    (h : nodeAt ns n = some (.leaf v) ∧ b = false ∨
      ∃ x y p, nodeAt ns n = some (.internal x y p) ∧ nodeAt ns (if b then y else x) = some (.leaf v)) :
    walkStep ns n (.bit b) = .sym v := by
  rcases h with ⟨hn, rfl⟩ | ⟨x, y, p, hn, hc⟩
  · rw [walkStep, hn]
  · rw [walkStep, hn]
    simp only [arriveAt, hc]

/-- A subtree delivered through parents that wait for their right child, to one that waits for its left one. -/
theorem deliver_isRead {f : Frame} {st : List Frame} (hf : f.side = .left) :
    ∀ (rs : List Frame) (n : NodeIdx) (s : State), (∀ g ∈ rs, g.side = .right) → (deliver n (rs ++ f :: st) s).isRead = true
  | [], n, s, _ => by
    rw [List.nil_append, deliver, hf]
    rfl
  | g :: rs, n, s, h => by
    rw [List.cons_append, deliver, (List.forall_mem_cons.1 h).1]
    exact deliver_isRead hf rs _ _ (List.forall_mem_cons.1 h).2

section Positions
variable {s : State}

theorem freqCount_isRead
    (h : s.cont = .start ∨
      ∃ k v b, s.cont = .rawByte k v (.bit b) ∧ (k < 7 ∨ k = 7 ∧ s.freq.total.toNat ≠ 2 ^ 31 - 1)) :
    (workFreqCount s).isRead = true := by
  unfold workFreqCount
  rcases h with hc | ⟨k, v, b, hc, hk | ⟨rfl, ht⟩⟩
  · rw [hc]
    rfl
  · simp only [hc, rawByte_bit_more hk, Work.isRead]
  · simp only [hc, rawByte_bit_byte, if_neg ht, Work.isRead]

theorem encodeEos_isRead
    (h : s.cont = .start ∧ s.codes.valid = true ∨ (∃ k v b, s.cont = .rawByte k v (.bit b) ∧ k < 7) ∨
      ∃ v, s.cont = .emit v 0) :
    (workEncodeEos s).isRead = true := by
  unfold workEncodeEos
  rcases h with ⟨hc, hv⟩ | ⟨k, v, b, hc, hk⟩ | ⟨v, hc⟩
  · simp [hc, hv, Work.isRead]
  · simp only [hc, rawByte_bit_more hk, Work.isRead]
  · rw [hc]
    rfl

theorem deserializeTree_isRead
    (h : s.cont = .start ∨ (∃ st first b, s.cont = .desCtl st first (.bit b) ∧ s.arena.nodes.length ≠ 511) ∨
      (∃ st n k v b, s.cont = .desSym st n k v (.bit b) ∧ k < 7) ∨
      ∃ rs f st n v b, s.cont = .desSym (rs ++ f :: st) n 7 v (.bit b) ∧ (∀ g ∈ rs, g.side = .right) ∧ f.side = .left) :
    (workDeserializeTree s).isRead = true := by
  unfold workDeserializeTree
  rcases h with hc | ⟨st, first, b, hc, hn⟩ | ⟨st, n, k, v, b, hc, hk⟩ | ⟨rs, f, st, n, v, b, hc, hrs, hf⟩ <;> rw [hc]
  · rfl
  · change (desControl st b s).isRead = true
    rw [desControl, if_neg hn]
    split <;> rfl
  · exact congrArg Work.isRead (if_neg (by omega))
  · exact deliver_isRead hf rs n _ hrs

/-- Where a DECODE_* command walks on to an internal node. -/
theorem decode_isRead {i : Instr} (hi : i = .decodeSym ∨ i = .decodeN ∨ i = .decodeEos)
    (h : s.cont = .start ∧ s.arena.valid = true ∧ (i = .decodeN → s.regs.arg0 ≠ 0) ∨
      ∃ n st l b x y p x' y' p', s.cont = .walk n st l (.bit b) ∧ nodeAt s.arena.nodes n = some (.internal x y p) ∧
        nodeAt s.arena.nodes (if b then y else x) = some (.internal x' y' p')) :
    (workOf i s).isRead = true := by
  rcases h with ⟨hc, hv, harg⟩ | ⟨n, st, l, b, x, y, p, x', y', p', hc, hn, hn'⟩
  · rcases hi with rfl | rfl | rfl
    · simp [workOf, workDecodeSym, hc, hv, walkStart, Work.isRead]
    · have hlt : (0 : Word) < s.regs.arg0 := by have := harg rfl; bv_omega
      simp only [workOf, workDecodeN, hc, decodeNStart, hv, decodeNLoop, if_pos hlt, walkStart]
      rfl
    · simp [workOf, workDecodeEos, hc, hv, walkStart, Work.isRead]
  · have hgo := walkStep_go hn hn'
    rcases hi with rfl | rfl | rfl
    · simp only [workOf, workDecodeSym, hc, hgo, Work.isRead]
    · simp only [workOf, workDecodeN, hc, hgo, Work.isRead]
    · simp only [workOf, workDecodeEos, hc, hgo, Work.isRead]

theorem getBits_isRead {n : BitVec 6} (hn : bitCountLegal n = true)
    (h : s.cont = .start ∨ ∃ k v b, s.cont = .getBits k v (.bit b) ∧ k + 1 ≠ n.toNat) : (workGetBits n s).isRead = true := by
  unfold workGetBits
  rcases h with hc | ⟨k, v, b, hc, hk⟩
  · simp [hn, hc, Work.isRead]
  · simp [hn, hc, hk, Work.isRead]

theorem encodeSym_isWrite {u : Byte}
    (h : s.cont = .start ∧ s.codes.valid = true ∧ symGet s.codes.len u ≠ 0 ∨ ∃ v k, s.cont = .emit v (k + 1)) :
    (workEncodeSym u s).isWrite = true := by
  unfold workEncodeSym
  rcases h with ⟨hc, hv, hlen⟩ | ⟨v, k, hc⟩ <;> rw [hc]
  · simp only [hv]
    exact emitStart_isWrite hlen
  · rfl

theorem encodeEos_isWrite
    (h : (∃ v b, s.cont = .rawByte 7 v (.bit b) ∧ symGet s.codes.len (shiftIn v b) ≠ 0) ∨ ∃ v k, s.cont = .emit v (k + 1)) :
    (workEncodeEos s).isWrite = true := by
  unfold workEncodeEos
  rcases h with ⟨v, b, hc, hlen⟩ | ⟨v, k, hc⟩ <;> rw [hc]
  · exact emitStart_isWrite hlen
  · rfl

theorem decode_isWrite {i : Instr} (hi : i = .decodeN ∨ i = .decodeEos)
    (h : (∃ v k l, s.cont = .outSym v (k + 1) l) ∨
      ∃ n st l b v, s.cont = .walk n st l (.bit b) ∧
        (nodeAt s.arena.nodes n = some (.leaf v) ∧ b = false ∨
          ∃ x y p, nodeAt s.arena.nodes n = some (.internal x y p) ∧
            nodeAt s.arena.nodes (if b then y else x) = some (.leaf v))) :
    (workOf i s).isWrite = true := by
  rcases h with ⟨v, k, l, hc⟩ | ⟨n, st, l, b, v, hc, hleaf⟩
  · rcases hi with rfl | rfl
    · simp only [workOf, workDecodeN, hc, outNext, Work.isWrite]
    · simp only [workOf, workDecodeEos, hc, outNext, Work.isWrite]
  · have hsym := walkStep_sym hleaf
    rcases hi with rfl | rfl
    · simp only [workOf, workDecodeN, hc, hsym, outNext, Work.isWrite]
    · simp only [workOf, workDecodeEos, hc, hsym, outNext, Work.isWrite]

theorem serNext_isWrite {n : NodeIdx} (st : List NodeIdx) (h : nodeAt s.arena.nodes n ≠ none) :
    (serNext (n :: st) s).isWrite = true := by
  rw [serNext]
  split
  · next hn => exact absurd hn h
  · rfl
  · rfl

theorem serializeTree_isWrite
    (h : s.cont = .start ∧ s.arena.valid = true ∧ nodeAt s.arena.nodes s.arena.root ≠ none ∨
      (∃ n st v, s.cont = .ser (n :: st) v 0 ∧ nodeAt s.arena.nodes n ≠ none) ∨ ∃ st v k, s.cont = .ser st v (k + 1)) :
    (workSerializeTree s).isWrite = true := by
  unfold workSerializeTree
  rcases h with ⟨hc, hv, hroot⟩ | ⟨n, st, v, hc, hn⟩ | ⟨st, v, k, hc⟩ <;> rw [hc]
  · simp only [hv]
    exact serNext_isWrite [] hroot
  · exact serNext_isWrite st hn
  · rfl

theorem putBits_isWrite {n : BitVec 6} (hn : bitCountLegal n = true)
    (h : s.cont = .start ∨ ∃ v k, s.cont = .putBits v (k + 1)) : (workPutBits n s).isWrite = true := by
  have hpos : n.toNat ≠ 0 := fun h0 => by simp [bitCountLegal, h0] at hn
  obtain ⟨k, hk⟩ := Nat.exists_eq_succ_of_ne_zero hpos
  unfold workPutBits
  rcases h with hc | ⟨v, k, hc⟩
  · simp only [hn, hc, hk, putNext]
    rfl
  · simp only [hn, hc, putNext]
    rfl

theorem flush_isWrite (hc : s.cont = .start ∨ s.cont = .flush) (h : s.out.wrCnt ≠ 0) : (workFlush s).isWrite = true := by
  unfold workFlush
  rcases hc with hc | hc <;> rw [hc] <;> exact congrArg Work.isWrite (if_neg h)

/-- The hold of a DECODE_N that outlasted a write of ARG0 lasts until its ReadBit can proceed (assumption 24). -/
theorem decodeN_heldStart_blocked_iff (hc : s.cont = .heldStart) : (workDecodeN s).blocked = true ↔ readBit s.inp = .hold := by
  refine ⟨fun h => ?_, workDecodeN_heldStart_blocked hc⟩
  by_contra hr
  rw [workDecodeN, hc] at h
  simp only [if_neg hr, decodeNStart_not_blocked hr] at h
  cases h

theorem decodeN_outSym_isRead {v : Byte} {l : Word} (hc : s.cont = .outSym v 0 l) (h : s.symcnt + 1 < l) :
    (workDecodeN s).isRead = true := by
  simp only [workDecodeN, hc, outNext, decodeNLoop, if_pos h, walkStart, Work.isRead]

theorem decodeEos_outSym_isRead {v : Byte} {l : Word} (hc : s.cont = .outSym v 0 l) : (workDecodeEos s).isRead = true := by
  simp only [workDecodeEos, hc, outNext, walkStart, Work.isRead]

end Positions

/-- Settles O8: a step that changes nothing is a held one, only R78's actions lift a hold, and each place listed has its bit
operation. -/
theorem heldStepDoesNotTakePlace : Obligations.HeldStepDoesNotTakePlace := by
  refine ⟨readBit_hold_iff, writeBit_none_iff, held_iff_exec_self, fun s t => held_step, fun i s hb ha hd => ⟨fun h => ?_,
    fun h => ?_⟩⟩
  · rcases h with ⟨rfl, h⟩ | ⟨rfl, h⟩ | ⟨rfl, h⟩ | ⟨hi, h⟩ | ⟨rfl, hc | ⟨v, l, hc, h⟩⟩ | ⟨rfl, v, l, hc⟩ | ⟨n, rfl, h⟩
    · exact held_iff_of_isRead hb ha hd (freqCount_isRead h)
    · exact held_iff_of_isRead hb ha hd (encodeEos_isRead h)
    · exact held_iff_of_isRead hb ha hd (deserializeTree_isRead h)
    · exact held_iff_of_isRead hb ha hd (decode_isRead hi h)
    · rw [held_iff_blocked hb ha hd, ← readBit_hold_iff]
      exact decodeN_heldStart_blocked_iff hc
    · exact held_iff_of_isRead hb ha hd (decodeN_outSym_isRead hc h)
    · exact held_iff_of_isRead hb ha hd (decodeEos_outSym_isRead hc)
    · exact held_iff_of_isRead hb ha hd (getBits_isRead (decode_wellFormed hd) h)
  · rcases h with ⟨u, rfl, h⟩ | ⟨rfl, h⟩ | ⟨hi, h⟩ | ⟨rfl, h⟩ | ⟨n, rfl, h⟩ | ⟨rfl, hc, h⟩
    · exact held_iff_of_isWrite hb ha hd (encodeSym_isWrite h)
    · exact held_iff_of_isWrite hb ha hd (encodeEos_isWrite h)
    · exact held_iff_of_isWrite hb ha hd (decode_isWrite hi h)
    · exact held_iff_of_isWrite hb ha hd (serializeTree_isWrite h)
    · exact held_iff_of_isWrite hb ha hd (putBits_isWrite (decode_wellFormed hd) h)
    · exact held_iff_of_isWrite hb ha hd (flush_isWrite hc h)

end Sys2Proof.Machine
end

section
/-! SUPPORT. The five formats read back what they write, and a legal word is the writing of its own fields (30_encoding.md
R101 to R105); so the decoder and the encoder are inverse to each other (R107, R109, R110), and both agree with the opcode map
as match and mask (R108). -/

namespace Sys2Proof.Machine

/-! ## The opcode of an encoded word (30_encoding.md R100) -/

section OpcodeField
variable (opc : Byte)

@[simp] theorem opcodeOf_encodeFH (c : Bool) (pay : NodeIdx) : opcodeOf (encodeFH opc c pay) = opc := by
  rw [opcodeOf, encodeFH, BitVec.extractLsb'_append_eq_of_le (by decide), BitVec.extractLsb'_append_eq_of_le (by decide)]
  exact BitVec.extractLsb'_append_eq_left

@[simp] theorem opcodeOf_encodeFS (sym : Byte) : opcodeOf (encodeFS opc sym) = opc := by
  rw [opcodeOf, encodeFS, BitVec.extractLsb'_append_eq_of_le (by decide)]
  exact BitVec.extractLsb'_append_eq_left

@[simp] theorem opcodeOf_encodeFB (n : BitVec 6) : opcodeOf (encodeFB opc n) = opc := by
  rw [opcodeOf, encodeFB, BitVec.extractLsb'_append_eq_of_le (by decide)]
  exact BitVec.extractLsb'_append_eq_left

@[simp] theorem opcodeOf_encodeFR (o i : Bool) : opcodeOf (encodeFR opc o i) = opc := by
  rw [opcodeOf, encodeFR, BitVec.extractLsb'_append_eq_of_le (by decide), BitVec.extractLsb'_append_eq_of_le (by decide)]
  exact BitVec.extractLsb'_append_eq_left

end OpcodeField

/-! ## Each format reads back the operands it wrote -/

section ReadBack
variable (opc : Byte)

theorem decodeFH_encodeFH (mk : Bool → NodeIdx → Instr) (c : Bool) (pay : NodeIdx) :
    decodeFH mk (encodeFH opc c pay) = .ok (mk c pay) := by
  have hres : (encodeFH opc c pay).extractLsb' 10 14 = 0#14 := by
    rw [encodeFH, BitVec.extractLsb'_append_eq_of_le (by decide), BitVec.extractLsb'_append_eq_of_le (by decide)]
    exact BitVec.extractLsb'_append_eq_right
  have hc : (encodeFH opc c pay).getLsbD 9 = c := by
    simp only [encodeFH, BitVec.getLsbD_append]
    simp
  have hpay : (encodeFH opc c pay).extractLsb' 0 9 = pay := BitVec.extractLsb'_append_eq_right
  rw [decodeFH, if_pos hres, hc, hpay]

theorem decodeFS_encodeFS (mk : Byte → Instr) (sym : Byte) : decodeFS mk (encodeFS opc sym) = .ok (mk sym) := by
  have hres : (encodeFS opc sym).extractLsb' 8 16 = 0#16 := by
    rw [encodeFS, BitVec.extractLsb'_append_eq_of_le (by decide)]
    exact BitVec.extractLsb'_append_eq_right
  have hsym : (encodeFS opc sym).extractLsb' 0 8 = sym := BitVec.extractLsb'_append_eq_right
  rw [decodeFS, if_pos hres, hsym]

@[simp] theorem count_encodeFB (n : BitVec 6) : (encodeFB opc n).extractLsb' 0 6 = n := BitVec.extractLsb'_append_eq_right

theorem decodeFB_encodeFB (mk : BitVec 6 → Instr) {n : BitVec 6} (hn : bitCountLegal n = true) :
    decodeFB mk (encodeFB opc n) = .ok (mk n) := by
  have hres : (encodeFB opc n).extractLsb' 6 18 = 0#18 := by
    rw [encodeFB, BitVec.extractLsb'_append_eq_of_le (by decide)]
    exact BitVec.extractLsb'_append_eq_right
  rw [decodeFB, if_pos hres, count_encodeFB, if_pos hn]

theorem decodeFR_encodeFR (mk : Bool → Bool → Instr) (o i : Bool) : decodeFR mk (encodeFR opc o i) = .ok (mk o i) := by
  have hres : (encodeFR opc o i).extractLsb' 2 22 = 0#22 := by
    rw [encodeFR, BitVec.extractLsb'_append_eq_of_le (by decide), BitVec.extractLsb'_append_eq_of_le (by decide)]
    exact BitVec.extractLsb'_append_eq_right
  have ho : (encodeFR opc o i).getLsbD 1 = o := by
    simp only [encodeFR, BitVec.getLsbD_append]
    simp
  have hi : (encodeFR opc o i).getLsbD 0 = i := by
    simp only [encodeFR, BitVec.getLsbD_append]
    simp
  rw [decodeFR, if_pos hres, ho, hi]

end ReadBack

/-! ## The rows of the opcode map that have operands (30_encoding.md R107) -/

section OperandRows
variable {w : Word}

theorem decode_eq_heapAdd (h : opcodeOf w = 0x03) : decode w = decodeFH .heapAdd w := by rw [decode, h]; rfl
theorem decode_eq_encodeSym (h : opcodeOf w = 0x30) : decode w = decodeFS .encodeSym w := by rw [decode, h]; rfl
theorem decode_eq_putBits (h : opcodeOf w = 0x40) : decode w = decodeFB .putBits w := by rw [decode, h]; rfl
theorem decode_eq_getBits (h : opcodeOf w = 0x41) : decode w = decodeFB .getBits w := by rw [decode, h]; rfl
theorem decode_eq_streamReset (h : opcodeOf w = 0x43) : decode w = decodeFR .streamReset w := by rw [decode, h]; rfl

end OperandRows

/-- Decoding undoes encoding: a command without operands has one word, and the others read their operands back. -/
theorem decode_encode (i : Instr) (hi : WellFormed i = true) : decode (encode i) = .ok i := by
  cases i with
  | heapAdd c pay => exact (decode_eq_heapAdd (opcodeOf_encodeFH ..)).trans (decodeFH_encodeFH ..)
  | encodeSym sym => exact (decode_eq_encodeSym (opcodeOf_encodeFS ..)).trans (decodeFS_encodeFS ..)
  | putBits n => exact (decode_eq_putBits (opcodeOf_encodeFB ..)).trans (decodeFB_encodeFB _ _ hi)
  | getBits n => exact (decode_eq_getBits (opcodeOf_encodeFB ..)).trans (decodeFB_encodeFB _ _ hi)
  | streamReset o i => exact (decode_eq_streamReset (opcodeOf_encodeFR ..)).trans (decodeFR_encodeFR ..)
  | _ => rfl

/-! ## A legal word is its format's writing of its own fields -/

section Fields
open BitVec (extractLsb'_append_extractLsb'_eq_extractLsb' extractLsb'_eq_self)
variable {w : Word}

theorem encodeF0_fields (h : w.extractLsb' 0 24 = 0#24) : encodeF0 (opcodeOf w) = w := by
  rw [encodeF0, opcodeOf, ← h, extractLsb'_append_extractLsb'_eq_extractLsb']
  exacts [extractLsb'_eq_self, rfl]

theorem encodeFS_fields (h : w.extractLsb' 8 16 = 0#16) : encodeFS (opcodeOf w) (w.extractLsb' 0 8) = w := by
  rw [encodeFS, opcodeOf, ← h, extractLsb'_append_extractLsb'_eq_extractLsb',
    extractLsb'_append_extractLsb'_eq_extractLsb']
  exacts [extractLsb'_eq_self, rfl, rfl]

theorem encodeFB_fields (h : w.extractLsb' 6 18 = 0#18) : encodeFB (opcodeOf w) (w.extractLsb' 0 6) = w := by
  rw [encodeFB, opcodeOf, ← h, extractLsb'_append_extractLsb'_eq_extractLsb',
    extractLsb'_append_extractLsb'_eq_extractLsb']
  exacts [extractLsb'_eq_self, rfl, rfl]

theorem ofBool_getLsbD (v : Word) (k : Nat) : BitVec.ofBool (v.getLsbD k) = v.extractLsb' k 1 := by
  refine BitVec.eq_of_getLsbD_eq fun j hj => ?_
  obtain rfl : j = 0 := by omega
  simp

theorem encodeFH_fields (h : w.extractLsb' 10 14 = 0#14) :
    encodeFH (opcodeOf w) (w.getLsbD 9) (w.extractLsb' 0 9) = w := by
  rw [encodeFH, opcodeOf, ← h, ofBool_getLsbD, extractLsb'_append_extractLsb'_eq_extractLsb',
    extractLsb'_append_extractLsb'_eq_extractLsb', extractLsb'_append_extractLsb'_eq_extractLsb']
  exacts [extractLsb'_eq_self, rfl, rfl, rfl]

theorem encodeFR_fields (h : w.extractLsb' 2 22 = 0#22) : encodeFR (opcodeOf w) (w.getLsbD 1) (w.getLsbD 0) = w := by
  rw [encodeFR, opcodeOf, ← h, ofBool_getLsbD, ofBool_getLsbD, extractLsb'_append_extractLsb'_eq_extractLsb',
    extractLsb'_append_extractLsb'_eq_extractLsb', extractLsb'_append_extractLsb'_eq_extractLsb']
  exacts [extractLsb'_eq_self, rfl, rfl, rfl]

end Fields

/-! ## A word that a format accepts is the encoding of the command it gives -/

section EncodeDecoded
variable {w : Word} {j : Instr} {opc : Byte} (hop : opcodeOf w = opc)
include hop

theorem encode_of_decodeF0 {i : Instr} (henc : encode i = encodeF0 opc) (h : decodeF0 i w = .ok j) : encode j = w := by
  unfold decodeF0 at h
  split at h <;> cases h
  rw [henc, ← hop, encodeF0_fields ‹_›]

theorem encode_of_decodeFH {mk : Bool → NodeIdx → Instr} (henc : ∀ c pay, encode (mk c pay) = encodeFH opc c pay)
    (h : decodeFH mk w = .ok j) : encode j = w := by
  unfold decodeFH at h
  split at h <;> cases h
  rw [henc, ← hop, encodeFH_fields ‹_›]

theorem encode_of_decodeFS {mk : Byte → Instr} (henc : ∀ v, encode (mk v) = encodeFS opc v) (h : decodeFS mk w = .ok j) :
    encode j = w := by
  unfold decodeFS at h
  split at h <;> cases h
  rw [henc, ← hop, encodeFS_fields ‹_›]

theorem encode_of_decodeFB {mk : BitVec 6 → Instr} (henc : ∀ n, encode (mk n) = encodeFB opc n) (h : decodeFB mk w = .ok j) :
    encode j = w := by
  unfold decodeFB at h
  split at h
  · split at h <;> cases h
    rw [henc, ← hop, encodeFB_fields ‹_›]
  · cases h

theorem encode_of_decodeFR {mk : Bool → Bool → Instr} (henc : ∀ o i, encode (mk o i) = encodeFR opc o i)
    (h : decodeFR mk w = .ok j) : encode j = w := by
  unfold decodeFR at h
  split at h <;> cases h
  rw [henc, ← hop, encodeFR_fields ‹_›]

end EncodeDecoded

theorem opcodeOf_eq_ofNat {w : Word} {n : Nat} (h : (opcodeOf w).toNat = n) : opcodeOf w = BitVec.ofNat 8 n := by
  rw [← h, BitVec.ofNat_toNat, BitVec.setWidth_eq]

/-- Encoding undoes decoding: no bit of a legal word is ignored (30_encoding.md R109, R110). The cases are the decoder's
arms in order: named are HEAP_ADD, ENCODE_SYM, PUT_BITS, GET_BITS, STREAM_RESET and the unassigned opcodes; the rest are of
format F0. -/
theorem encode_of_decode {w : Word} {j : Instr} (h : decode w = .ok j) : encode j = w := by
  unfold decode at h
  split at h <;> rename_i hop
  case h_23 => cases h
  all_goals replace hop := opcodeOf_eq_ofNat hop
  case h_4 => exact encode_of_decodeFH hop (fun _ _ => rfl) h
  case h_14 => exact encode_of_decodeFS hop (fun _ => rfl) h
  case h_19 => exact encode_of_decodeFB hop (fun _ => rfl) h
  case h_20 => exact encode_of_decodeFB hop (fun _ => rfl) h
  case h_22 => exact encode_of_decodeFR hop (fun _ _ => rfl) h
  all_goals exact encode_of_decodeF0 hop rfl h

/-- Settles O1: each format reads back what it wrote, and an accepted word is the writing of its own fields. -/
theorem decodeEncodeRoundTrip : Obligations.DecodeEncodeRoundTrip :=
  ⟨decode_encode, fun _ _ h => ⟨decode_wellFormed h, encode_of_decode h⟩⟩

/-! ## The opcode map as match and mask (30_encoding.md R108) -/

/-- Bits 5:0 of a word, as R108 takes them, are the field N of R104. -/
theorem countBits_toNat (w : Word) : (w &&& 0x3F#32).toNat = (w.extractLsb' 0 6).toNat := by
  rw [BitVec.toNat_and, BitVec.extractLsb'_toNat]
  exact Nat.and_two_pow_sub_one_eq_mod w.toNat 6

theorem bitCountLegal_iff (n : BitVec 6) : bitCountLegal n = true ↔ 1 ≤ n.toNat ∧ n.toNat ≤ 32 := by
  simp [bitCountLegal]

/-- Every command's word lies in the row with its mnemonic. -/
theorem rowMatch : ∀ i : Instr, Laws.RowMatch.Statement i
  | .nop => Laws.RowMatch.nop
  | .heapCreate => Laws.RowMatch.heapCreate
  | .heapDestroy => Laws.RowMatch.heapDestroy
  | .heapAdd c pay => Laws.RowMatch.heapAdd c pay
  | .heapRemove => Laws.RowMatch.heapRemove
  | .heapSize => Laws.RowMatch.heapSize
  | .freqClear => Laws.RowMatch.freqClear
  | .freqCount => Laws.RowMatch.freqCount
  | .buildTree => Laws.RowMatch.buildTree
  | .treeClear => Laws.RowMatch.treeClear
  | .buildCodes => Laws.RowMatch.buildCodes
  | .serializeTree => Laws.RowMatch.serializeTree
  | .deserializeTree => Laws.RowMatch.deserializeTree
  | .encodeSym sym => Laws.RowMatch.encodeSym sym
  | .encodeEos => Laws.RowMatch.encodeEos
  | .decodeSym => Laws.RowMatch.decodeSym
  | .decodeN => Laws.RowMatch.decodeN
  | .decodeEos => Laws.RowMatch.decodeEos
  | .putBits n => Laws.RowMatch.putBits n
  | .getBits n => Laws.RowMatch.getBits n
  | .flush => Laws.RowMatch.flush
  | .streamReset o i => Laws.RowMatch.streamReset o i

theorem counted_row_name : ∀ row ∈ opcodeRows, row.counted = true → row.name = "PUT_BITS" ∨ row.name = "GET_BITS" := by
  decide

/-- The commands of format FB are the two whose rows are counted. -/
theorem encodeFB_of_mnemonic {i : Instr} (h : mnemonicOf i = "PUT_BITS" ∨ mnemonicOf i = "GET_BITS") :
    ∃ opc n, encode i = encodeFB opc n ∧ WellFormed i = bitCountLegal n := by
  cases i with
  | putBits n => exact ⟨_, n, rfl, rfl⟩
  | getBits n => exact ⟨_, n, rfl, rfl⟩
  | _ => exact absurd h (by simp [mnemonicOf])

theorem encode_selected {i : Instr} (hi : WellFormed i = true) :
    ∃ row ∈ opcodeRows, row.name = mnemonicOf i ∧ row.selects (encode i) := by
  obtain ⟨row, hmem, hname, hmatch⟩ := rowMatch i
  refine ⟨row, hmem, hname, hmatch, fun hcounted => ?_⟩
  obtain ⟨opc, n, henc, hwf⟩ := encodeFB_of_mnemonic (hname ▸ counted_row_name row hmem hcounted)
  rw [henc, countBits_toNat, count_encodeFB, ← bitCountLegal_iff, ← hwf, hi]

/-- Every word the row selects decodes to a command with the row's mnemonic. -/
def RowDecodes (row : OpcodeRow) : Prop :=
  ∀ w : Word, row.selects w → ∃ i, decode w = .ok i ∧ mnemonicOf i = row.name

/-- A field that lies under the mask is the match word's. -/
theorem extractLsb'_of_mask {w mask m : Word} {lo len : Nat} (h : w &&& mask = m)
    (hmask : mask.extractLsb' lo len = BitVec.allOnes len) : w.extractLsb' lo len = m.extractLsb' lo len := by
  rw [← h, BitVec.extractLsb'_and, hmask, BitVec.and_allOnes]

theorem rowDecodes_fixed (i : Instr) (hi : WellFormed i = true) :
    RowDecodes { name := mnemonicOf i, matchWord := encode i, mask := BitVec.allOnes 32, counted := false } := by
  rintro w ⟨hw, -⟩
  rw [BitVec.and_allOnes] at hw
  exact ⟨i, hw ▸ decode_encode i hi, rfl⟩

theorem rowDecodes_heapAdd : RowDecodes ⟨"HEAP_ADD", 0x03000000#32, 0xFFFFFC00#32, false⟩ := by
  rintro w ⟨hw, -⟩
  exact ⟨_, (decode_eq_heapAdd (extractLsb'_of_mask hw rfl)).trans (if_pos (extractLsb'_of_mask hw rfl)), rfl⟩

theorem rowDecodes_encodeSym : RowDecodes ⟨"ENCODE_SYM", 0x30000000#32, 0xFFFFFF00#32, false⟩ := by
  rintro w ⟨hw, -⟩
  exact ⟨_, (decode_eq_encodeSym (extractLsb'_of_mask hw rfl)).trans (if_pos (extractLsb'_of_mask hw rfl)), rfl⟩

theorem decodeFB_of_mask {mk : BitVec 6 → Instr} {m w : Word} (hw : w &&& 0xFFFFFFC0#32 = m) (hm : m.extractLsb' 6 18 = 0#18)
    (hcount : 1 ≤ (w &&& 0x3F#32).toNat ∧ (w &&& 0x3F#32).toNat ≤ 32) : decodeFB mk w = .ok (mk (w.extractLsb' 0 6)) := by
  rw [countBits_toNat, ← bitCountLegal_iff] at hcount
  rw [decodeFB, if_pos ((extractLsb'_of_mask hw rfl).trans hm), if_pos hcount]

theorem rowDecodes_putBits : RowDecodes ⟨"PUT_BITS", 0x40000000#32, 0xFFFFFFC0#32, true⟩ := by
  rintro w ⟨hw, hcount⟩
  exact ⟨_, (decode_eq_putBits (extractLsb'_of_mask hw rfl)).trans (decodeFB_of_mask hw rfl (hcount rfl)), rfl⟩

theorem rowDecodes_getBits : RowDecodes ⟨"GET_BITS", 0x41000000#32, 0xFFFFFFC0#32, true⟩ := by
  rintro w ⟨hw, hcount⟩
  exact ⟨_, (decode_eq_getBits (extractLsb'_of_mask hw rfl)).trans (decodeFB_of_mask hw rfl (hcount rfl)), rfl⟩

theorem rowDecodes_streamReset : RowDecodes ⟨"STREAM_RESET", 0x43000000#32, 0xFFFFFFFC#32, false⟩ := by
  rintro w ⟨hw, -⟩
  exact ⟨_, (decode_eq_streamReset (extractLsb'_of_mask hw rfl)).trans (if_pos (extractLsb'_of_mask hw rfl)), rfl⟩

theorem opcodeRows_decode : ∀ row ∈ opcodeRows, RowDecodes row := by
  simp only [opcodeRows, List.forall_mem_cons]
  exact ⟨rowDecodes_fixed .nop rfl, rowDecodes_fixed .heapCreate rfl, rowDecodes_fixed .heapDestroy rfl, rowDecodes_heapAdd,
    rowDecodes_fixed .heapRemove rfl, rowDecodes_fixed .heapSize rfl, rowDecodes_fixed .freqClear rfl,
    rowDecodes_fixed .freqCount rfl, rowDecodes_fixed .buildTree rfl, rowDecodes_fixed .treeClear rfl,
    rowDecodes_fixed .buildCodes rfl, rowDecodes_fixed .serializeTree rfl, rowDecodes_fixed .deserializeTree rfl,
    rowDecodes_encodeSym, rowDecodes_fixed .encodeEos rfl, rowDecodes_fixed .decodeSym rfl, rowDecodes_fixed .decodeN rfl,
    rowDecodes_fixed .decodeEos rfl, rowDecodes_putBits, rowDecodes_getBits, rowDecodes_fixed .flush rfl,
    rowDecodes_streamReset, List.forall_mem_nil _⟩

/-- Settles O2: a decoded word is its command's encoding, which the command's row selects; and each row's words decode. -/
theorem decodeAgreesWithMatchAndMask : Obligations.DecodeAgreesWithMatchAndMask := by
  refine ⟨fun w i h => ?_, fun w row hmem => opcodeRows_decode row hmem w⟩
  rw [← encode_of_decode h]
  exact encode_selected (decode_wellFormed h)

/-- Settles O3: each listed word is evaluated by the decoder. -/
theorem specWordsDecodeAsListed : Obligations.SpecWordsDecodeAsListed := by
  unfold Obligations.SpecWordsDecodeAsListed
  decide

end Sys2Proof.Machine
end

section
/-! SUPPORT. The heap commands and their two procedures (40_heap.md R120 to R126): the model's sift loops make exactly the swaps
of R121 and R123, an ordered heap has a least entry at its root, and each heap command is one unit step without a bit
operation. -/

namespace Sys2Proof.Machine

/-! ## The swaps of the sift loops (40_heap.md R121, R123) -/

/-- HeapInsert's loop, given fuel for every level above slot `i`, makes the swaps of R121. -/
theorem siftUp_siftsUp : ∀ (fuel i : Nat) (h : List HeapEntry), i ≤ fuel → i < h.length → SiftsUp h i (siftUp fuel i h)
  | 0, i, h, hf, _ => by
    obtain rfl : i = 0 := by omega
    exact .root h
  | fuel + 1, i, h, hf, hi => by
    unfold siftUp
    split
    · next h0 =>
      subst h0
      exact .root h
    · next h0 =>
      have hpos : 0 < i := by omega
      split
      · next p c hp hc =>
        split
        · next lt =>
          exact .swaps h _ i p c hpos hp hc lt
            (siftUp_siftsUp fuel _ _ (by omega) (by simp only [List.length_set]; omega))
        · next ge => exact .stays h i p c hpos hp hc (BitVec.not_lt.1 ge)
      · next hnone =>
        have hparent : (i - 1) / 2 < h.length := by omega
        exact absurd (List.getElem?_eq_getElem hi) (hnone _ _ (List.getElem?_eq_getElem hparent))

theorem looksAt_smallerChild {h : List HeapEntry} {i : Nat} {c : HeapEntry} (hc : h[smallerChild h i]? = some c) :
    LooksAt h i (smallerChild h i) c := by
  unfold smallerChild at hc ⊢
  split at hc
  · next l r hl hr =>
    split at hc
    · next lt =>
      cases hr.symm.trans hc
      exact ⟨l, hl, .inl ⟨c, hr, lt, if_pos lt, rfl⟩⟩
    · next ge =>
      cases hl.symm.trans hc
      refine ⟨c, hl, .inr ⟨fun r' hr' => ?_, if_neg ge, rfl⟩⟩
      cases hr.symm.trans hr'
      exact BitVec.not_lt.1 ge
  · next hnone => exact ⟨c, hc, .inr ⟨fun r hr => absurd hr (hnone c r hc), rfl, rfl⟩⟩

/-- A slot that has no child to look at has no children. -/
theorem length_le_of_smallerChild_none {h : List HeapEntry} {i : Nat} (hnone : h[smallerChild h i]? = none) :
    h.length ≤ 2 * i + 1 := by
  by_contra hlt
  have hleft : 2 * i + 1 < h.length := by omega
  obtain ⟨m, hm, -⟩ := smallerChild_least (i := i) (by omega) (by omega) (List.getElem?_eq_getElem hleft)
  cases hnone.symm.trans hm

/-- HeapExtract's loop, given fuel for every slot from `i` on, makes the swaps of R123. -/
theorem siftDown_siftsDown : ∀ (fuel i : Nat) (h : List HeapEntry), h.length ≤ i + fuel →
    SiftsDown h i (siftDown fuel i h)
  | 0, i, h, hf => .leaf h i (by omega)
  | fuel + 1, i, h, hf => by
    have hchild := smallerChild_eq h i
    unfold siftDown
    split
    · next c e hc he =>
      have look := looksAt_smallerChild hc
      split
      · next lt =>
        exact .swaps h _ i _ e c he look lt (siftDown_siftsDown fuel _ _ (by simp only [List.length_set]; omega))
      · next ge => exact .stays h i _ e c he look (BitVec.not_lt.1 ge)
    · next hnone =>
      refine .leaf h i ?_
      cases hc : h[smallerChild h i]? with
      | none => exact length_le_of_smallerChild_none hc
      | some c =>
        have := List.getElem?_eq_none_iff.1 (Option.eq_none_iff_forall_ne_some.2 (hnone c · hc))
        omega

theorem heapInsert_siftsUp (h : List HeapEntry) (e : HeapEntry) : SiftsUp (h ++ [e]) h.length (heapInsert h e) :=
  siftUp_siftsUp _ _ _ le_rfl (by simp)

/-- What HeapExtract takes is the root. -/
theorem heapExtract_root {h h' : List HeapEntry} {e : HeapEntry} (x : heapExtract h = some (e, h')) : h[0]? = some e := by
  cases h with
  | nil => cases x
  | cons top rest =>
    rw [heapExtract_cons] at x
    cases x
    rfl

/-- What HeapExtract leaves is the heap with the last entry moved to the root slot, sifted down. -/
theorem heapExtract_siftsDown {h h' : List HeapEntry} {e : HeapEntry} (x : heapExtract h = some (e, h')) :
    ∃ last, h.getLast? = some last ∧ SiftsDown (h.dropLast.set 0 last) 0 h' := by
  cases h with
  | nil => cases x
  | cons top rest =>
    rw [heapExtract_cons] at x
    cases x
    exact ⟨_, List.getLast?_eq_some_getLast (List.cons_ne_nil e rest), siftDown_siftsDown _ _ _ (by simp)⟩

/-! ## The least entry of an ordered heap (10_state.md R27) -/

/-- From any slot the path of parents leads down in priority to the root. -/
theorem HeapOrdered.root_le {h : List HeapEntry} (o : HeapOrdered h) {r : HeapEntry} (hr : h[0]? = some r) (i : Nat)
    {c : HeapEntry} (hc : h[i]? = some c) : r.prio ≤ c.prio := by
  induction i using Nat.strongRecOn generalizing c with
  | ind i ih =>
    rcases Nat.eq_zero_or_pos i with rfl | hpos
    · cases hr.symm.trans hc
      exact BitVec.le_refl _
    · have hi := (List.getElem?_eq_some_iff.1 hc).1
      have hp : h[(i - 1) / 2]? = some h[(i - 1) / 2] := List.getElem?_eq_getElem (by omega)
      exact BitVec.le_trans (ih _ (by omega) hp) (o i _ c hpos hp hc)

theorem HeapOrdered.root_le_mem {h : List HeapEntry} (o : HeapOrdered h) {r x : HeapEntry} (hr : h[0]? = some r)
    (hx : x ∈ h) : r.prio ≤ x.prio := by
  obtain ⟨i, hi⟩ := List.mem_iff_getElem?.1 hx
  exact o.root_le hr i hi

theorem heapExtract_least {h h' : List HeapEntry} {e : HeapEntry} (o : HeapOrdered h) (x : heapExtract h = some (e, h')) :
    ∀ y ∈ h', e.prio ≤ y.prio := fun _ hy =>
  o.root_le_mem (heapExtract_root x) ((heapExtract_perm x).subset (List.mem_cons_of_mem e hy))

/-- The root of the new heap is at most the new entry, so it is none of the others. -/
theorem heapInsert_root {h : List HeapEntry} {e : HeapEntry} (o : HeapOrdered h) (hlt : ∀ x ∈ h, e.prio < x.prio) :
    (heapInsert h e)[0]? = some e := by
  have hroot : (heapInsert h e)[0]? = some (heapInsert h e)[0] := List.getElem?_eq_getElem (by simp)
  have hperm := heapInsert_perm h e
  have hle := (heapInsert_heapOrdered o e).root_le_mem hroot (hperm.mem_iff.2 List.mem_cons_self)
  rcases List.mem_cons.1 (hperm.subset (List.mem_of_getElem? hroot)) with heq | hmem
  · rw [hroot, heq]
  · exact absurd (hlt _ hmem) (BitVec.not_lt.2 hle)

/-- Settles O13: the loops' swaps by recursion on their fuel, the entries by permutation, the order by the sift invariants. -/
theorem heapProceduresKeepEntriesAndOrder : Obligations.HeapProceduresKeepEntriesAndOrder :=
  ⟨fun h e => ⟨heapInsert_siftsUp h e, heapInsert_perm h e, fun o => heapInsert_heapOrdered o e, heapInsert_root⟩,
    fun h => ⟨heapExtract_eq_none h, fun _ _ x => ⟨heapExtract_root x, heapExtract_siftsDown x, heapExtract_perm x,
      fun o => ⟨heapExtract_heapOrdered o x, heapExtract_least o x⟩⟩⟩⟩

/-! ## A unit step without a bit operation (20_memory.md R91) -/

section Ends
variable (i : Instr) {s : State} (ha : s.stat.abortReq = false)
include ha

theorem exec_of_finish {u : State} (h : workOf i s = .finish u) : exec i s = .next (complete u) := by
  rw [exec_eq_unitStep, unitStep, ha, h]
  rfl

theorem exec_of_fail {e : ErrCode} {info : Word} {u : State} (h : workOf i s = .fail e info u) :
    exec i s = .next (raise e info u) := by
  rw [exec_eq_unitStep, unitStep, ha, h]
  rfl

end Ends

/-! ## The operands of the heap commands (40_heap.md R122, R124) -/

theorem payWord_eq (c : Bool) (pay : NodeIdx) : payWord c pay = BitVec.ofNat 32 (512 * c.toNat + pay.toNat) := by
  refine BitVec.eq_of_toNat_eq ?_
  have := Bool.toNat_le c
  have := pay.isLt
  simp only [payWord, toNat_append_add, BitVec.toNat_setWidth, BitVec.toNat_ofNat, BitVec.toNat_ofBool]
  omega

theorem payWord_bare (pay : NodeIdx) : payWord false pay = pay.setWidth 32 := by
  simp [payWord_eq]

theorem payNull_iff (c : Bool) (pay : NodeIdx) : payNull c pay = true ↔ c = true ∧ pay = 0x1FF#9 := by
  simp [payNull]

theorem payNotSymbol_iff (c : Bool) (pay : NodeIdx) : payNotSymbol c pay = true ↔ c = false ∧ 256 ≤ pay.toNat := by
  have hmsb : pay.getLsbD 8 = true ↔ 256 ≤ pay.toNat := by
    rw [← BitVec.msb_eq_getLsbD_last, BitVec.msb_eq_true_iff_two_mul_ge]
    omega
  rw [payNotSymbol, Bool.and_eq_true, Bool.not_eq_true', hmsb]

/-! ## The work of the heap commands, case by case (40_heap.md R122, R124 to R126) -/

section NoHeap
variable {s : State} (hn : s.heap.alloc = false)
include hn

theorem workHeapDestroy_noHeap : workHeapDestroy s = .fail .null 0 s := by simp [workHeapDestroy, hn]

theorem workHeapAdd_noHeap (c : Bool) (pay : NodeIdx) : workHeapAdd c pay s = .fail .null 0 s := by simp [workHeapAdd, hn]

theorem workHeapRemove_noHeap : workHeapRemove s = .fail .null 0 s := by simp [workHeapRemove, hn]

theorem workHeapSize_noHeap : workHeapSize s = .fail .null 0 s := by simp [workHeapSize, hn]

end NoHeap

section OnHeap
variable {s : State} (hall : s.heap.alloc = true)
include hall

theorem workHeapDestroy_heap : workHeapDestroy s = .finish { s with heap := { alloc := false, entries := [] } } := by
  simp [workHeapDestroy, hall]

theorem workHeapSize_heap :
    workHeapSize s = .finish { s with regs := { s.regs with res0 := natWord s.heap.size } } := by
  simp [workHeapSize, hall]

theorem workHeapRemove_empty (hempty : s.heap.entries = []) : workHeapRemove s = .fail .heapEmpty 0 s := by
  simp [workHeapRemove, hall, (heapExtract_eq_none _).2 hempty]

theorem workHeapRemove_extract {e : HeapEntry} {h' : List HeapEntry} (x : heapExtract s.heap.entries = some (e, h')) :
    workHeapRemove s =
      .finish
        { s with
          heap := { s.heap with entries := h' }
          regs := { s.regs with res0 := e.prio.setWidth 32, res1 := payWord e.comp e.pay } } := by
  simp [workHeapRemove, hall, x]

variable {c : Bool} {pay : NodeIdx}

theorem workHeapAdd_negative (hneg : argNegative s.regs.arg0 = true) :
    workHeapAdd c pay s = .fail .arg s.regs.arg0 s := by
  simp [workHeapAdd, hall, hneg]

variable (hneg : argNegative s.regs.arg0 = false)
include hneg

theorem workHeapAdd_badPayload (h : payNull c pay = true ∨ payNotSymbol c pay = true) :
    workHeapAdd c pay s = .fail .arg (payWord c pay) s := by
  rcases h with h | h <;> simp [workHeapAdd, hall, hneg, h]

variable (hnull : payNull c pay = false) (hsym : payNotSymbol c pay = false)
include hnull hsym

theorem workHeapAdd_full (hfull : s.heap.size = Config.heapCap) :
    workHeapAdd c pay s = .fail .capacity (natWord Config.heapCap) s := by
  simp [workHeapAdd, hall, hneg, hnull, hsym, hfull]

theorem workHeapAdd_room (hroom : s.heap.size ≠ Config.heapCap) :
    workHeapAdd c pay s =
      .finish { s with heap := { s.heap with entries := heapInsert s.heap.entries (addEntry s.regs.arg0 c pay) } } := by
  simp [workHeapAdd, hall, hneg, hnull, hsym, hroom]

end OnHeap

/-- The payloads that HEAP_ADD takes: a node index with C, a symbol without (40_heap.md R122). -/
theorem payload_good_iff (c : Bool) (pay : NodeIdx) :
    (payNull c pay = false ∧ payNotSymbol c pay = false) ↔
      c = true ∧ pay ≠ 0x1FF#9 ∨ c = false ∧ pay.toNat < 256 := by
  rw [← Bool.not_eq_true, ← Bool.not_eq_true, payNull_iff, payNotSymbol_iff]
  cases c <;> simp

/-! ## The heap commands -/

/-- Settles O11: each command's one check decides between its error and its result. -/
theorem heapCreateDestroyAndSize : Obligations.HeapCreateDestroyAndSize := by
  intro s ha
  refine ⟨exec_of_finish .heapCreate ha rfl, fun hn => ⟨?_, ?_⟩, fun hall => ⟨?_, ?_⟩⟩
  · exact exec_of_fail .heapDestroy ha (workHeapDestroy_noHeap hn)
  · exact exec_of_fail .heapSize ha (workHeapSize_noHeap hn)
  · exact exec_of_finish .heapDestroy ha (workHeapDestroy_heap hall)
  · exact exec_of_finish .heapSize ha (workHeapSize_heap hall)

/-- Settles O12: the checks one by one, and past them all the insertion. -/
theorem heapAddChecksThenInserts : Obligations.HeapAddChecksThenInserts := by
  intro c pay s ha
  refine ⟨fun hn => ?_, fun hall hneg => ?_, fun hall hneg hc hpay => ?_, fun hall hneg hc hpay => ?_,
    fun hall hneg hgood => ?_⟩
  · exact exec_of_fail (.heapAdd c pay) ha (workHeapAdd_noHeap hn c pay)
  · exact exec_of_fail (.heapAdd c pay) ha (workHeapAdd_negative hall hneg)
  · have bad := workHeapAdd_badPayload hall hneg (.inl ((payNull_iff c pay).2 ⟨hc, hpay⟩))
    subst hc hpay
    exact exec_of_fail (.heapAdd _ _) ha bad
  · have bad := workHeapAdd_badPayload hall hneg (.inr ((payNotSymbol_iff c pay).2 ⟨hc, hpay⟩))
    subst hc
    rw [payWord_bare] at bad
    exact exec_of_fail (.heapAdd _ _) ha bad
  · obtain ⟨hnull, hsym⟩ := (payload_good_iff c pay).2 hgood
    refine ⟨fun hfull => ?_, fun hroom => ?_⟩
    · exact exec_of_fail (.heapAdd c pay) ha (workHeapAdd_full hall hneg hnull hsym hfull)
    · exact exec_of_finish (.heapAdd c pay) ha (workHeapAdd_room hall hneg hnull hsym hroom)

/-- Settles O14: the check of the heap, then the cases of HeapExtract. -/
theorem heapRemoveReturnsTheRoot : Obligations.HeapRemoveReturnsTheRoot := by
  intro s ha
  refine ⟨fun hn => ?_, fun hall hempty => ?_, fun hall e h' x => ?_⟩
  · exact exec_of_fail .heapRemove ha (workHeapRemove_noHeap hn)
  · exact exec_of_fail .heapRemove ha (workHeapRemove_empty hall hempty)
  · rw [← payWord_eq]
    exact exec_of_finish .heapRemove ha (workHeapRemove_extract hall x)

end Sys2Proof.Machine
end

section
/-! SUPPORT. The frequency table (41_tree_builder.md R141, R142): FREQ_COUNT place by place, and over a whole input. -/

namespace Sys2Proof.Machine

/-- Settles O16: both commands are one unit step without a bit operation. -/
theorem freqClearAndTreeClear : Obligations.FreqClearAndTreeClear := fun _ ha =>
  ⟨exec_of_finish .freqClear ha rfl, exec_of_finish .treeClear ha rfl⟩

/-! ## A unit step with a ReadBit (20_memory.md R71, R78, R91) -/

theorem stepReads_of_read {i : Instr} {s t : State} {k : ReadRes → EngineCont} (ha : s.stat.abortReq = false)
    (h : workOf i s = .read t k) : StepReads i s t k := by
  rw [StepReads, exec_eq_unitStep, unitStep, ← workOf_read_inp h]
  simp only [ha, h, Bool.false_eq_true, if_false]
  exact ⟨fun hr => by rw [hr], fun hr => by rw [hr], fun b r hr => by rw [hr]⟩

/-! ## The work of FREQ_COUNT, place by place (41_tree_builder.md R142) -/

section FreqCount
variable {s : State} {k : Nat} {v : Byte} {b : Bool}

theorem workFreqCount_start (hc : s.cont = .start) :
    workFreqCount s = .read { s with freq := FreqTable.zero } (.rawByte 0 0) := by
  simp [workFreqCount, hc]

theorem workFreqCount_more (hk : k < 7) (hc : s.cont = .rawByte k v (.bit b)) :
    workFreqCount s = .read s (.rawByte (k + 1) (shiftIn v b)) := by
  simp [workFreqCount, hc, rawByte_bit_more hk]

theorem workFreqCount_counts (hc : s.cont = .rawByte 7 v (.bit b)) (hmax : s.freq.total.toNat ≠ Config.prioMax) :
    workFreqCount s = .read { s with freq := countByte s.freq (shiftIn v b) } (.rawByte 0 0) := by
  simp only [workFreqCount, hc, rawByte_bit_byte, if_neg hmax]

theorem workFreqCount_full (hc : s.cont = .rawByte 7 v (.bit b)) (hmax : s.freq.total.toNat = Config.prioMax) :
    workFreqCount s = .fail .capacity (symWord (shiftIn v b)) (releaseFreq s) := by
  simp only [workFreqCount, hc, rawByte_bit_byte, if_pos hmax]

theorem workFreqCount_ended (hc : s.cont = .rawByte 0 v .exh) : workFreqCount s = .finish s := by
  simp [workFreqCount, hc, rawByte]

theorem workFreqCount_cut (hk : 0 < k) (hc : s.cont = .rawByte k v .exh) :
    workFreqCount s = .fail .corrupt (natWord k) (releaseFreq s) := by
  simp [workFreqCount, hc, rawByte, hk.ne']

end FreqCount

/-- Settles O17: in each place the work is one of six, and it reads, completes or fails. -/
theorem freqCountUnitSteps : Obligations.FreqCountUnitSteps := by
  intro s ha
  refine ⟨fun hc => ?_, fun k v b hk hc => ?_, fun v b hc hmax => ?_, fun v b hc hmax => ?_, fun v hc => ?_,
    fun k v hk hc => ?_⟩
  · exact stepReads_of_read ha (workFreqCount_start hc)
  · exact stepReads_of_read ha (workFreqCount_more hk hc)
  · exact stepReads_of_read ha (workFreqCount_counts hc hmax)
  · exact exec_of_fail .freqCount ha (workFreqCount_full hc hmax)
  · exact exec_of_finish .freqCount ha (workFreqCount_ended hc)
  · exact exec_of_fail .freqCount ha (workFreqCount_cut hk hc)

/-! ## Reading on (20_memory.md R71, R75) -/

/-- From the reader `r` the bits `bs` have been read, which leaves `r'`. -/
structure ReadsOn (r : BitReader) (bs : List Bool) (r' : BitReader) : Prop where
  bits : inBits r = bs ++ inBits r'
  count : r'.rdBits = r.rdBits + BitVec.ofNat 32 bs.length
  eos : r'.eos = r.eos

theorem ReadsOn.refl (r : BitReader) : ReadsOn r [] r := ⟨rfl, by simp, rfl⟩

theorem ReadsOn.trans {r r' r'' : BitReader} {bs cs : List Bool} (h : ReadsOn r bs r') (h' : ReadsOn r' cs r'') :
    ReadsOn r (bs ++ cs) r'' where
  bits := by rw [h.bits, h'.bits, List.append_assoc]
  count := by rw [h'.count, h.count, List.length_append, BitVec.ofNat_add, BitVec.add_assoc]
  eos := h'.eos.trans h.eos

theorem readBit_readsOn {r : BitReader} {b : Bool} {bs : List Bool} (h : inBits r = b :: bs) :
    ∃ r', readBit r = .bit b r' ∧ inBits r' = bs ∧ ReadsOn r [b] r' := by
  obtain ⟨r', hr, rfl⟩ := readBit_inBits h
  obtain ⟨hcount, heos⟩ := readBit_counts hr
  exact ⟨r', hr, rfl, h, hcount, heos⟩

/-- No unread bit is left exactly where RD_BUF and the FIFO are empty. -/
theorem inBits_eq_nil_iff (r : BitReader) : inBits r = [] ↔ r.rdCnt = 0 ∧ r.fifo = [] := by
  have hcnt : bitsOf r.rdCnt.toNat r.rdBuf = [] ↔ r.rdCnt = 0 := by
    rw [← List.length_eq_zero_iff, bitsOf_length]
    exact ⟨fun h => BitVec.eq_of_toNat_eq h, fun h => by rw [h]; rfl⟩
  have hfifo : bytesBits r.fifo = [] ↔ r.fifo = [] := by
    cases r.fifo <;> simp [bitsOf]
  rw [inBits, List.append_eq_nil_iff, hcnt, hfifo]

theorem bytesBits_length (l : List Byte) : (bytesBits l).length = 8 * l.length := by
  simp [bytesBits, Nat.mul_comm]

/-! ## The table that counting gives -/

theorem countByte_total {f : FreqTable} (v : Byte) (h : f.total.toNat + 1 < 2 ^ 32) :
    (countByte f v).total.toNat = f.total.toNat + 1 := by
  rw [countByte, BitVec.toNat_add, show (1 : Word).toNat = 1 from rfl, Nat.mod_eq_of_lt h]

theorem foldl_countByte_total : ∀ (l : List Byte) (f : FreqTable), f.total.toNat + l.length < 2 ^ 32 →
    (l.foldl countByte f).total.toNat = f.total.toNat + l.length
  | [], _, _ => rfl
  | x :: l, f, h => by
    rw [List.length_cons] at h ⊢
    have hx := countByte_total x (f := f) (by omega)
    rw [List.foldl_cons, foldl_countByte_total l _ (by omega), hx]
    omega

theorem countByte_count {f : FreqTable} {u v : Byte} (h : (symGet f.count v).toNat + 1 < 2 ^ 32) :
    (symGet (countByte f u).count v).toNat = (symGet f.count v).toNat + if u = v then 1 else 0 := by
  rw [countByte, symGet_symSet]
  split
  · next huv => rw [huv, BitVec.toNat_add, show (1 : Word).toNat = 1 from rfl, Nat.mod_eq_of_lt h]
  · rfl

theorem foldl_countByte_count (v : Byte) : ∀ (l : List Byte) (f : FreqTable),
    (symGet f.count v).toNat + l.length < 2 ^ 32 →
      (symGet (l.foldl countByte f).count v).toNat = (symGet f.count v).toNat + l.count v
  | [], _, _ => rfl
  | x :: l, f, h => by
    rw [List.length_cons] at h
    have hx := countByte_count (f := f) (u := x) (v := v) (by omega)
    have hle : (if x = v then 1 else 0) ≤ 1 := by split <;> decide
    rw [List.foldl_cons, foldl_countByte_count v l _ (by omega), hx, List.count_cons]
    simp only [beq_iff_eq]
    omega

/-! ## FREQ_COUNT over a whole input (41_tree_builder.md R142) -/

/-- Where the bits `bs` complete the byte begun, FREQ_COUNT reads them and stands behind the eighth. -/
theorem freqCount_readsByte {s : State} (ha : s.stat.abortReq = false) (rest : List Bool) :
    ∀ (bs : List Bool) (k : Nat) (v : Byte) (b : Bool) (r : BitReader), k + bs.length = 7 → inBits r = bs ++ rest →
      ∃ (v' : Byte) (b' : Bool) (r' : BitReader),
        runUnits .freqCount bs.length { s with inp := r, cont := .rawByte k v (.bit b) } =
            .next { s with inp := r', cont := .rawByte 7 v' (.bit b') } ∧
          shiftIn v' b' = (b :: bs).foldl shiftIn v ∧ inBits r' = rest ∧ ReadsOn r bs r'
  | [], k, v, b, r, hk, hr => by
    obtain rfl : k = 7 := hk
    exact ⟨v, b, r, rfl, rfl, hr, .refl r⟩
  | c :: bs, k, v, b, r, hk, hr => by
    rw [List.length_cons] at hk
    obtain ⟨r1, hread, hbits, on⟩ := readBit_readsOn hr
    obtain ⟨-, more, -⟩ := freqCountUnitSteps { s with inp := r, cont := .rawByte k v (.bit b) } ha
    obtain ⟨-, -, step⟩ := more k v b (by omega) rfl
    obtain ⟨v', b', r', hrun, hv, hrest, on'⟩ :=
      freqCount_readsByte ha rest bs (k + 1) (shiftIn v b) c r1 (by omega) hbits
    exact ⟨v', b', r', runUnits_succ (step c r1 hread) hrun, hv, hrest, on.trans on'⟩

/-- From a place where FREQ_COUNT begins a byte, with `f` the table then, it counts the bytes of a terminated input. -/
theorem freqCount_countsOn : ∀ (bytes : List Byte) (s : State) (f : FreqTable),
    StepReads .freqCount s { s with freq := f } (.rawByte 0 0) → s.stat.abortReq = false →
    inBits s.inp = bytesBits bytes → s.inp.eos = true → f.total.toNat + bytes.length < 2 ^ 31 →
      ∃ (n : Nat) (r : BitReader),
        runUnits .freqCount n s = .next { complete s with freq := bytes.foldl countByte f, inp := r } ∧
          ReadsOn s.inp (bytesBits bytes) r ∧ inBits r = []
  | [], s, f, ⟨_, hexh, _⟩, ha, hin, heos, _ => by
    obtain ⟨hcnt, hfifo⟩ := (inBits_eq_nil_iff _).1 hin
    have first := hexh ((readBit_exh_iff _).2 ⟨hcnt, hfifo, heos⟩)
    obtain ⟨-, -, -, -, ended, -⟩ := freqCountUnitSteps { s with freq := f, cont := .rawByte 0 0 .exh } ha
    exact ⟨2, s.inp, runUnits_succ first (runUnits_one (ended 0 rfl)), .refl _, hin⟩
  | x :: bytes, s, f, ⟨_, _, hbit⟩, ha, hin, heos, hlen => by
    rw [List.length_cons] at hlen
    obtain ⟨r1, hread, hbits, on1⟩ := readBit_readsOn (bs := bitsOf 7 x ++ bytesBits bytes) hin
    obtain ⟨v, b, r2, hrun, hv, hrest, on2⟩ :=
      freqCount_readsByte (s := { s with freq := f }) ha (bytesBits bytes) (bitsOf 7 x) 0 0 (x.getLsbD 7) r1 rfl hbits
    obtain rfl : shiftIn v b = x := hv.trans (ofBits_bitsOf x)
    obtain ⟨-, -, counts, -⟩ := freqCountUnitSteps { s with freq := f, inp := r2, cont := .rawByte 7 v (.bit b) } ha
    have htotal := countByte_total (shiftIn v b) (f := f) (by omega)
    obtain ⟨n, r, hrun', on3, hend⟩ := freqCount_countsOn bytes _ (countByte f (shiftIn v b))
      (counts v b rfl (show f.total.toNat ≠ 2 ^ 31 - 1 by omega)) ha hrest (on2.eos.trans (on1.eos.trans heos)) (by omega)
    refine ⟨7 + n + 1, r, runUnits_succ (hbit _ _ hread) ?_, on1.trans (on2.trans on3), hend⟩
    rw [← bitsOf_length 7 (shiftIn v b)]
    exact (runUnits_add _ _ _ hrun).trans hrun'

/-- Settles O18: the loop of FREQ_COUNT begins with the table cleared. -/
theorem freqCountCountsItsInput : Obligations.FreqCountCountsItsInput := by
  rintro s bytes ⟨hc, ha⟩ hin - heos hlen
  obtain ⟨n, r, hrun, on, hend⟩ := freqCount_countsOn bytes s FreqTable.zero
    (stepReads_of_read ha (workFreqCount_start hc)) ha hin heos (by simpa [FreqTable.zero] using hlen)
  obtain ⟨hcnt, hfifo⟩ := (inBits_eq_nil_iff r).1 hend
  refine ⟨n, _, hrun, fun v => ?_, ?_, hend, ?_, ?_, rfl⟩
  · simpa [FreqTable.zero] using foldl_countByte_count v bytes FreqTable.zero (by simp [FreqTable.zero]; omega)
  · simpa [FreqTable.zero] using foldl_countByte_total bytes FreqTable.zero (by simp [FreqTable.zero]; omega)
  · simp [inExhausted, hcnt, hfifo, on.eos, heos]
  · rw [← bytesBits_length]
    exact on.count

end Sys2Proof.Machine
end

section
/-! SUPPORT. BUILD_TREE (41_tree_builder.md R140, R143 to R149): its loop is a chain of merges, and while it runs the heap is a
forest over the counted symbols, each entry as heavy as the counts of the symbols below it. -/

namespace Sys2Proof.Machine

/-! ## The leaf entries (41_tree_builder.md R143, R145) -/

/-- The leaf entry of the symbol `v`. -/
def leafEntry (f : SymTable Word) (v : Byte) : HeapEntry :=
  { prio := (symGet f v).setWidth 31, comp := false, pay := v.setWidth 9 }

/-- A table as the list of its entries in symbol order. -/
theorem toList_eq_map_symGet (f : SymTable Word) :
    f.toList = (List.range 256).map fun n => symGet f (BitVec.ofNat 8 n) := by
  refine List.ext_getElem (by simp) fun n hn _ => ?_
  have hn' : n % 256 = n := Nat.mod_eq_of_lt (by simpa using hn)
  simp [symGet, hn']

theorem leafEntries_eq (f : SymTable Word) : leafEntries f = (usedSymbols f).map (leafEntry f) := by
  have hzip : f.toList.zipIdx = (List.range 256).map fun n => (symGet f (BitVec.ofNat 8 n), n) := by
    rw [toList_eq_map_symGet]
    exact List.ext_getElem (by simp) fun n _ _ => by simp
  rw [leafEntries, usedSymbols, hzip, List.filterMap_map, List.map_filterMap]
  refine List.filterMap_congr fun n hn => ?_
  have hpay : BitVec.ofNat 9 n = (BitVec.ofNat 8 n).setWidth 9 := by
    have := List.mem_range.1 hn
    exact BitVec.eq_of_toNat_eq (by simp; omega)
  simp only [Function.comp_apply, hpay]
  split <;> rfl

theorem firstHeap_eq (f : SymTable Word) : firstHeap f = (leafEntries f).foldl heapInsert [] := by
  rw [leafEntries_eq, List.foldl_map]
  rfl

theorem firstHeap_perm (f : SymTable Word) : (firstHeap f).Perm ((usedSymbols f).map (leafEntry f)) := by
  simpa [firstHeap_eq, leafEntries_eq] using foldl_heapInsert_perm (leafEntries f) []

theorem usedSymbols_length (f : SymTable Word) : (usedSymbols f).length ≤ 256 :=
  (List.length_filterMap_le _ _).trans (by simp)

theorem foldl_heapInsert_heapOrdered : ∀ (l : List HeapEntry) {h : List HeapEntry}, HeapOrdered h →
    HeapOrdered (l.foldl heapInsert h)
  | [], _, o => o
  | e :: l, _, o => foldl_heapInsert_heapOrdered l (heapInsert_heapOrdered o e)

/-- The counts of the symbols that have one are all there is to the sum. -/
theorem sum_usedSymbols (f : SymTable Word) : ((usedSymbols f).map fun v => (symGet f v).toNat).sum = freqSum f := by
  rw [freqSum, toList_eq_map_symGet, usedSymbols]
  induction List.range 256 with
  | nil => rfl
  | cons n l ih =>
    rw [List.filterMap_cons]
    split
    · next h =>
      have h0 : symGet f (BitVec.ofNat 8 n) = 0 := by simpa using h
      simpa [h0] using ih
    · next v h =>
      have hv : BitVec.ofNat 8 n = v := by simpa using (Option.ite_none_left_eq_some.1 h).2
      simpa [hv] using ih

/-! ## The loop is a chain of merges (41_tree_builder.md R143, R144) -/

theorem promotes_iff {ns ns' : List Node} {e : HeapEntry} {i : NodeIdx} :
    Promotes ns e i ns' ↔ promote ns e = (i, ns') := by
  rw [Promotes, promote]
  split <;> simp [allocNode, eq_comm]

theorem promotes_promote (ns : List Node) (e : HeapEntry) : Promotes ns e (promote ns e).1 (promote ns e).2 :=
  promotes_iff.2 rfl

/-- Two extractions from an ordered heap and a sum within 31 bits are a merge. -/
theorem mergeStep_mergeTwo {h h1 h2 : List HeapEntry} {ns : List Node} {e1 e2 : HeapEntry} (o : HeapOrdered h)
    (x1 : heapExtract h = some (e1, h1)) (x2 : heapExtract h1 = some (e2, h2))
    (hsum : e1.prio.toNat + e2.prio.toNat ≤ Config.prioMax) :
    MergeStep (h, ns) (heapInsert h2 (mergeTwo ns e1 e2).1, (mergeTwo ns e1 e2).2) := by
  have hmem : e2 ∈ h1 := (heapExtract_perm x2).subset List.mem_cons_self
  exact ⟨e1, e2, h1, h2, _, _, _, _, x1, x2, heapExtract_least o x1 e2 hmem,
    heapExtract_least (heapExtract_heapOrdered o x1) x2, hsum, promotes_promote _ _, promotes_promote _ _, rfl, rfl⟩

/-- A merge takes two entries from the heap and puts in the one that joins them. -/
theorem MergeStep.joins {a b : List HeapEntry × List Node} (m : MergeStep a b) :
    ∃ e1 e2 h, a.1.Perm (e1 :: e2 :: h) ∧ e1.prio.toNat + e2.prio.toNat ≤ Config.prioMax ∧
      b.1.Perm ((mergeTwo a.2 e1 e2).1 :: h) ∧ b.2 = (mergeTwo a.2 e1 e2).2 := by
  obtain ⟨e1, e2, h1, h2, l, r, ns1, ns2, x1, x2, -, -, hsum, p1, p2, hns, hh⟩ := m
  have hmerge : mergeTwo a.2 e1 e2 =
      (⟨BitVec.ofNat 31 (e1.prio.toNat + e2.prio.toNat), true, BitVec.ofNat 9 ns2.length⟩,
        ns2 ++ [.internal l r (BitVec.ofNat 32 (e1.prio.toNat + e2.prio.toNat))]) := by
    simp only [mergeTwo, promotes_iff.1 p1, promotes_iff.1 p2, allocNode, natWord]
  refine ⟨e1, e2, h2, ((heapExtract_perm x1).symm.trans ((heapExtract_perm x2).symm.cons e1)), hsum, ?_, ?_⟩
  · rw [hh, hmerge]
    exact heapInsert_perm _ _
  · rw [hns, hmerge]

/-- How the loop of BUILD_TREE ends from the heap and nodes `a`: a chain of merges leads to one entry, the root, or to two whose
sum is too large (41_tree_builder.md R143). -/
def MergesTo (a : List HeapEntry × List Node) : MergeOut → Prop
  | .tree root nodes => ∃ e ns, Relation.ReflTransGen MergeStep a ([e], ns) ∧ Promotes ns e root nodes
  | .empty => a.1 = []
  | .overflow sum =>
    ∃ h ns e1 e2 h1 h2, Relation.ReflTransGen MergeStep a (h, ns) ∧ heapExtract h = some (e1, h1) ∧
      heapExtract h1 = some (e2, h2) ∧ Config.prioMax < e1.prio.toNat + e2.prio.toNat ∧
      sum = e1.prio.toNat + e2.prio.toNat
  | .unfinished => True

theorem MergesTo.head {a b : List HeapEntry × List Node} {out : MergeOut} (m : MergeStep a b) (hb : b.1 ≠ [])
    (h : MergesTo b out) : MergesTo a out := by
  cases out with
  | tree root nodes =>
    obtain ⟨e, ns, chain, p⟩ := h
    exact ⟨e, ns, chain.head m, p⟩
  | empty => exact absurd h hb
  | overflow sum =>
    obtain ⟨h, ns, e1, e2, h1, h2, chain, rest⟩ := h
    exact ⟨h, ns, e1, e2, h1, h2, chain.head m, rest⟩
  | unfinished => trivial

theorem mergeAll_mergesTo : ∀ (fuel : Nat) (h : List HeapEntry) (ns : List Node), HeapOrdered h →
    MergesTo (h, ns) (mergeAll fuel h ns)
  | 0, _, _, _ => trivial
  | fuel + 1, h, ns, o => by
    unfold mergeAll
    split
    · next x => exact (heapExtract_eq_none h).1 x
    · next e1 h1 x1 =>
      split
      · next x =>
        obtain rfl := (heapExtract_eq_none h1).1 x
        obtain rfl : h = [e1] := (heapExtract_perm x1).symm.eq_singleton
        exact ⟨e1, ns, .refl, promotes_promote ns e1⟩
      · next e2 h2 x2 =>
        split
        · next hover => exact ⟨h, ns, e1, e2, h1, h2, .refl, x1, x2, hover, rfl⟩
        · next hsum =>
          have o2 := heapInsert_heapOrdered (heapExtract_heapOrdered (heapExtract_heapOrdered o x1) x2)
            (mergeTwo ns e1 e2).1
          refine (mergeAll_mergesTo fuel _ _ o2).head (mergeStep_mergeTwo o x1 x2 (by omega)) ?_
          exact List.ne_nil_of_length_eq_add_one (heapInsert_length _ _)

theorem huffmanMerge_mergesTo (f : SymTable Word) : MergesTo (firstHeap f, []) (huffmanMerge f) := by
  rw [firstHeap_eq]
  exact mergeAll_mergesTo _ _ _ (foldl_heapInsert_heapOrdered _ heapOrdered_nil)

/-! ## The tree an entry stands for (41_tree_builder.md R140, R149) -/

/-- The entry `e` stands for the tree `t`: it is as heavy, and it names a node that holds it or is its bare leaf. -/
structure StandsFor (f : SymTable Word) (ns : List Node) (e : HeapEntry) (t : CodeTree) : Prop where
  prio : e.prio.toNat = t.weight f
  tree : e.comp = true → ∃ ix, HoldsWeighted f ns t e.pay ix
  leaf : e.comp = false → t = .leaf (e.pay.setWidth 8)

theorem HoldsWeighted.append {f : SymTable Word} {ns : List Node} {t : CodeTree} {i : NodeIdx} {ix : List NodeIdx}
    (h : HoldsWeighted f ns t i ix) (l : List Node) : HoldsWeighted f (ns ++ l) t i ix :=
  h.congr fun j hj => by rw [nodeAt, List.getElem?_append_left (h.holds.allocated j hj), nodeAt]

theorem StandsFor.append {f : SymTable Word} {ns : List Node} {e : HeapEntry} {t : CodeTree} (h : StandsFor f ns e t)
    (l : List Node) : StandsFor f (ns ++ l) e t where
  prio := h.prio
  tree hc := let ⟨ix, ht⟩ := h.tree hc; ⟨ix, ht.append l⟩
  leaf := h.leaf

/-- The nodes of a tree with L leaves are 2L − 1 (41_tree_builder.md R149). -/
theorem Holds.length_leaves {ns : List Node} {t : CodeTree} {i : NodeIdx} {ix : List NodeIdx} (h : Holds ns t i ix) :
    ix.length + 1 = 2 * t.leaves.length := by
  rw [h.length_eq, t.size_leaves]

/-- A promotion only adds nodes. -/
theorem promote_eq_append (ns : List Node) (e : HeapEntry) : ∃ l, (promote ns e).2 = ns ++ l := by
  cases hc : e.comp
  · exact ⟨_, by rw [promote_bare ns hc, allocNode]⟩
  · exact ⟨[], by rw [promote_comp ns hc, List.append_nil]⟩

/-- A merge only adds nodes. -/
theorem mergeTwo_eq_append (ns : List Node) (e1 e2 : HeapEntry) : ∃ l, (mergeTwo ns e1 e2).2 = ns ++ l := by
  obtain ⟨l1, h1⟩ := promote_eq_append ns e1
  obtain ⟨l2, h2⟩ := promote_eq_append (promote ns e1).2 e2
  exact ⟨_, by rw [mergeTwo, allocNode, h2, h1, List.append_assoc, List.append_assoc]⟩

/-- The nodes after a merge, in terms of what its two entries were still to cost. -/
theorem mergeTwo_length (ns : List Node) (e1 e2 : HeapEntry) :
    (mergeTwo ns e1 e2).2.length + 1 = ns.length + entryCost e1 + entryCost e2 := by
  have len1 := promote_length ns e1
  have len2 := promote_length (promote ns e1).2 e2
  have len : (mergeTwo ns e1 e2).2.length = (promote (promote ns e1).2 e2).2.length + 1 := List.length_append
  omega

/-- Promoted, an entry has the tree it stands for at a node. -/
theorem StandsFor.promoted {f : SymTable Word} {ns : List Node} {e : HeapEntry} {t : CodeTree} (h : StandsFor f ns e t)
    (hlen : ns.length < 512) : ∃ ix, HoldsWeighted f (promote ns e).2 t (promote ns e).1 ix := by
  cases hc : e.comp with
  | true =>
    rw [promote_comp ns hc]
    exact h.tree hc
  | false =>
    rw [promote_bare ns hc, h.leaf hc]
    exact ⟨_, nodeAt_allocNode _ hlen, rfl⟩

theorem CodeTree.weight_node (f : SymTable Word) (l r : CodeTree) :
    (CodeTree.node l r).weight f = l.weight f + r.weight f := by
  simp [CodeTree.weight, CodeTree.leaves]

/-- The entry of a merge stands for the tree that joins the two, the first left (41_tree_builder.md R143, R144). -/
theorem StandsFor.joined {f : SymTable Word} {ns : List Node} {e1 e2 : HeapEntry} {t1 t2 : CodeTree}
    (s1 : StandsFor f ns e1 t1) (s2 : StandsFor f ns e2 t2) (hlen : (mergeTwo ns e1 e2).2.length ≤ 512)
    (hsum : e1.prio.toNat + e2.prio.toNat ≤ Config.prioMax) :
    StandsFor f (mergeTwo ns e1 e2).2 (mergeTwo ns e1 e2).1 (.node t1 t2) := by
  obtain ⟨l1, app1⟩ := promote_eq_append ns e1
  obtain ⟨l2, app2⟩ := promote_eq_append (promote ns e1).2 e2
  have len1 : (promote ns e1).2.length = ns.length + l1.length := by rw [app1, List.length_append]
  have len2 : (promote (promote ns e1).2 e2).2.length = (promote ns e1).2.length + l2.length := by
    rw [app2, List.length_append]
  have len3 : (mergeTwo ns e1 e2).2.length = (promote (promote ns e1).2 e2).2.length + 1 := List.length_append
  have hmax : Config.prioMax = 2 ^ 31 - 1 := rfl
  have weight : e1.prio.toNat + e2.prio.toNat = (CodeTree.node t1 t2).weight f := by
    rw [CodeTree.weight_node, s1.prio, s2.prio]
  have s2' : StandsFor f (promote ns e1).2 e2 t2 := app1 ▸ s2.append l1
  obtain ⟨xs, h1⟩ := s1.promoted (by omega)
  obtain ⟨ys, right⟩ := s2'.promoted (by omega)
  have left : HoldsWeighted f (promote (promote ns e1).2 e2).2 t1 (promote ns e1).1 xs := app2 ▸ h1.append l2
  have word : (natWord (e1.prio.toNat + e2.prio.toNat)).toNat = e1.prio.toNat + e2.prio.toNat :=
    Nat.mod_eq_of_lt (by omega)
  exact
    { prio := (Nat.mod_eq_of_lt (by omega)).trans weight
      tree := fun _ => ⟨_, _, _, _, xs, ys, nodeAt_allocNode _ (by omega), word.trans weight, left.append _,
        right.append _, rfl⟩
      leaf := nofun }

/-! ## What every merge keeps (41_tree_builder.md R149) -/

/-- While BUILD_TREE runs on the counts `f` the heap is a forest over the counted symbols, and the nodes allocated and those
to come are 2L. -/
structure MergeOk (f : SymTable Word) (h : List HeapEntry) (ns : List Node) : Prop where
  forest : ForestOk ns h
  cost : ns.length + heapCost h = 2 * (usedSymbols f).length
  trees : ∃ ts, List.Forall₂ (StandsFor f ns) h ts ∧ (ts.flatMap CodeTree.leaves).Perm (usedSymbols f)

section MergeOk
variable {f : SymTable Word} {h : List HeapEntry} {ns : List Node}

theorem MergeOk.perm {h' : List HeapEntry} (o : MergeOk f h ns) (p : h'.Perm h) : MergeOk f h' ns := by
  obtain ⟨ts, hts, leaves⟩ := o.trees
  obtain ⟨ts', hts', pts⟩ := List.perm_comp_forall₂ p hts
  exact ⟨o.forest.perm p, heapCost_perm p ▸ o.cost, ts', hts', (pts.flatMap_right _).trans leaves⟩

theorem MergeOk.cost_le (o : MergeOk f h ns) : ns.length + heapCost h ≤ 512 := by
  have := usedSymbols_length f
  rw [o.cost]
  omega

theorem MergeOk.joined {e1 e2 : HeapEntry} (o : MergeOk f (e1 :: e2 :: h) ns)
    (hsum : e1.prio.toNat + e2.prio.toNat ≤ Config.prioMax) :
    MergeOk f ((mergeTwo ns e1 e2).1 :: h) (mergeTwo ns e1 e2).2 := by
  have hle := o.cost_le
  have hcost := o.cost
  rw [heapCost_cons, heapCost_cons] at hle hcost
  have len := mergeTwo_length ns e1 e2
  refine ⟨(mergeTwo_ok o.forest o.cost_le).1, ?_, ?_⟩
  · have cost : entryCost (mergeTwo ns e1 e2).1 = 1 := rfl
    rw [heapCost_cons, cost]
    omega
  · obtain ⟨_, _ | ⟨s1, _ | ⟨s2, rest⟩⟩, leaves⟩ := o.trees
    obtain ⟨l, app⟩ := mergeTwo_eq_append ns e1 e2
    refine ⟨_, .cons (s1.joined s2 (by omega) hsum) (rest.imp fun _ _ s => app ▸ s.append l), ?_⟩
    simpa [CodeTree.leaves, List.append_assoc] using leaves

theorem MergeOk.step {a b : List HeapEntry × List Node} (o : MergeOk f a.1 a.2) (m : MergeStep a b) :
    MergeOk f b.1 b.2 := by
  obtain ⟨e1, e2, h, pa, hsum, pb, hns⟩ := m.joins
  rw [hns]
  exact ((o.perm pa.symm).joined hsum).perm pb

theorem MergeOk.chain {a b : List HeapEntry × List Node} (o : MergeOk f a.1 a.2)
    (c : Relation.ReflTransGen MergeStep a b) : MergeOk f b.1 b.2 := by
  induction c with
  | refl => exact o
  | tail _ m ih => exact ih.step m

/-- The heap is as heavy as the counts together. -/
theorem MergeOk.prio_sum (o : MergeOk f h ns) : (h.map fun e => e.prio.toNat).sum = freqSum f := by
  obtain ⟨ts, hts, leaves⟩ := o.trees
  rw [← sum_usedSymbols, ← (leaves.map _).sum_eq]
  clear o leaves
  induction hts with
  | nil => rfl
  | cons s _ ih => simp [s.prio, CodeTree.weight, ih]

/-- The two entries a merge extracts are no heavier than the counts together. -/
theorem MergeOk.extracted_le (o : MergeOk f h ns) {h1 h2 : List HeapEntry} {e1 e2 : HeapEntry}
    (x1 : heapExtract h = some (e1, h1)) (x2 : heapExtract h1 = some (e2, h2)) :
    e1.prio.toNat + e2.prio.toNat ≤ freqSum f := by
  have two := (o.perm ((heapExtract_perm x2).cons e1 |>.trans (heapExtract_perm x1))).prio_sum
  simp only [List.map_cons, List.sum_cons] at two
  omega

/-- The last entry, promoted, is the root of a tree that uses every node once (41_tree_builder.md R149). -/
theorem MergeOk.tree {e : HeapEntry} {root : NodeIdx} {nodes : List Node} (o : MergeOk f [e] ns)
    (p : Promotes ns e root nodes) :
    nodes.length + 1 = 2 * (usedSymbols f).length ∧
      ∃ T ix, HoldsWeighted f nodes T root ix ∧ ix.Nodup ∧ ix.length = nodes.length ∧ T.leaves.Perm (usedSymbols f) := by
  have hp := promotes_iff.1 p
  obtain ⟨rfl, rfl⟩ : (promote ns e).1 = root ∧ (promote ns e).2 = nodes := by rw [hp]; exact ⟨rfl, rfl⟩
  have hle := o.cost_le
  have hcost := o.cost
  have hlen := promote_length ns e
  have hpos := entryCost_pos e
  rw [heapCost_cons] at hle hcost
  have hnil : heapCost [] = 0 := rfl
  obtain ⟨_, _ | ⟨s, _ | _⟩, leaves⟩ := o.trees
  obtain ⟨ix, ht⟩ := s.promoted (by omega)
  obtain ⟨_, _, ht', nodup⟩ := (o.forest.promote (by omega)).trees _ List.mem_cons_self rfl
  obtain ⟨-, rfl⟩ := ht'.unique ht.holds
  rw [List.flatMap_singleton] at leaves
  have used := ht.holds.length_leaves
  rw [leaves.length_eq] at used
  exact ⟨by omega, _, _, ht, nodup, by omega, leaves⟩

end MergeOk

theorem standsFor_leafEntry {f : SymTable Word} {v : Byte} (hv : (symGet f v).toNat ≤ 2 ^ 31 - 1) (ns : List Node) :
    StandsFor f ns (leafEntry f v) (.leaf v) where
  prio := by
    have : (symGet f v).toNat % 2 ^ 31 = (symGet f v).toNat := Nat.mod_eq_of_lt (by omega)
    simpa [leafEntry, CodeTree.weight, CodeTree.leaves] using this
  tree := nofun
  leaf _ := by simp [leafEntry]

theorem mergeOk_firstHeap {f : SymTable Word} (legal : ∀ v : Byte, (symGet f v).toNat ≤ 2 ^ 31 - 1) :
    MergeOk f (firstHeap f) [] := by
  refine MergeOk.perm ⟨⟨?_, ?_⟩, ?_, (usedSymbols f).map .leaf, ?_, ?_⟩ (firstHeap_perm f)
  · intro e he hc
    obtain ⟨v, -, rfl⟩ := List.mem_map.1 he
    cases hc
  · exact List.pairwise_map.2 (List.pairwise_of_forall fun _ _ => nofun)
  · rw [heapCost, List.map_map]
    simp [Function.comp_def, leafEntry, entryCost, Nat.mul_comm]
  · rw [List.forall₂_map_left_iff, List.forall₂_map_right_iff, List.forall₂_same]
    exact fun v _ => standsFor_leafEntry (legal v) []
  · simp [List.flatMap_map, CodeTree.leaves]

/-! ## BUILD_TREE (41_tree_builder.md R143, R146, R147) -/

section BuildTree
variable {f : SymTable Word} (legal : ∀ v : Byte, (symGet f v).toNat ≤ 2 ^ 31 - 1)
include legal

/-- Two entries whose sum is too large are no heavier than the counts together. -/
theorem prioMax_lt_of_overflow {sum : Nat} (hm : huffmanMerge f = .overflow sum) : Config.prioMax < freqSum f := by
  obtain ⟨h, ns, e1, e2, h1, h2, chain, x1, x2, hover, -⟩ := hm ▸ huffmanMerge_mergesTo f
  exact hover.trans_le (((mergeOk_firstHeap legal).chain chain).extracted_le x1 x2)

/-- The last entry of a merge that ends in a tree is as heavy as the counts together, within 31 bits. -/
theorem freqSum_le_of_tree {root : NodeIdx} {nodes : List Node} (hm : huffmanMerge f = .tree root nodes) :
    freqSum f ≤ Config.prioMax := by
  obtain ⟨e, ns, chain, -⟩ := hm ▸ huffmanMerge_mergesTo f
  have hsum := ((mergeOk_firstHeap legal).chain chain).prio_sum
  have hprio := e.prio.isLt
  have hmax : Config.prioMax = 2 ^ 31 - 1 := rfl
  simp only [List.map_cons, List.map_nil, List.sum_singleton] at hsum
  omega

end BuildTree

theorem usedSymbols_nil_of_empty {f : SymTable Word} (hm : huffmanMerge f = .empty) : usedSymbols f = [] := by
  have run := huffmanMerge_mergesTo f
  rw [hm] at run
  have hnil : firstHeap f = [] := run
  have hperm := firstHeap_perm f
  rw [hnil] at hperm
  exact List.map_eq_nil_iff.1 hperm.nil_eq.symm

theorem huffmanMerge_empty {f : SymTable Word} (h : usedSymbols f = []) : huffmanMerge f = .empty := by
  rw [huffmanMerge, leafEntries_eq, h]
  rfl

/-- A lone entry is not merged: its leaf is the root (41_tree_builder.md R146). -/
theorem huffmanMerge_single {f : SymTable Word} {v : Byte} (h : usedSymbols f = [v]) :
    huffmanMerge f = .tree 0 [.leaf v] := by
  rw [huffmanMerge, leafEntries_eq, h]
  have hv : (v.setWidth 9).setWidth 8 = v := by simp
  exact congrArg (fun u => MergeOut.tree 0 [.leaf u]) hv

section Work
variable {s : State}

theorem workBuildTree_tree {root : NodeIdx} {nodes : List Node} (hm : huffmanMerge s.freq.count = .tree root nodes) :
    workBuildTree s =
      .finish
        { s with
          arena := { nodes := nodes, root := root, valid := true }
          heap := { alloc := false, entries := [] } } := by
  rw [workBuildTree, hm]

theorem workBuildTree_empty (hm : huffmanMerge s.freq.count = .empty) :
    workBuildTree s = .fail .degenerate 0 (releaseBuild s) := by
  rw [workBuildTree, hm]

theorem workBuildTree_overflow {sum : Nat} (hm : huffmanMerge s.freq.count = .overflow sum) :
    workBuildTree s = .fail .capacity (natWord sum) (releaseBuild s) := by
  rw [workBuildTree, hm]

end Work

/-- Settles O20: above 2^31 − 1 the merge cannot end in a tree, whose weight is the sum of the counts. -/
theorem buildTreeEmptySingleAndOverflow : Obligations.BuildTreeEmptySingleAndOverflow := by
  intro s ha
  refine ⟨fun hnone => ?_, fun v hone => ?_, fun legal hover => ?_⟩
  · exact exec_of_fail .buildTree ha (workBuildTree_empty (huffmanMerge_empty hnone))
  · exact exec_of_finish .buildTree ha (workBuildTree_tree (huffmanMerge_single hone))
  · have hmax : Config.prioMax = 2 ^ 31 - 1 := rfl
    have run := huffmanMerge_mergesTo s.freq.count
    cases hm : huffmanMerge s.freq.count with
    | tree root nodes =>
      have := freqSum_le_of_tree legal hm
      omega
    | empty =>
      have := sum_usedSymbols s.freq.count
      rw [usedSymbols_nil_of_empty hm, List.map_nil, List.sum_nil] at this
      omega
    | overflow sum =>
      obtain ⟨h, ns, e1, e2, h1, h2, chain, x1, x2, hlt, rfl⟩ := hm ▸ run
      exact ⟨h, ns, e1, e2, h1, h2, chain, x1, x2, hlt, exec_of_fail .buildTree ha (workBuildTree_overflow hm)⟩
    | unfinished => exact absurd hm (mergeAll_ends _)

/-- Settles O21: the merge ends in a tree, since no two entries are heavier than the counts together. -/
theorem buildTreeMakesAHuffmanTree : Obligations.BuildTreeMakesAHuffmanTree := by
  intro s ha hused hsum
  have legal : ∀ v : Byte, (symGet s.freq.count v).toNat ≤ 2 ^ 31 - 1 := fun v => (symGet_le_freqSum _ v).trans hsum
  have run := huffmanMerge_mergesTo s.freq.count
  cases hm : huffmanMerge s.freq.count with
  | tree root nodes =>
    obtain ⟨e, ns, chain, root_eq⟩ := hm ▸ run
    obtain ⟨count, T, ix, holds, nodup, length, leaves⟩ := ((mergeOk_firstHeap legal).chain chain).tree root_eq
    exact ⟨nodes, ns, root, e, T, ix, exec_of_finish .buildTree ha (workBuildTree_tree hm), chain, root_eq, count, holds,
      nodup, length, leaves⟩
  | empty => exact absurd (usedSymbols_nil_of_empty hm) hused
  | overflow sum => exact absurd hsum (Nat.not_le.2 (prioMax_lt_of_overflow legal hm))
  | unfinished => exact absurd hm (mergeAll_ends _)

end Sys2Proof.Machine
end

section
/-! SUPPORT. BUILD_CODES (42_code_table.md R160 to R163): its walk records the leaves in preorder, each with its path, up to the
first one deeper than CODE_MAX. -/

namespace Sys2Proof.Machine

/-! ## The leaves with their paths (42_code_table.md R161) -/

/-- The leaves of a tree in preorder, each with its path, below a node that has the path `pre` itself. -/
def CodeTree.edgesFrom (t : CodeTree) (pre : List Bool) : List (Byte × List Bool) := t.edges.map fun e => (e.1, pre ++ e.2)

theorem CodeTree.edgesFrom_leaf (sym : Byte) (pre : List Bool) : (CodeTree.leaf sym).edgesFrom pre = [(sym, pre)] := by
  simp [edgesFrom, edges]

theorem CodeTree.edgesFrom_node (l r : CodeTree) (pre : List Bool) :
    (CodeTree.node l r).edgesFrom pre = l.edgesFrom (pre ++ [false]) ++ r.edgesFrom (pre ++ [true]) := by
  simp [edgesFrom, edges, Function.comp_def]

theorem CodeTree.edgesFrom_nil (t : CodeTree) : t.edgesFrom [] = t.edges := List.map_id _

theorem CodeTree.length_le_depth {t : CodeTree} {e : Byte × List Bool} (he : e ∈ t.edges) : e.2.length ≤ t.depth := by
  induction t generalizing e with
  | leaf sym =>
    rw [List.mem_singleton.1 he]
    exact le_rfl
  | node l r ihl ihr =>
    rw [depth]
    rcases List.mem_append.1 he with h | h <;> obtain ⟨x, hx, rfl⟩ := List.mem_map.1 h
    · exact Nat.succ_le_succ ((ihl hx).trans (le_max_left ..))
    · exact Nat.succ_le_succ ((ihr hx).trans (le_max_right ..))

/-! ## Recording one leaf after another (42_code_table.md R160) -/

/-- The leaf lies deeper than CODE_MAX. -/
def tooLong (e : Byte × List Bool) : Bool := Config.codeMax < e.2.length

/-- What BUILD_CODES does at the leaf `e`, the rest of its work being `k`. -/
def recordLeaf (e : Byte × List Bool) (k : SymTable (BitVec 6) → SymTable Word → CodesOut) (len : SymTable (BitVec 6))
    (bits : SymTable Word) : CodesOut :=
  if tooLong e then .tooDeep e.1
  else k (symSet len e.1 (BitVec.ofNat 6 e.2.length)) (symSet bits e.1 (ofBits e.2))

/-- The table `t` with the entry of each leaf of `l` in turn set to `f` of its code. -/
def setCodes {α : Type} (f : List Bool → α) (l : List (Byte × List Bool)) (t : SymTable α) : SymTable α :=
  l.foldl (fun t e => symSet t e.1 (f e.2)) t

/-- Where no leaf is too deep all are recorded. -/
theorem foldr_recordLeaf_table {l : List (Byte × List Bool)} (h : l.find? tooLong = none)
    (k : SymTable (BitVec 6) → SymTable Word → CodesOut) (len : SymTable (BitVec 6)) (bits : SymTable Word) :
    l.foldr recordLeaf k len bits =
      k (setCodes (fun p => BitVec.ofNat 6 p.length) l len) (setCodes ofBits l bits) := by
  induction l generalizing len bits with
  | nil => rfl
  | cons e l ih =>
    have he : ¬tooLong e := List.find?_eq_none.1 h e List.mem_cons_self
    rw [List.find?_cons_of_neg he] at h
    rw [List.foldr_cons, recordLeaf, if_neg he, ih h]
    rfl

/-- The first leaf that is too deep ends the recording. -/
theorem foldr_recordLeaf_tooDeep {l : List (Byte × List Bool)} {e : Byte × List Bool} (h : l.find? tooLong = some e)
    (k : SymTable (BitVec 6) → SymTable Word → CodesOut) (len : SymTable (BitVec 6)) (bits : SymTable Word) :
    l.foldr recordLeaf k len bits = .tooDeep e.1 := by
  induction l generalizing len bits with
  | nil => cases h
  | cons x l ih =>
    rw [List.foldr_cons, recordLeaf]
    by_cases hx : tooLong x
    · rw [List.find?_cons_of_pos hx] at h
      rw [if_pos hx, Option.some.inj h]
    · rw [List.find?_cons_of_neg hx] at h
      rw [if_neg hx, ih h]

/-! ## The last leaf of a symbol wins (42_code_table.md R163) -/

theorem lastCode_cons (e : Byte × List Bool) (l : List (Byte × List Bool)) (v : Byte) :
    lastCode (e :: l) v = (lastCode l v).or (if e.1 = v then some e.2 else none) := by
  by_cases h : e.1 = v
  · simp [lastCode, h, List.getLast?_cons]
  · simp [lastCode, h]

theorem symGet_setCodes {α : Type} (f : List Bool → α) (l : List (Byte × List Bool)) (t : SymTable α) (v : Byte) :
    symGet (setCodes f l t) v = ((lastCode l v).map f).getD (symGet t v) := by
  induction l generalizing t with
  | nil => rfl
  | cons e l ih =>
    rw [setCodes, List.foldl_cons, ← setCodes, ih, symGet_symSet, lastCode_cons]
    cases lastCode l v with
    | some p => rfl
    | none => split <;> rfl

theorem mem_of_lastCode {l : List (Byte × List Bool)} {v : Byte} {p : List Bool} (h : lastCode l v = some p) : (v, p) ∈ l := by
  obtain ⟨e, he, rfl⟩ := List.mem_map.1 (List.mem_of_getLast? h)
  obtain ⟨hmem, hv⟩ := List.mem_filter.1 he
  rwa [← of_decide_eq_true hv]

/-! ## The walk of BUILD_CODES (42_code_table.md R160) -/

/-- The stack entry of the node `i` that has the path `pre`. -/
def entryAt (i : NodeIdx) (pre : List Bool) : PathEntry := { node := i, len := pre.length, bits := ofBits pre }

/-- The entry of a child: its path is one edge longer. -/
theorem entryAt_append (i : NodeIdx) (pre : List Bool) (b : Bool) :
    entryAt i (pre ++ [b]) = { node := i, len := pre.length + 1, bits := shiftIn (ofBits pre) b } := by
  rw [entryAt, ofBits_append, List.length_append, List.length_singleton]

/-- With an empty stack the walk is over. -/
theorem codeWalk_nil (ns : List Node) (fuel : Nat) : codeWalk ns fuel [] = .table := by
  funext len bits
  rw [codeWalk]

/-- The walk records the leaves below the node on top of the stack, in as many visits as there are nodes, and goes on with the
rest of the stack. -/
theorem codeWalk_entryAt {ns : List Node} {t : CodeTree} {i : NodeIdx} {ix : List NodeIdx} (h : Holds ns t i ix)
    (pre : List Bool) (fuel : Nat) (st : List PathEntry) :
    codeWalk ns (fuel + t.size) (entryAt i pre :: st) = (t.edgesFrom pre).foldr recordLeaf (codeWalk ns fuel st) := by
  induction t generalizing i ix pre fuel st with
  | leaf sym =>
    obtain ⟨hn, -⟩ := h
    funext len bits
    rw [CodeTree.edgesFrom_leaf, CodeTree.size, codeWalk, entryAt, hn, List.foldr_cons, recordLeaf]
    simp only [tooLong, decide_eq_true_eq, List.foldr_nil]
  | node l r ihl ihr =>
    obtain ⟨a, b, prio, xs, ys, hn, hl, hr, -⟩ := h
    have hsize : fuel + (CodeTree.node l r).size = fuel + r.size + l.size + 1 := by rw [CodeTree.size]; omega
    rw [CodeTree.edgesFrom_node, List.foldr_append, ← ihr hr, ← ihl hl, entryAt_append, entryAt_append]
    funext len bits
    rw [hsize, codeWalk, entryAt, hn]

/-- On a tree of at most NODE_CAP nodes BUILD_CODES records the codes of the leaves into an empty table. -/
theorem codesOf_eq {a : Arena} {t : CodeTree} {ix : List NodeIdx} (h : Holds a.nodes t a.root ix) (hs : t.size ≤ Config.nodeCap) :
    codesOf a = t.codes.foldr recordLeaf .table CodeTable.zero.len CodeTable.zero.bits := by
  cases t with
  | leaf sym =>
    obtain ⟨hn, -⟩ := h
    rw [codesOf, hn]
    rfl
  | node l r =>
    have walk := codeWalk_entryAt h [] (Config.nodeCap - (CodeTree.node l r).size) []
    rw [Nat.sub_add_cancel hs, CodeTree.edgesFrom_nil, codeWalk_nil] at walk
    obtain ⟨_, _, _, _, _, hn, -⟩ := h
    rw [codesOf, hn]
    exact congrFun₂ walk _ _

/-- A lone root's code is not too long either. -/
theorem find?_tooLong_codes (t : CodeTree) : t.codes.find? tooLong = t.edges.find? tooLong := by
  cases t <;> rfl

theorem find?_tooLong_of_depth {t : CodeTree} (h : t.depth ≤ Config.codeMax) : t.codes.find? tooLong = none := by
  rw [find?_tooLong_codes, List.find?_eq_none]
  intro e he
  rw [tooLong, decide_eq_true_eq, Nat.not_lt]
  exact (CodeTree.length_le_depth he).trans h

/-! ## The command (42_code_table.md R160, R162) -/

section Work
variable {s : State}

theorem workBuildCodes_noTree (hv : s.arena.valid = false) : workBuildCodes s = .fail .state 0 s := by
  rw [workBuildCodes, hv]
  rfl

theorem workBuildCodes_table (hv : s.arena.valid = true) {len : SymTable (BitVec 6)} {bits : SymTable Word}
    (hc : codesOf s.arena = .table len bits) :
    workBuildCodes s = .finish { s with codes := { len := len, bits := bits, valid := true } } := by
  rw [workBuildCodes, hv, hc]
  rfl

theorem workBuildCodes_tooDeep (hv : s.arena.valid = true) {sym : Byte} (hc : codesOf s.arena = .tooDeep sym) :
    workBuildCodes s = .fail .capacity (symWord sym) (releaseCodes s) := by
  rw [workBuildCodes, hv, hc]
  rfl

end Work

/-- Settles O22: a lone root is recorded in an empty table without a walk. -/
theorem buildCodesWithoutTreeAndLoneRoot : Obligations.BuildCodesWithoutTreeAndLoneRoot := by
  intro s ha
  refine ⟨fun hv => exec_of_fail .buildCodes ha (workBuildCodes_noTree hv), fun v hv hn => ?_⟩
  have hc : codesOf s.arena = .table (symSet CodeTable.zero.len v 1) (symSet CodeTable.zero.bits v 0) := by
    rw [codesOf, hn]
  refine ⟨_, exec_of_finish .buildCodes ha (workBuildCodes_table hv hc), rfl, rfl, fun u => ⟨?_, ?_⟩⟩
  · simp [symGet_symSet, CodeTable.zero, eq_comm]
  · simp [symGet_symSet, CodeTable.zero]

/-- Settles O23: no leaf is too deep, so the table is the empty one with each leaf's code set in turn. -/
theorem buildCodesRecordsThePaths : Obligations.BuildCodesRecordsThePaths := by
  intro s T ix ha hv holds hsize hdepth
  have hfind := find?_tooLong_of_depth hdepth
  have hc := (codesOf_eq holds hsize).trans (foldr_recordLeaf_table hfind _ _ _)
  refine ⟨_, exec_of_finish .buildCodes ha (workBuildCodes_table hv hc), rfl, rfl, fun v => ?_⟩
  simp only [complete_codes, symGet_setCodes]
  cases hl : lastCode T.codes v with
  | none => exact ⟨symGet_replicate _ v, symGet_replicate _ v⟩
  | some p =>
    have hp : p.length ≤ 32 := by
      simpa [tooLong] using List.find?_eq_none.1 hfind _ (mem_of_lastCode hl)
    exact ⟨Nat.mod_eq_of_lt (show p.length < 2 ^ 6 by omega), rfl⟩

/-- Settles O24: the first leaf that is too deep ends the walk, and the release rule empties the table. -/
theorem buildCodesRefusesDeepLeaves : Obligations.BuildCodesRefusesDeepLeaves := by
  intro s T ix v p ha hv holds hsize hdeep
  have hfind : T.codes.find? tooLong = some (v, p) := (find?_tooLong_codes T).trans hdeep
  have hc := (codesOf_eq holds hsize).trans (foldr_recordLeaf_tooDeep hfind _ _ _)
  exact exec_of_fail .buildCodes ha (workBuildCodes_tooDeep hv hc)

end Sys2Proof.Machine
end

section
/-! SUPPORT. Unit steps with a bit operation, in a row: the bits written go behind the output, the bits read come off the input
(20_memory.md R71, R73, R75, R91). -/

namespace Sys2Proof.Machine

/-! ## A unit step with a WriteBit (20_memory.md R73, R78, R91) -/

theorem stepWrites_of_write {i : Instr} {s t : State} {b : Bool} {c : EngineCont} (ha : s.stat.abortReq = false)
    (h : workOf i s = .write b t c) : StepWrites i s t b c := by
  obtain ⟨hout, hext⟩ := workOf_write_out h
  rw [StepWrites, exec_eq_unitStep, unitStep, ← hout, ← hext]
  simp only [ha, h, Bool.false_eq_true, if_false]
  exact ⟨fun hw => by rw [hw], fun w hw => by rw [hw]⟩

/-! ## Writing on (20_memory.md R73, R75) -/

/-- To the writer `w` the bits `bs` have been written, which gives `w'`. -/
structure WritesOn (w : BitWriter) (bs : List Bool) (w' : BitWriter) : Prop where
  bits : outBits w' = outBits w ++ bs
  count : w'.wrBits = w.wrBits + BitVec.ofNat 32 bs.length

theorem WritesOn.refl (w : BitWriter) : WritesOn w [] w := ⟨by simp, by simp⟩

theorem WritesOn.trans {w w' w'' : BitWriter} {bs cs : List Bool} (h : WritesOn w bs w') (h' : WritesOn w' cs w'') :
    WritesOn w (bs ++ cs) w'' where
  bits := by rw [h'.bits, h.bits, List.append_assoc]
  count := by rw [h'.count, h.count, List.length_append, BitVec.ofNat_add, BitVec.add_assoc]

/-- The room is what the bits the block holds leave free. -/
theorem outRoom_iff (cap n : Nat) (w : BitWriter) : outRoom cap n w ↔ (outBits w).length + n < 8 * (cap + 1) := by
  rw [outRoom, outBits, List.length_append, bytesBits_length, bitsOf_length]

/-- Bits written use up as much of the room. -/
theorem WritesOn.outRoom {w w' : BitWriter} {bs : List Bool} (h : WritesOn w bs w') {cap n : Nat}
    (room : outRoom cap (bs.length + n) w) : outRoom cap n w' := by
  rw [outRoom_iff] at room ⊢
  rw [h.bits, List.length_append]
  omega

/-- With room for a bit WriteBit is not held. -/
theorem writeBit_writesOn {cap n : Nat} {w : BitWriter} (room : outRoom cap (n + 1) w) (b : Bool) :
    ∃ w', writeBit cap b w = some w' ∧ WritesOn w [b] w' := by
  cases hw : writeBit cap b w with
  | none =>
    obtain ⟨h7, hcap⟩ := (writeBit_none_iff cap b w).1 hw
    rw [outRoom, h7, hcap, show (7 : BitVec 3).toNat = 7 from rfl] at room
    omega
  | some w' => exact ⟨w', rfl, writeBit_outBits hw, writeBit_counts hw⟩

/-- A unit step that writes a bit takes place where there is room for the bit and for those that follow. -/
theorem StepWrites.writes {i : Instr} {s t : State} {b : Bool} {c : EngineCont} (step : StepWrites i s t b c) {bs : List Bool}
    {m : Nat} (room : outRoom s.ext.params.outCap ((b :: bs).length + m) s.out) :
    ∃ w, exec i s = .next { t with out := w, cont := c } ∧ WritesOn s.out [b] w ∧
      outRoom s.ext.params.outCap (bs.length + m) w := by
  rw [List.length_cons, Nat.add_right_comm] at room
  obtain ⟨w, hw, on⟩ := writeBit_writesOn room b
  exact ⟨w, step.2 w hw, on, on.outRoom (by rwa [List.length_singleton, Nat.add_comm])⟩

/-! ## Reading on (20_memory.md R71, R75) -/

/-- What has been read on leaves the rest. -/
theorem ReadsOn.rest {r r' : BitReader} {bs rest : List Bool} (h : ReadsOn r bs r') (hr : inBits r = bs ++ rest) :
    inBits r' = rest :=
  List.append_cancel_left (h.bits.symm.trans hr)

/-- A unit step that reads takes place where there is a bit. -/
theorem StepReads.reads {i : Instr} {s t : State} {k : ReadRes → EngineCont} (step : StepReads i s t k) {b : Bool}
    {bs : List Bool} (hin : inBits s.inp = b :: bs) :
    ∃ r, exec i s = .next { t with inp := r, cont := k (.bit b) } ∧ inBits r = bs ∧ ReadsOn s.inp [b] r := by
  obtain ⟨r, hread, hbits, on⟩ := readBit_readsOn hin
  exact ⟨r, step.2.2 b r hread, hbits, on⟩

end Sys2Proof.Machine
end

section
/-! SUPPORT. SERIALIZE_TREE (43_tree_codec.md R170, R171): place by place, and over a whole tree. -/

namespace Sys2Proof.Machine

/-! ## The work of SERIALIZE_TREE, place by place (43_tree_codec.md R170) -/

/-- The next unit step of SERIALIZE_TREE visits the node `n`, at first ROOT, above the stack `st`. -/
def SerVisits (s : State) (n : NodeIdx) (st : List NodeIdx) : Prop :=
  s.cont = .start ∧ s.arena.valid = true ∧ n = s.arena.root ∧ st = [] ∨ ∃ v, s.cont = .ser (n :: st) v 0

section SerializeTree
variable {s : State} {n : NodeIdx} {st : List NodeIdx}

theorem workSerializeTree_noTree (hc : s.cont = .start) (hv : s.arena.valid = false) :
    workSerializeTree s = .fail .state 0 s := by
  simp [workSerializeTree, hc, hv]

theorem workSerializeTree_visit (h : SerVisits s n st) : workSerializeTree s = serNext (n :: st) s := by
  rcases h with ⟨hc, hv, rfl, rfl⟩ | ⟨v, hc⟩
  · simp [workSerializeTree, hc, hv]
  · simp [workSerializeTree, hc]

theorem workSerializeTree_leaf (h : SerVisits s n st) {v : Byte} (hn : nodeAt s.arena.nodes n = some (.leaf v)) :
    workSerializeTree s = .write true s (.ser st v 8) := by
  rw [workSerializeTree_visit h, serNext, hn]

theorem workSerializeTree_internal (h : SerVisits s n st) {a b : NodeIdx} {p : Word}
    (hn : nodeAt s.arena.nodes n = some (.internal a b p)) :
    workSerializeTree s = .write false s (.ser (a :: b :: st) 0 0) := by
  rw [workSerializeTree_visit h, serNext, hn]

theorem workSerializeTree_symBit {v : Byte} {k : Nat} (hc : s.cont = .ser st v (k + 1)) :
    workSerializeTree s = .write (v.getLsbD k) s (.ser st v k) := by
  simp [workSerializeTree, hc]

theorem workSerializeTree_done {v : Byte} (hc : s.cont = .ser [] v 0) : workSerializeTree s = .finish s := by
  simp [workSerializeTree, hc, serNext]

end SerializeTree

/-- Settles O25: in each place the work is one of five, and it fails, writes or completes. -/
theorem serializeTreeUnitSteps : Obligations.SerializeTreeUnitSteps := by
  intro s ha
  refine ⟨fun hc hv => ?_, fun n st h => ⟨fun v hn => ?_, fun a b p hn => ?_⟩, fun st v k hc => ?_, fun v hc => ?_⟩
  · exact exec_of_fail .serializeTree ha (workSerializeTree_noTree hc hv)
  · exact stepWrites_of_write ha (workSerializeTree_leaf h hn)
  · exact stepWrites_of_write ha (workSerializeTree_internal h hn)
  · exact stepWrites_of_write ha (workSerializeTree_symBit hc)
  · exact exec_of_finish .serializeTree ha (workSerializeTree_done hc)

/-! ## SERIALIZE_TREE over a whole tree (43_tree_codec.md R170, R171) -/

/-- A tree with L leaves takes 10L − 1 bits (43_tree_codec.md R171). -/
theorem CodeTree.length_preorder (t : CodeTree) : t.preorder.length + 1 = 10 * t.leaves.length := by
  induction t with
  | leaf sym => simp [preorder, leaves]
  | node l r ihl ihr => simp only [preorder, leaves, List.length_cons, List.length_append]; omega

/-- The bits of a leaf's symbol that remain are written. -/
theorem serializeTree_writesSym {s : State} (ha : s.stat.abortReq = false) (st : List NodeIdx) (v : Byte) (m : Nat) :
    ∀ (k : Nat) (w : BitWriter), outRoom s.ext.params.outCap ((bitsOf k v).length + m) w →
      ∃ w', runUnits .serializeTree (bitsOf k v).length { s with out := w, cont := .ser st v k } =
          .next { s with out := w', cont := .ser st v 0 } ∧ WritesOn w (bitsOf k v) w'
  | 0, w, _ => ⟨w, rfl, .refl w⟩
  | k + 1, w, room => by
    obtain ⟨-, -, symBit, -⟩ := serializeTreeUnitSteps { s with out := w, cont := .ser st v (k + 1) } ha
    obtain ⟨w1, step, on, room1⟩ := (symBit st v k rfl).writes room
    obtain ⟨w', run, on'⟩ := serializeTree_writesSym ha st v m k w1 room1
    exact ⟨w', runUnits_succ step run, on.trans on'⟩

/-- From a visit of its root SERIALIZE_TREE writes the bits of a tree and stands at the rest of the stack. -/
theorem serializeTree_writesTree {T : CodeTree} {s : State} {n : NodeIdx} {st ix : List NodeIdx} {m : Nat}
    (ha : s.stat.abortReq = false) (hv : SerVisits s n st) (holds : Holds s.arena.nodes T n ix)
    (room : outRoom s.ext.params.outCap (T.preorder.length + m) s.out) :
    ∃ v w, runUnits .serializeTree T.preorder.length s = .next { s with out := w, cont := .ser st v 0 } ∧
      WritesOn s.out T.preorder w := by
  induction T generalizing s n st ix m with
  | leaf sym =>
    obtain ⟨hn, -⟩ := holds
    obtain ⟨-, visit, -⟩ := serializeTreeUnitSteps s ha
    obtain ⟨w1, step, on1, room1⟩ := ((visit n st hv).1 sym hn).writes room
    obtain ⟨w, run, on⟩ := serializeTree_writesSym ha st sym m 8 w1 room1
    exact ⟨sym, w, runUnits_succ step run, on1.trans on⟩
  | node l r ihl ihr =>
    obtain ⟨a, b, prio, xs, ys, hn, hl, hr, -⟩ := holds
    obtain ⟨-, visit, -⟩ := serializeTreeUnitSteps s ha
    obtain ⟨w1, step, on1, room1⟩ := ((visit n st hv).2 a b prio hn).writes room
    rw [List.length_append, Nat.add_assoc] at room1
    obtain ⟨v2, w2, run2, on2⟩ :=
      ihl (s := { s with out := w1, cont := .ser (a :: b :: st) 0 0 }) ha (.inr ⟨0, rfl⟩) hl room1
    obtain ⟨v3, w3, run3, on3⟩ :=
      ihr (s := { s with out := w2, cont := .ser (b :: st) v2 0 }) ha (.inr ⟨v2, rfl⟩) hr (on2.outRoom room1)
    refine ⟨v3, w3, runUnits_succ step ?_, on1.trans (on2.trans on3)⟩
    rw [List.length_append]
    exact (runUnits_add _ _ _ run2).trans run3

/-- Settles O26: the first visit is ROOT's, and when its tree is written the stack is empty. -/
theorem serializeTreeWritesPreorder : Obligations.SerializeTreeWritesPreorder := by
  rintro s T ix ⟨hc, ha⟩ hv holds room
  obtain ⟨v, w, run, on⟩ := serializeTree_writesTree (m := 0) ha (.inl ⟨hc, hv, rfl, rfl⟩) holds room
  obtain ⟨-, -, -, completes⟩ := serializeTreeUnitSteps { s with out := w, cont := .ser [] v 0 } ha
  exact ⟨T.length_preorder, { complete s with out := w },
    (runUnits_add _ _ 1 run).trans (runUnits_one (completes v rfl)), on.bits, on.count, rfl⟩

end Sys2Proof.Machine
end

section
/-! SUPPORT. DESERIALIZE_TREE place by place (43_tree_codec.md R172, R173). -/

namespace Sys2Proof.Machine

/-! ## The work of DESERIALIZE_TREE, place by place (43_tree_codec.md R172, R173) -/

section DeserializeTree
variable {s : State} {st : List Frame} {n : NodeIdx} {k : Nat} {v : Byte} {first b : Bool}

theorem workDeserializeTree_start (hc : s.cont = .start) :
    workDeserializeTree s = .read { s with arena := Arena.empty } (.desCtl [] true) := by
  simp [workDeserializeTree, hc]

theorem workDeserializeTree_noTree (hc : s.cont = .desCtl st true .exh) :
    workDeserializeTree s = .fail .degenerate 0 (releaseArena s) := by
  simp [workDeserializeTree, hc]

theorem workDeserializeTree_cut (hc : s.cont = .desCtl st false .exh ∨ ∃ n k v, s.cont = .desSym st n k v .exh) :
    workDeserializeTree s = .fail .corrupt (natWord s.arena.nodes.length) (releaseArena s) := by
  rcases hc with hc | ⟨n, k, v, hc⟩ <;> simp [workDeserializeTree, hc]

theorem workDeserializeTree_full (hc : s.cont = .desCtl st first (.bit b)) (hn : s.arena.nodes.length = 511) :
    workDeserializeTree s = .fail .capacity 511 (releaseArena s) := by
  simp [workDeserializeTree, hc, desControl, hn, natWord]

theorem workDeserializeTree_leaf (hc : s.cont = .desCtl st first (.bit true)) (hn : s.arena.nodes.length ≠ 511) :
    workDeserializeTree s = .read { s with arena := { s.arena with nodes := s.arena.nodes ++ [.leaf 0] } }
      (.desSym st (BitVec.ofNat 9 s.arena.nodes.length) 0 0) := by
  simp [workDeserializeTree, hc, desControl, hn, allocNode]

theorem workDeserializeTree_internal (hc : s.cont = .desCtl st first (.bit false)) (hn : s.arena.nodes.length ≠ 511) :
    workDeserializeTree s =
      .read { s with arena := { s.arena with nodes := s.arena.nodes ++ [.internal Config.nilIdx Config.nilIdx 0] } }
        (.desCtl ({ node := BitVec.ofNat 9 s.arena.nodes.length, side := .left } :: st) false) := by
  simp [workDeserializeTree, hc, desControl, hn, allocNode]

theorem workDeserializeTree_symBit (hk : k < 7) (hc : s.cont = .desSym st n k v (.bit b)) :
    workDeserializeTree s = .read s (.desSym st n (k + 1) (shiftIn v b)) := by
  simp [workDeserializeTree, hc, hk.ne]

theorem workDeserializeTree_symEnd (hc : s.cont = .desSym st n 7 v (.bit b)) :
    workDeserializeTree s =
      deliver n st { s with arena := { s.arena with nodes := setSym s.arena.nodes n (shiftIn v b) } } := by
  simp [workDeserializeTree, hc]

end DeserializeTree

/-! ## The delivery of a complete subtree (43_tree_codec.md R172) -/

/-- With no node that waits the subtree is the whole tree. -/
theorem deliver_root (n : NodeIdx) (s : State) :
    deliver n [] s = .finish { s with arena := { s.arena with root := n, valid := true } } := rfl

/-- A node that waits for its left child gets it and waits for its right one, whose control bit is read next. -/
theorem deliver_left {f : Frame} (hf : f.side = .left) (n : NodeIdx) (st : List Frame) (s : State) :
    deliver n (f :: st) s =
      .read { s with arena := { s.arena with nodes := setChild s.arena.nodes f.node .left n } }
        (.desCtl ({ f with side := .right } :: st) false) := by
  rw [deliver, hf]

/-- A node that waits for its right child gets it and is delivered itself. -/
theorem deliver_right {f : Frame} (hf : f.side = .right) (n : NodeIdx) (st : List Frame) (s : State) :
    deliver n (f :: st) s =
      deliver f.node st { s with arena := { s.arena with nodes := setChild s.arena.nodes f.node .right n } } := by
  rw [deliver, hf]

/-- The subtree at the first component becomes the right child of the node of `g`, which is then complete. -/
def closeRight (p : NodeIdx × List Node) (g : Frame) : NodeIdx × List Node := (g.node, setChild p.2 g.node .right p.1)

/-- A delivery closes the nodes that wait for their right child, and goes on with the others. -/
theorem deliver_closesRight (st : List Frame) :
    ∀ (rs : List Frame) (n : NodeIdx) (s : State), (∀ g ∈ rs, g.side = .right) →
      deliver n (rs ++ st) s =
        deliver (rs.foldl closeRight (n, s.arena.nodes)).1 st
          { s with arena := { s.arena with nodes := (rs.foldl closeRight (n, s.arena.nodes)).2 } }
  | [], _, _, _ => rfl
  | g :: rs, n, s, h => by
    obtain ⟨hg, hrs⟩ := List.forall_mem_cons.1 h
    rw [List.cons_append, deliver_right hg]
    exact deliver_closesRight st rs g.node _ hrs

/-- The last bit of a symbol completes a leaf and all the nodes that wait for it as their right child. -/
theorem workDeserializeTree_delivers {s : State} {rs st : List Frame} {n : NodeIdx} {v : Byte} {b : Bool}
    {q : NodeIdx × List Node} (hrs : ∀ g ∈ rs, g.side = .right)
    (hq : q = rs.foldl closeRight (n, setSym s.arena.nodes n (shiftIn v b)))
    (hc : s.cont = .desSym (rs ++ st) n 7 v (.bit b)) :
    workDeserializeTree s = deliver q.1 st { s with arena := { s.arena with nodes := q.2 } } := by
  rw [workDeserializeTree_symEnd hc, deliver_closesRight st rs n _ hrs, hq]

/-- Settles O27: in each place the work is one of eight, and it reads, fails or completes; a delivery closes the frames that
wait for a right child. -/
theorem deserializeTreeUnitSteps : Obligations.DeserializeTreeUnitSteps := by
  intro s ha
  refine ⟨fun hc => ?_, fun st hc => ?_, fun st hc => ?_, fun st n k v hc => ?_, fun st first b hc hn => ?_,
    fun st first hc hn => ?_, fun st first hc hn => ?_, fun st n k v b hk hc => ?_, fun rs n v b q hrs hq => ?_⟩
  · exact stepReads_of_read ha (workDeserializeTree_start hc)
  · exact exec_of_fail .deserializeTree ha (workDeserializeTree_noTree hc)
  · exact exec_of_fail .deserializeTree ha (workDeserializeTree_cut (.inl hc))
  · exact exec_of_fail .deserializeTree ha (workDeserializeTree_cut (.inr ⟨n, k, v, hc⟩))
  · exact exec_of_fail .deserializeTree ha (workDeserializeTree_full hc hn)
  · exact stepReads_of_read ha (workDeserializeTree_leaf hc hn)
  · exact stepReads_of_read ha (workDeserializeTree_internal hc hn)
  · exact stepReads_of_read ha (workDeserializeTree_symBit hk hc)
  · refine ⟨fun hc => ?_, fun f st hf hc => stepReads_of_read ha ?_⟩
    · rw [← List.append_nil rs] at hc
      exact exec_of_finish .deserializeTree ha ((workDeserializeTree_delivers hrs hq hc).trans (deliver_root q.1 _))
    · exact (workDeserializeTree_delivers hrs hq hc).trans (deliver_left hf q.1 st _)

end Sys2Proof.Machine
end

section
/-! SUPPORT. DESERIALIZE_TREE over the bits of a whole tree (43_tree_codec.md R172, R175). -/

namespace Sys2Proof.Machine

/-! ## The nodes of a tree in preorder (43_tree_codec.md R172, R175) -/

/-- The nodes of a tree in preorder, the first at index `k`, internal PRIO being 0. -/
def CodeTree.nodesFrom : CodeTree → Nat → List Node
  | .leaf sym, _ => [.leaf sym]
  | .node l r, k =>
    .internal (BitVec.ofNat 9 (k + 1)) (BitVec.ofNat 9 (k + 1 + l.size)) 0 ::
      (l.nodesFrom (k + 1) ++ r.nodesFrom (k + 1 + l.size))

@[simp] theorem CodeTree.length_nodesFrom (t : CodeTree) (k : Nat) : (t.nodesFrom k).length = t.size := by
  induction t generalizing k with
  | leaf sym => rfl
  | node l r ihl ihr => simp [nodesFrom, size, ihl, ihr]

theorem CodeTree.prio_nodesFrom (t : CodeTree) (k : Nat) {a b : NodeIdx} {p : Word} (h : .internal a b p ∈ t.nodesFrom k) :
    p = 0 := by
  induction t generalizing k with
  | leaf sym => simp [nodesFrom] at h
  | node l r ihl ihr =>
    rcases List.mem_cons.1 h with h | h
    · cases h
      rfl
    · exact (List.mem_append.1 h).elim (ihl _) (ihr _)

section Behind
variable {ns : List Node} {k : Nat} (hk : ns.length = k) (h : k < 512) (l : List Node)
include hk h

/-- The node behind `ns`, further nodes following. -/
theorem nodeAt_behind (n : Node) : nodeAt (ns ++ n :: l) (BitVec.ofNat 9 k) = some n := by
  subst hk
  rw [List.append_cons]
  exact nodeAt_append (nodeAt_allocNode n h) l

/-- Replacing that node. -/
theorem set_behind (n m : Node) : (ns ++ n :: l).set (BitVec.ofNat 9 k).toNat m = ns ++ m :: l := by
  subst hk
  rw [BitVec.toNat_ofNat, Nat.mod_eq_of_lt h, List.set_append_right _ _ le_rfl, Nat.sub_self, List.set_cons_zero]

theorem setSym_behind (n : Node) (v : Byte) : setSym (ns ++ n :: l) (BitVec.ofNat 9 k) v = ns ++ .leaf v :: l :=
  set_behind hk h l n _

theorem setChild_left_behind (a b n : NodeIdx) (p : Word) :
    setChild (ns ++ .internal a b p :: l) (BitVec.ofNat 9 k) .left n = ns ++ .internal n b p :: l := by
  rw [setChild_left (nodeAt_behind hk h l _), set_behind hk h]

theorem setChild_right_behind (a b n : NodeIdx) (p : Word) :
    setChild (ns ++ .internal a b p :: l) (BitVec.ofNat 9 k) .right n = ns ++ .internal a n p :: l := by
  rw [setChild_right (nodeAt_behind hk h l _), set_behind hk h]

end Behind

/-- The indices of a node and of the two subtrees behind it. -/
theorem range'_node (k m n : Nat) :
    List.range' k (m + n + 1) = k :: (List.range' (k + 1) m ++ List.range' (k + 1 + m) n) := by
  rw [List.range'_append_1, List.range'_succ]

/-- Nodes in preorder behind `ns` are the tree. -/
theorem holds_nodesFrom {t : CodeTree} {ns : List Node} {k : Nat} (hk : ns.length = k) (h : k + t.size ≤ 512) :
    Holds (ns ++ t.nodesFrom k) t (BitVec.ofNat 9 k) ((List.range' k t.size).map (BitVec.ofNat 9)) := by
  induction t generalizing ns k with
  | leaf sym => exact ⟨nodeAt_behind hk h [] _, rfl⟩
  | node l r ihl ihr =>
    rw [CodeTree.size] at h
    refine ⟨BitVec.ofNat 9 (k + 1), BitVec.ofNat 9 (k + 1 + l.size), 0, (List.range' (k + 1) l.size).map (BitVec.ofNat 9),
      (List.range' (k + 1 + l.size) r.size).map (BitVec.ofNat 9), ?_, ?_, ?_, ?_⟩
    · exact nodeAt_behind hk (by omega) _ _
    · have hl := ihl (ns := ns ++ [.internal (BitVec.ofNat 9 (k + 1)) (BitVec.ofNat 9 (k + 1 + l.size)) 0]) (k := k + 1)
        (by simp [hk]) (by omega)
      simpa [CodeTree.nodesFrom] using hl.append (r.nodesFrom (k + 1 + l.size))
    · simpa [CodeTree.nodesFrom] using
        ihr (ns := ns ++ .internal (BitVec.ofNat 9 (k + 1)) (BitVec.ofNat 9 (k + 1 + l.size)) 0 :: l.nodesFrom (k + 1))
          (k := k + 1 + l.size) (by simp; omega) (by omega)
    · rw [CodeTree.size, range'_node, List.map_cons, List.map_append]

/-! ## DESERIALIZE_TREE over a whole tree (43_tree_codec.md R172, R175) -/

/-- DESERIALIZE_TREE stands at `c`, the nodes being `ns` and the reader `r`; the rest is as in `t`. -/
def building (t : State) (ns : List Node) (r : BitReader) (c : EngineCont) : State :=
  { t with arena := { t.arena with nodes := ns }, inp := r, cont := c }

section Building
variable {t : State} {ns : List Node} {k : Nat} {st : List Frame}

/-- Where it reads the bits of a symbol into a new leaf, DESERIALIZE_TREE reads the seven that follow the first. -/
theorem building_readsSym (ha : t.stat.abortReq = false) (n : NodeIdx) (rest : List Bool) :
    ∀ (bs : List Bool) (j : Nat) (v : Byte) (b : Bool) (r : BitReader), j + bs.length = 7 → inBits r = bs ++ rest →
      ∃ (v' : Byte) (b' : Bool) (r' : BitReader),
        runUnits .deserializeTree bs.length (building t ns r (.desSym st n j v (.bit b))) =
            .next (building t ns r' (.desSym st n 7 v' (.bit b'))) ∧
          shiftIn v' b' = (b :: bs).foldl shiftIn v ∧ ReadsOn r bs r'
  | [], j, v, b, r, hj, _ => by
    obtain rfl : j = 7 := hj
    exact ⟨v, b, r, rfl, rfl, .refl r⟩
  | c :: bs, j, v, b, r, hj, hr => by
    rw [List.length_cons] at hj
    obtain ⟨-, -, -, -, -, -, -, symBit, -⟩ := deserializeTreeUnitSteps (building t ns r (.desSym st n j v (.bit b))) ha
    obtain ⟨r1, step, hbits, on⟩ := (symBit st n j v b (by omega) rfl).reads hr
    obtain ⟨v', b', r', run, hv, on'⟩ := building_readsSym ha n rest bs (j + 1) (shiftIn v b) c r1 (by omega) hbits
    exact ⟨v', b', r', runUnits_succ step run, hv, on.trans on'⟩

/-- The control bit 1 allocates a leaf behind the nodes, whose symbol is read next. -/
theorem building_leaf (ha : t.stat.abortReq = false) (hk : ns.length = k) (hn : k < 511) (first : Bool) (r : BitReader) :
    StepReads .deserializeTree (building t ns r (.desCtl st first (.bit true)))
      (building t (ns ++ [.leaf 0]) r (.desCtl st first (.bit true))) (.desSym st (BitVec.ofNat 9 k) 0 0) := by
  subst hk
  obtain ⟨-, -, -, -, -, leaf, -⟩ := deserializeTreeUnitSteps (building t ns r (.desCtl st first (.bit true))) ha
  exact leaf st first rfl hn.ne

/-- The control bit 0 allocates an internal node behind the nodes, which waits for its left child. -/
theorem building_internal (ha : t.stat.abortReq = false) (hk : ns.length = k) (hn : k < 511) (first : Bool) (r : BitReader) :
    StepReads .deserializeTree (building t ns r (.desCtl st first (.bit false)))
      (building t (ns ++ [.internal Config.nilIdx Config.nilIdx 0]) r (.desCtl st first (.bit false)))
      (.desCtl ({ node := BitVec.ofNat 9 k, side := .left } :: st) false) := by
  subst hk
  obtain ⟨-, -, -, -, -, -, internal, -⟩ := deserializeTreeUnitSteps (building t ns r (.desCtl st first (.bit false))) ha
  exact internal st first rfl hn.ne

/-- The last bit of the symbol of the leaf behind the nodes completes it. -/
theorem building_symEnd (hk : ns.length = k) (hn : k < 512) (r : BitReader) (v : Byte) (b : Bool) :
    workDeserializeTree (building t (ns ++ [.leaf 0]) r (.desSym st (BitVec.ofNat 9 k) 7 v (.bit b))) =
      deliver (BitVec.ofNat 9 k) st
        (building t (ns ++ [.leaf (shiftIn v b)]) r (.desSym st (BitVec.ofNat 9 k) 7 v (.bit b))) :=
  (workDeserializeTree_symEnd rfl).trans
    (congrArg (fun ms => deliver _ st (building t ms r _)) (setSym_behind hk hn [] _ _))

/-- A subtree is delivered to the node behind `ns` that waits for its left child. -/
theorem building_delivers_left (hk : ns.length = k) (hn : k < 512) (l : List Node) (a b n : NodeIdx) (p : Word)
    (r : BitReader) (c : EngineCont) :
    deliver n ({ node := BitVec.ofNat 9 k, side := .left } :: st) (building t (ns ++ .internal a b p :: l) r c) =
      .read (building t (ns ++ .internal n b p :: l) r c)
        (.desCtl ({ node := BitVec.ofNat 9 k, side := .right } :: st) false) :=
  (deliver_left rfl n st _).trans
    (congrArg (fun ms => Work.read (building t ms r c) _) (setChild_left_behind hk hn l a b n p))

/-- A subtree is delivered to the node behind `ns` that waits for its right child, and with it that node. -/
theorem building_delivers_right (hk : ns.length = k) (hn : k < 512) (l : List Node) (a b n : NodeIdx) (p : Word)
    (r : BitReader) (c : EngineCont) :
    deliver n ({ node := BitVec.ofNat 9 k, side := .right } :: st) (building t (ns ++ .internal a b p :: l) r c) =
      deliver (BitVec.ofNat 9 k) st (building t (ns ++ .internal a n p :: l) r c) :=
  (deliver_right rfl n st _).trans
    (congrArg (fun ms => deliver _ st (building t ms r c)) (setChild_right_behind hk hn l a b n p))

end Building

/-- From where it reads a control bit DESERIALIZE_TREE reads the bits of a tree, allocating its nodes in preorder behind those
there are, and its next unit step delivers the tree. -/
theorem building_readsTree {T : CodeTree} {s t : State} {ns : List Node} {k : Nat} {inp : BitReader} {c : EngineCont}
    {st : List Frame} {first : Bool} {rest : List Bool}
    (step : StepReads .deserializeTree s (building t ns inp c) (.desCtl st first)) (ha : t.stat.abortReq = false)
    (hin : inBits s.inp = T.preorder ++ rest) (hk : ns.length = k) (hn : k + T.size ≤ 511) :
    ∃ ms r' c', runUnits .deserializeTree T.preorder.length s = .next (building t ms r' c') ∧
      ReadsOn s.inp T.preorder r' ∧
        workDeserializeTree (building t ms r' c') =
          deliver (BitVec.ofNat 9 k) st (building t (ns ++ T.nodesFrom k) r' c') := by
  induction T generalizing s ns k inp c st first rest with
  | leaf sym =>
    rw [CodeTree.size] at hn
    obtain ⟨r1, ctl, hin1, on1⟩ := step.reads hin
    obtain ⟨r2, sym7, hin2, on2⟩ := (building_leaf ha hk hn first r1).reads (bs := bitsOf 7 sym ++ rest) hin1
    obtain ⟨v, b, r3, run, hv, on3⟩ :=
      building_readsSym (st := st) ha (BitVec.ofNat 9 k) rest (bitsOf 7 sym) 0 0 (sym.getLsbD 7) r2 rfl hin2
    obtain rfl : shiftIn v b = sym := hv.trans (ofBits_bitsOf sym)
    exact ⟨_, r3, _, runUnits_succ ctl (runUnits_succ sym7 run), on1.trans (on2.trans on3),
      building_symEnd hk (by omega) r3 v b⟩
  | node l r ihl ihr =>
    rw [CodeTree.size] at hn
    have hn' : k < 512 := by omega
    obtain ⟨r1, ctl, hin1, on1⟩ := step.reads hin
    replace hin1 := hin1.trans (List.append_assoc ..)
    obtain ⟨ms2, r2, c2, run2, on2, work2⟩ :=
      ihl (building_internal (st := st) ha hk (by omega) first r1) hin1 (k := k + 1) (by simp [hk]) (by omega)
    rw [← List.append_cons, building_delivers_left hk hn'] at work2
    have step2 := stepReads_of_read (i := .deserializeTree) (s := building t ms2 r2 c2) ha work2
    obtain ⟨ms3, r3, c3, run3, on3, work3⟩ :=
      ihr step2 (on2.rest hin1) (k := k + 1 + l.size) (by simp [hk]; omega) (by omega)
    rw [List.append_assoc, List.cons_append, building_delivers_right hk hn'] at work3
    refine ⟨ms3, r3, c3, runUnits_succ ctl ?_, on1.trans (on2.trans on3), work3⟩
    rw [List.length_append]
    exact (runUnits_add _ _ _ run2).trans run3

/-- Settles O28: the first unit step empties the arena, and the whole tree is delivered to an empty stack. -/
theorem deserializeTreeRebuildsTheTree : Obligations.DeserializeTreeRebuildsTheTree := by
  rintro s T rest ⟨hc, ha⟩ hin - hsize
  have step : StepReads .deserializeTree s (building { s with arena := Arena.empty } [] s.inp s.cont) (.desCtl [] true) :=
    stepReads_of_read ha (workDeserializeTree_start hc)
  obtain ⟨ms, r, c, run, on, work⟩ := building_readsTree (k := 0) step ha hin rfl (by omega)
  have last := exec_of_finish .deserializeTree (s := building { s with arena := Arena.empty } ms r c) ha
    (work.trans (deliver_root _ _))
  have holds := holds_nodesFrom (t := T) (ns := []) (k := 0) rfl (by omega)
  rw [List.range_eq_range']
  exact ⟨_, (runUnits_add _ _ 1 run).trans (runUnits_one last), holds, T.length_nodesFrom 0, rfl, rfl,
    fun _ _ _ => T.prio_nodesFrom 0, on.rest hin, on.count, rfl⟩

end Sys2Proof.Machine
end

section
/-! SUPPORT. Fields of several bits, one bit to a unit step (20_memory.md R72, R74, R91): what a command that writes or reads
the bits of a value does over all of them. -/

namespace Sys2Proof.Machine

/-- Where a unit step writes the top bit of the low `k + 1` bits of `x`, and each later one the next bit, `c j` being the place
with `j` bits to go, the command writes these bits. -/
theorem StepWrites.writesField {i : Instr} {s t : State} {n : Nat} {x : BitVec n} {c : Nat → EngineCont} {k m : Nat}
    (step : StepWrites i s t (x.getLsbD k) (c k)) (hext : t.ext = s.ext)
    (next : ∀ j w,
      StepWrites i { t with out := w, cont := c (j + 1) } { t with out := w, cont := c (j + 1) } (x.getLsbD j) (c j))
    (room : outRoom s.ext.params.outCap ((bitsOf (k + 1) x).length + m) s.out) :
    ∃ w, runUnits i (bitsOf (k + 1) x).length s = .next { t with out := w, cont := c 0 } ∧
      WritesOn s.out (bitsOf (k + 1) x) w := by
  induction k generalizing s with
  | zero =>
    obtain ⟨w, run, on, -⟩ := step.writes room
    exact ⟨w, runUnits_one run, on⟩
  | succ k ih =>
    obtain ⟨w1, run1, on1, room1⟩ := step.writes room
    rw [← hext] at room1
    obtain ⟨w, run, on⟩ := ih (s := { t with out := w1, cont := c (k + 1) }) (next k w1) rfl room1
    exact ⟨w, runUnits_succ run1 run, on1.trans on⟩

/-- Where a unit step reads a bit into the value `v`, and each later one up to the `l`-th the next bit, `c k v` being the place
with `k` bits read before and the value `v` of these, the command reads the bits that are next in the input. -/
theorem StepReads.readsField {i : Instr} {s t : State} {n l k : Nat} {v : BitVec n} {b : Bool} {bs rest : List Bool}
    {c : Nat → BitVec n → ReadRes → EngineCont} (step : StepReads i s { t with inp := s.inp } (c k v))
    (next : ∀ k v b r, k < l →
      StepReads i { t with inp := r, cont := c k v (.bit b) } { t with inp := r, cont := c k v (.bit b) }
        (c (k + 1) (shiftIn v b)))
    (hl : k + bs.length = l) (hin : inBits s.inp = b :: (bs ++ rest)) :
    ∃ (v' : BitVec n) (b' : Bool) (r : BitReader),
      runUnits i (bs.length + 1) s = .next { t with inp := r, cont := c l v' (.bit b') } ∧
        shiftIn v' b' = (b :: bs).foldl shiftIn v ∧ ReadsOn s.inp (b :: bs) r := by
  induction bs generalizing s k v b with
  | nil =>
    obtain rfl : k = l := hl
    obtain ⟨r, run, -, on⟩ := step.reads hin
    exact ⟨v, b, r, runUnits_one run, rfl, on⟩
  | cons d bs ih =>
    rw [List.length_cons] at hl
    obtain ⟨r1, run1, hin1, on1⟩ := step.reads hin
    obtain ⟨v', b', r, run, hv, on⟩ := ih (next k v b r1 (by omega)) (by omega) hin1
    exact ⟨v', b', r, runUnits_succ run1 run, hv, on1.trans on⟩

/-- Eight bits read make the byte whose bits they are (20_memory.md R76). -/
theorem StepReads.readsByte {i : Instr} {s t : State} {x : Byte} {rest : List Bool}
    {c : Nat → Byte → ReadRes → EngineCont}
    (step : StepReads i s { t with inp := s.inp } (c 0 0))
    (next : ∀ k v b r, k < 7 →
      StepReads i { t with inp := r, cont := c k v (.bit b) } { t with inp := r, cont := c k v (.bit b) }
        (c (k + 1) (shiftIn v b)))
    (hin : inBits s.inp = bitsOf 8 x ++ rest) :
    ∃ (v : Byte) (b : Bool) (r : BitReader),
      runUnits i 8 s = .next { t with inp := r, cont := c 7 v (.bit b) } ∧ shiftIn v b = x ∧
        ReadsOn s.inp (bitsOf 8 x) r := by
  obtain ⟨v, b, r, run, hv, on⟩ := step.readsField (bs := bitsOf 7 x) next rfl hin
  exact ⟨v, b, r, run, hv.trans (ofBits_bitsOf x), on⟩

/-- A unit step that reads finds a terminated input without a bit exhausted (20_memory.md R71). -/
theorem StepReads.exhausted {i : Instr} {s t : State} {k : ReadRes → EngineCont} (step : StepReads i s t k)
    (hin : inBits s.inp = []) (heos : s.inp.eos = true) : exec i s = .next { t with cont := k .exh } := by
  obtain ⟨hcnt, hfifo⟩ := (inBits_eq_nil_iff _).1 hin
  exact step.2.1 ((readBit_exh_iff _).2 ⟨hcnt, hfifo, heos⟩)

end Sys2Proof.Machine
end

section
/-! SUPPORT. The stream encoder (44_stream_codec.md R180 to R182): place by place, and over a whole code and a whole input. -/

namespace Sys2Proof.Machine

/-! ## The work of the encoder, place by place (44_stream_codec.md R180 to R182) -/

theorem emitStart_noCode {s : State} {v : Byte} (hlen : symGet s.codes.len v = 0) :
    emitStart v s = .fail .noCode (symWord v) s := by
  rw [emitStart, hlen]
  rfl

theorem emitStart_code {s : State} {v : Byte} {k : Nat} (hlen : (symGet s.codes.len v).toNat = k + 1) :
    emitStart v s = .write ((symGet s.codes.bits v).getLsbD k) s (.emit v k) := by
  rw [emitStart, hlen, emitNext]

section Encoder
variable {s : State} {u v : Byte} {b : Bool} {k : Nat}

/-- Within a code both commands write its next bit. -/
theorem workOf_emit {i : Instr} (hi : i = .encodeSym u ∨ i = .encodeEos) (hc : s.cont = .emit v (k + 1)) :
    workOf i s = .write ((symGet s.codes.bits v).getLsbD k) s (.emit v k) := by
  rcases hi with rfl | rfl
  · simp only [workOf, workEncodeSym, hc, emitNext]
  · simp only [workOf, workEncodeEos, hc, emitNext]

theorem workOf_encodeSym_noTable (hc : s.cont = .start) (hv : s.codes.valid = false) :
    workOf (.encodeSym v) s = .fail .state 0 { s with symcnt := 0 } := by
  simp [workOf, workEncodeSym, hc, hv]

theorem workOf_encodeSym_start (hc : s.cont = .start) (hv : s.codes.valid = true) :
    workOf (.encodeSym v) s = emitStart v { s with symcnt := 0 } := by
  simp [workOf, workEncodeSym, hc, hv]

theorem workOf_encodeSym_done (hc : s.cont = .emit v 0) : workOf (.encodeSym u) s = .finish { s with symcnt := 1 } := by
  simp [workOf, workEncodeSym, hc, emitNext]

theorem workOf_encodeEos_noTable (hc : s.cont = .start) (hv : s.codes.valid = false) :
    workOf .encodeEos s = .fail .state 0 { s with symcnt := 0 } := by
  simp [workOf, workEncodeEos, hc, hv]

theorem workOf_encodeEos_start (hc : s.cont = .start) (hv : s.codes.valid = true) :
    workOf .encodeEos s = .read { s with symcnt := 0 } (.rawByte 0 0) := by
  simp [workOf, workEncodeEos, hc, hv]

theorem workOf_encodeEos_more (hk : k < 7) (hc : s.cont = .rawByte k v (.bit b)) :
    workOf .encodeEos s = .read s (.rawByte (k + 1) (shiftIn v b)) := by
  simp [workOf, workEncodeEos, hc, rawByte_bit_more hk]

theorem workOf_encodeEos_byte (hc : s.cont = .rawByte 7 v (.bit b)) : workOf .encodeEos s = emitStart (shiftIn v b) s := by
  simp only [workOf, workEncodeEos, hc, rawByte_bit_byte]

theorem workOf_encodeEos_next (hc : s.cont = .emit v 0) :
    workOf .encodeEos s = .read { s with symcnt := s.symcnt + 1 } (.rawByte 0 0) := by
  simp [workOf, workEncodeEos, hc, emitNext]

theorem workOf_encodeEos_ended (hc : s.cont = .rawByte 0 v .exh) : workOf .encodeEos s = .finish s := by
  simp [workOf, workEncodeEos, hc, rawByte]

theorem workOf_encodeEos_cut (hk : 0 < k) (hc : s.cont = .rawByte k v .exh) :
    workOf .encodeEos s = .fail .corrupt (natWord k) s := by
  simp [workOf, workEncodeEos, hc, rawByte, hk.ne']

end Encoder

/-- Settles O29: in each place the work is one of four, and it fails, writes or completes. -/
theorem encodeSymUnitSteps : Obligations.EncodeSymUnitSteps := by
  intro v s ha
  refine ⟨fun hc hv => ?_, fun hc hv hlen => ?_, fun k hc hv hlen => ?_, fun k hc => ?_, fun hc => ?_⟩
  · exact exec_of_fail (.encodeSym v) ha (workOf_encodeSym_noTable hc hv)
  · exact exec_of_fail (.encodeSym v) ha ((workOf_encodeSym_start hc hv).trans (emitStart_noCode hlen))
  · exact stepWrites_of_write ha ((workOf_encodeSym_start hc hv).trans (emitStart_code hlen))
  · exact stepWrites_of_write ha (workOf_emit (.inl rfl) hc)
  · exact exec_of_finish (.encodeSym v) ha (workOf_encodeSym_done hc)

/-- Settles O31: in each place the work is one of eight, and it fails, reads, writes or completes. -/
theorem encodeEosUnitSteps : Obligations.EncodeEosUnitSteps := by
  intro s ha
  refine ⟨fun hc hv => ?_, fun hc hv => ?_, fun k v b hk hc => ?_, fun v b hc hlen => ?_, fun v b k hc hlen => ?_,
    fun v k hc => ?_, fun v hc => ?_, fun v hc => ?_, fun k v hk hc => ?_⟩
  · exact exec_of_fail .encodeEos ha (workOf_encodeEos_noTable hc hv)
  · exact stepReads_of_read ha (workOf_encodeEos_start hc hv)
  · exact stepReads_of_read ha (workOf_encodeEos_more hk hc)
  · exact exec_of_fail .encodeEos ha ((workOf_encodeEos_byte hc).trans (emitStart_noCode hlen))
  · exact stepWrites_of_write ha ((workOf_encodeEos_byte hc).trans (emitStart_code hlen))
  · exact stepWrites_of_write ha (workOf_emit (u := v) (.inr rfl) hc)
  · exact stepReads_of_read ha (workOf_encodeEos_next hc)
  · exact exec_of_finish .encodeEos ha (workOf_encodeEos_ended hc)
  · exact exec_of_fail .encodeEos ha (workOf_encodeEos_cut hk hc)

/-! ## The encoder over a whole code (44_stream_codec.md R182) -/

/-- The code of a symbol, root edge first: the low CODE_LEN bits of CODE_BITS (10_state.md R32). -/
def CodeTable.codeOf (t : CodeTable) (v : Byte) : List Bool := bitsOf (symGet t.len v).toNat (symGet t.bits v)

@[simp] theorem CodeTable.length_codeOf (t : CodeTable) (v : Byte) : (t.codeOf v).length = (symGet t.len v).toNat :=
  bitsOf_length _ _

/-- Where the work of a unit step is EmitCode from its start, the command writes the whole code. -/
theorem encode_writesCode {i : Instr} {s t : State} {u v : Byte} {m : Nat} (hi : i = .encodeSym u ∨ i = .encodeEos)
    (work : workOf i s = emitStart v t) (hs : s.stat.abortReq = false) (ht : t.stat.abortReq = false) (hext : t.ext = s.ext)
    (hlen : symGet t.codes.len v ≠ 0) (room : outRoom s.ext.params.outCap ((t.codes.codeOf v).length + m) s.out) :
    ∃ w, runUnits i (t.codes.codeOf v).length s = .next { t with out := w, cont := .emit v 0 } ∧
      WritesOn s.out (t.codes.codeOf v) w := by
  obtain ⟨k, hk⟩ : ∃ k, (symGet t.codes.len v).toNat = k + 1 :=
    Nat.exists_eq_succ_of_ne_zero fun h => hlen (BitVec.eq_of_toNat_eq h)
  rw [CodeTable.codeOf, hk] at room ⊢
  have step := stepWrites_of_write hs (work.trans (emitStart_code hk))
  exact step.writesField hext (fun _ _ => stepWrites_of_write ht (workOf_emit hi rfl)) room

/-- Settles O30: the code is written from its start, and the step after its last bit completes. -/
theorem encodeSymWritesTheCode : Obligations.EncodeSymWritesTheCode := by
  rintro v s _ ⟨hc, ha⟩ hv rfl hpos room
  have hcode : symGet s.codes.len v ≠ 0 := fun h => by simp [h] at hpos
  have hlen := s.codes.length_codeOf v
  rw [← hlen] at room
  obtain ⟨w, run, on⟩ := encode_writesCode (m := 0) (.inl rfl) (workOf_encodeSym_start hc hv) ha ha rfl hcode room
  have last := exec_of_finish (.encodeSym v) (s := { s with symcnt := 0, out := w, cont := .emit v 0 }) ha
    (workOf_encodeSym_done rfl)
  refine ⟨{ complete s with out := w, symcnt := 1 }, ?_, on.bits, ?_, rfl⟩ <;> rw [← hlen]
  · exact (runUnits_add _ _ 1 run).trans (runUnits_one last)
  · exact on.count

/-! ## ENCODE_EOS over a whole input (44_stream_codec.md R181) -/

/-- Where ENCODE_EOS begins a byte, SYMCNT being `n` then, it writes the codes of the bytes of a terminated input and counts
these. -/
theorem encodeEos_encodesOn (bytes : List Byte) {s : State} {n : Word} {m : Nat}
    (step : StepReads .encodeEos s { s with symcnt := n } (.rawByte 0 0)) (ha : s.stat.abortReq = false)
    (hin : inBits s.inp = bytesBits bytes) (heos : s.inp.eos = true) (hlen : ∀ v ∈ bytes, symGet s.codes.len v ≠ 0)
    (room : outRoom s.ext.params.outCap ((bytes.flatMap s.codes.codeOf).length + m) s.out) :
    ∃ (k : Nat) (r : BitReader) (w : BitWriter),
      runUnits .encodeEos k s =
          .next { complete s with inp := r, out := w, symcnt := n + BitVec.ofNat 32 bytes.length } ∧
        ReadsOn s.inp (bytesBits bytes) r ∧ inBits r = [] ∧ WritesOn s.out (bytes.flatMap s.codes.codeOf) w := by
  induction bytes generalizing s n with
  | nil =>
    have last := exec_of_finish .encodeEos (s := { s with symcnt := n, cont := .rawByte 0 0 .exh }) ha
      (workOf_encodeEos_ended rfl)
    rw [List.length_nil, BitVec.add_zero]
    exact ⟨2, s.inp, s.out, runUnits_succ (step.exhausted hin heos) (runUnits_one last), .refl _, hin, .refl _⟩
  | cons x bytes ih =>
    rw [List.flatMap_cons, List.length_append, Nat.add_assoc] at room
    obtain ⟨hx, hlen⟩ := List.forall_mem_cons.1 hlen
    obtain ⟨v, b, r1, run1, hv, on1⟩ := step.readsByte (t := { s with symcnt := n })
      (fun _ _ _ _ hk => stepReads_of_read ha (workOf_encodeEos_more hk rfl)) hin
    have work := workOf_encodeEos_byte (s := { s with symcnt := n, inp := r1, cont := .rawByte 7 v (.bit b) }) rfl
    rw [hv] at work
    obtain ⟨w1, run2, won1⟩ := encode_writesCode (u := x) (.inr rfl) work ha ha rfl hx room
    have again := stepReads_of_read (i := .encodeEos)
      (s := { s with symcnt := n, inp := r1, out := w1, cont := .emit x 0 }) ha (workOf_encodeEos_next rfl)
    obtain ⟨k, r, w, run, on, hend, won⟩ :=
      ih again ha (on1.rest hin) (on1.eos.trans heos) hlen (won1.outRoom room)
    refine ⟨8 + ((s.codes.codeOf x).length + k), r, w, ?_, on1.trans on, hend, won1.trans won⟩
    rw [runUnits_add _ _ _ run1, runUnits_add _ _ _ run2, run, List.length_cons, Nat.add_comm bytes.length, BitVec.ofNat_add,
      ← BitVec.add_assoc]
    rfl

/-- Settles O32: the loop of ENCODE_EOS begins with SYMCNT at 0. -/
theorem encodeEosEncodesItsInput : Obligations.EncodeEosEncodesItsInput := by
  rintro s bytes ⟨hc, ha⟩ hv hin - heos hlen room
  have hroom : (bytes.flatMap s.codes.codeOf).length = (bytes.map fun v => (symGet s.codes.len v).toNat).sum := by
    simp [List.length_flatMap]
  obtain ⟨k, r, w, run, on, hend, won⟩ := encodeEos_encodesOn bytes (m := 0)
    (stepReads_of_read ha (workOf_encodeEos_start hc hv)) ha hin heos hlen (by rwa [hroom])
  refine ⟨k, _, run, won.bits, BitVec.zero_add _, hend, ?_, rfl⟩
  rw [← bytesBits_length]
  exact on.count

end Sys2Proof.Machine
end

section
/-! SUPPORT. The tree-walk decoder place by place (44_stream_codec.md R183 to R186). -/

namespace Sys2Proof.Machine

/-! ## One edge (44_stream_codec.md R183) -/

theorem walkStep_badBit {ns : List Node} {n : NodeIdx} {v : Byte} (hn : nodeAt ns n = some (.leaf v)) :
    walkStep ns n (.bit true) = .badBit := by
  simp [walkStep, hn]

theorem walkStep_exhausted {ns : List Node} {n : NodeIdx} {nd : Node} (hn : nodeAt ns n = some nd) :
    walkStep ns n .exh = .exhausted := by
  cases nd <;> simp [walkStep, hn]

/-! ## The work that the decoder commands share (44_stream_codec.md R183 to R186) -/

/-- What DECODE_N and DECODE_EOS do between two symbols: the loop test of DECODE_N (44_stream_codec.md R185), and for DECODE_EOS
the next symbol in any case (R186). -/
def nextSymbol (i : Instr) (limit : Word) (s : State) : Work :=
  if i = .decodeN then decodeNLoop limit s else walkStart limit s

theorem decodeNLoop_again {s : State} {limit : Word} (h : s.symcnt < limit) : decodeNLoop limit s = walkStart limit s :=
  if_pos h

theorem decodeNLoop_done {s : State} {limit : Word} (h : limit ≤ s.symcnt) : decodeNLoop limit s = .finish s :=
  if_neg (BitVec.not_lt.2 h)

/-- The next symbol's walk begins at ROOT, for DECODE_N while SYMCNT < N. -/
theorem nextSymbol_walks {i : Instr} {s : State} {limit : Word} (h : i = .decodeN → s.symcnt < limit) :
    nextSymbol i limit s = walkStart limit s := by
  unfold nextSymbol
  split
  · next hi => exact decodeNLoop_again (h hi)
  · rfl

section Decoder
variable {i : Instr} {s : State} {n : NodeIdx} {started : Bool} {limit : Word}

section Walk
variable {r : ReadRes} (hi : i = .decodeSym ∨ i = .decodeN ∨ i = .decodeEos) (hc : s.cont = .walk n started limit r)
include hi hc

theorem workOf_walk_go {m : NodeIdx} (h : walkStep s.arena.nodes n r = .go m) :
    workOf i s = .read s (.walk m true limit) := by
  rcases hi with rfl | rfl | rfl
  · simp only [workOf, workDecodeSym, hc, h]
  · simp only [workOf, workDecodeN, hc, h]
  · simp only [workOf, workDecodeEos, hc, h]

theorem workOf_walk_badBit (h : walkStep s.arena.nodes n r = .badBit) : workOf i s = .fail .corrupt s.symcnt s := by
  rcases hi with rfl | rfl | rfl
  · simp only [workOf, workDecodeSym, hc, h]
  · simp only [workOf, workDecodeN, hc, h]
  · simp only [workOf, workDecodeEos, hc, h]

theorem workOf_walk_cut (h : walkStep s.arena.nodes n r = .exhausted) (hne : i ≠ .decodeEos) :
    workOf i s = .fail .corrupt s.symcnt s := by
  rcases hi with rfl | rfl | rfl
  · simp only [workOf, workDecodeSym, hc, h]
  · simp only [workOf, workDecodeN, hc, h]
  · exact absurd rfl hne

end Walk

section Start
variable (hi : i = .decodeSym ∨ i = .decodeEos) (hc : s.cont = .start)
include hi hc

theorem workOf_decode_noTree (hv : s.arena.valid = false) : workOf i s = .fail .state 0 { s with symcnt := 0 } := by
  rcases hi with rfl | rfl
  · simp [workOf, workDecodeSym, hc, hv]
  · simp [workOf, workDecodeEos, hc, hv]

theorem workOf_decode_start (hv : s.arena.valid = true) : workOf i s = walkStart 0 { s with symcnt := 0 } := by
  rcases hi with rfl | rfl
  · simp [workOf, workDecodeSym, hc, hv]
  · simp [workOf, workDecodeEos, hc, hv]

end Start

section Bytes
variable {v : Byte} (hi : i = .decodeN ∨ i = .decodeEos)
include hi

theorem workOf_walk_sym {r : ReadRes} (hc : s.cont = .walk n started limit r) (h : walkStep s.arena.nodes n r = .sym v) :
    workOf i s = .write (v.getLsbD 7) s (.outSym v 7 limit) := by
  rcases hi with rfl | rfl
  · simp only [workOf, workDecodeN, hc, h, outNext]
  · simp only [workOf, workDecodeEos, hc, h, outNext]

theorem workOf_outSym_bit {k : Nat} (hc : s.cont = .outSym v (k + 1) limit) :
    workOf i s = .write (v.getLsbD k) s (.outSym v k limit) := by
  rcases hi with rfl | rfl
  · simp only [workOf, workDecodeN, hc, outNext]
  · simp only [workOf, workDecodeEos, hc, outNext]

theorem workOf_outSym_done (hc : s.cont = .outSym v 0 limit) :
    workOf i s = nextSymbol i limit { s with symcnt := s.symcnt + 1 } := by
  rcases hi with rfl | rfl
  · simp only [workOf, workDecodeN, hc, outNext, nextSymbol, if_true]
  · simp [workOf, workDecodeEos, hc, outNext, nextSymbol]

end Bytes

/-! ## The work that is one command's own (44_stream_codec.md R184 to R186) -/

theorem workOf_decodeSym_sym {v : Byte} {r : ReadRes} (hc : s.cont = .walk n started limit r)
    (h : walkStep s.arena.nodes n r = .sym v) :
    workOf .decodeSym s = .finish { s with regs := { s.regs with res0 := symWord v }, symcnt := 1 } := by
  simp only [workOf, workDecodeSym, hc, h]

theorem workOf_decodeEos_ended {r : ReadRes} (hc : s.cont = .walk n started limit r)
    (h : walkStep s.arena.nodes n r = .exhausted) :
    workOf .decodeEos s = .finish { s with stat := { s.stat with partialCode := s.stat.partialCode || started } } := by
  simp only [workOf, workDecodeEos, hc, h]

/-- A hold that an ARG0 write left is over where the ReadBit can proceed (20_memory.md R78; assumption 24). -/
theorem workOf_decodeN_first (h : AtFirstStep s) : workOf .decodeN s = decodeNStart s := by
  rcases h with hc | ⟨hc, hr⟩
  · simp only [workOf, workDecodeN, hc]
  · simp only [workOf, workDecodeN, hc, if_neg hr]

theorem decodeNStart_noTree (hv : s.arena.valid = false) : decodeNStart s = .fail .state 0 { s with symcnt := 0 } := by
  simp [decodeNStart, hv]

theorem decodeNStart_tree (hv : s.arena.valid = true) : decodeNStart s = decodeNLoop s.regs.arg0 { s with symcnt := 0 } := by
  simp [decodeNStart, hv]

end Decoder

/-! ## The unit steps -/

/-- Settles O33: in each place the work is one of six, and it fails, reads or completes. -/
theorem decodeSymUnitSteps : Obligations.DecodeSymUnitSteps := by
  intro s ha
  refine ⟨fun hc hv => ?_, fun hc hv => ?_, fun n st l b x y p v hc hn hm => ?_,
    fun n st l b x y p x' y' p' hc hn hm => ?_, fun n st l v hc hn => ?_, fun n st l v hc hn => ?_,
    fun n st l nd hc hn => ?_⟩
  · exact exec_of_fail .decodeSym ha (workOf_decode_noTree (.inl rfl) hc hv)
  · exact stepReads_of_read ha (workOf_decode_start (.inl rfl) hc hv)
  · exact exec_of_finish .decodeSym ha (workOf_decodeSym_sym hc (walkStep_sym (.inr ⟨x, y, p, hn, hm⟩)))
  · exact stepReads_of_read ha (workOf_walk_go (.inl rfl) hc (walkStep_go hn hm))
  · exact exec_of_finish .decodeSym ha (workOf_decodeSym_sym hc (walkStep_sym (.inl ⟨hn, rfl⟩)))
  · exact exec_of_fail .decodeSym ha (workOf_walk_badBit (.inl rfl) hc (walkStep_badBit hn))
  · exact exec_of_fail .decodeSym ha (workOf_walk_cut (.inl rfl) hc (walkStep_exhausted hn) nofun)

/-- Settles O35: the first step and the step after a symbol are the loop test; in the other places the work is one of five. -/
theorem decodeNUnitSteps : Obligations.DecodeNUnitSteps := by
  intro s ha
  refine ⟨fun h => ⟨fun hv => ?_, fun hv harg => ?_, fun hv harg => ?_⟩, fun hc hr => ?_,
    fun n st l b x y p x' y' p' hc hn hm => ?_, fun n st l b x y p v hc hn hm => ?_, fun n st l v hc hn => ?_,
    fun n st l v hc hn => ?_, fun v k l hc => ?_, fun v l hc hle => ?_, fun v l hc hlt => ?_, fun n st l nd hc hn => ?_⟩
  · exact exec_of_fail .decodeN ha ((workOf_decodeN_first h).trans (decodeNStart_noTree hv))
  · have hle : s.regs.arg0 ≤ 0 := by simp [harg]
    exact exec_of_finish .decodeN ha
      ((workOf_decodeN_first h).trans ((decodeNStart_tree hv).trans (decodeNLoop_done hle)))
  · have hlt : 0 < s.regs.arg0 := by bv_omega
    exact stepReads_of_read ha ((workOf_decodeN_first h).trans ((decodeNStart_tree hv).trans (decodeNLoop_again hlt)))
  · rw [exec_eq_unitStep]
    exact unitStep_blocked ha (workDecodeN_heldStart_blocked hc hr)
  · exact stepReads_of_read ha (workOf_walk_go (.inr (.inl rfl)) hc (walkStep_go hn hm))
  · exact stepWrites_of_write ha (workOf_walk_sym (.inl rfl) hc (walkStep_sym (.inr ⟨x, y, p, hn, hm⟩)))
  · exact stepWrites_of_write ha (workOf_walk_sym (.inl rfl) hc (walkStep_sym (.inl ⟨hn, rfl⟩)))
  · exact exec_of_fail .decodeN ha (workOf_walk_badBit (.inr (.inl rfl)) hc (walkStep_badBit hn))
  · exact stepWrites_of_write ha (workOf_outSym_bit (.inl rfl) hc)
  · exact exec_of_finish .decodeN ha ((workOf_outSym_done (.inl rfl) hc).trans (decodeNLoop_done hle))
  · exact stepReads_of_read ha ((workOf_outSym_done (.inl rfl) hc).trans (decodeNLoop_again hlt))
  · exact exec_of_fail .decodeN ha (workOf_walk_cut (.inr (.inl rfl)) hc (walkStep_exhausted hn) nofun)

/-- Settles O37: in each place the work is one of eight, and it fails, reads, writes or completes. -/
theorem decodeEosUnitSteps : Obligations.DecodeEosUnitSteps := by
  intro s ha
  refine ⟨fun hc hv => ?_, fun hc hv => ?_, fun n st l b x y p x' y' p' hc hn hm => ?_,
    fun n st l b x y p v hc hn hm => ?_, fun n st l v hc hn => ?_, fun n st l v hc hn => ?_, fun v k l hc => ?_,
    fun v l hc => ?_, fun n l nd hc hn => ?_, fun n l nd hc hn => ?_⟩
  · exact exec_of_fail .decodeEos ha (workOf_decode_noTree (.inr rfl) hc hv)
  · exact stepReads_of_read ha (workOf_decode_start (.inr rfl) hc hv)
  · exact stepReads_of_read ha (workOf_walk_go (.inr (.inr rfl)) hc (walkStep_go hn hm))
  · exact stepWrites_of_write ha (workOf_walk_sym (.inr rfl) hc (walkStep_sym (.inr ⟨x, y, p, hn, hm⟩)))
  · exact stepWrites_of_write ha (workOf_walk_sym (.inr rfl) hc (walkStep_sym (.inl ⟨hn, rfl⟩)))
  · exact exec_of_fail .decodeEos ha (workOf_walk_badBit (.inr (.inr rfl)) hc (walkStep_badBit hn))
  · exact stepWrites_of_write ha (workOf_outSym_bit (.inr rfl) hc)
  · exact stepReads_of_read ha ((workOf_outSym_done (.inr rfl) hc).trans (nextSymbol_walks nofun))
  · have work := workOf_decodeEos_ended hc (walkStep_exhausted hn)
    rw [Bool.or_false] at work
    exact exec_of_finish .decodeEos ha work
  · have work := workOf_decodeEos_ended hc (walkStep_exhausted hn)
    rw [Bool.or_true] at work
    exact exec_of_finish .decodeEos ha work

end Sys2Proof.Machine
end

section
/-! SUPPORT. The tree-walk decoder over whole codes (44_stream_codec.md R183 to R186). -/

namespace Sys2Proof.Machine

/-! ## The code of a leaf, edge by edge (42_code_table.md R161, R162) -/

/-- A code below an internal node begins with one of its edges. -/
theorem CodeTree.of_mem_codes_node {l r : CodeTree} {v : Byte} {p : List Bool} (h : (v, p) ∈ (CodeTree.node l r).codes) :
    ∃ b q, p = b :: q ∧ (v, q) ∈ (if b then r else l).edges := by
  rcases List.mem_append.1 h with h | h <;> obtain ⟨⟨u, q⟩, hq, e⟩ := List.mem_map.1 h <;> cases e
  · exact ⟨false, q, rfl, hq⟩
  · exact ⟨true, q, rfl, hq⟩

theorem CodeTree.ne_nil_of_mem_codes {t : CodeTree} {v : Byte} {p : List Bool} (h : (v, p) ∈ t.codes) : p ≠ [] := by
  cases t with
  | leaf sym =>
    cases List.mem_singleton.1 h
    exact List.cons_ne_nil false []
  | node l r =>
    obtain ⟨b, q, rfl, -⟩ := of_mem_codes_node h
    exact List.cons_ne_nil b q

theorem CodeTree.eq_leaf_of_nil_mem_edges {t : CodeTree} {v : Byte} (h : (v, []) ∈ t.edges) : t = .leaf v := by
  cases t with
  | leaf sym =>
    cases List.mem_singleton.1 h
    rfl
  | node l r => exact absurd rfl (ne_nil_of_mem_codes (t := .node l r) h)

theorem CodeTree.eq_node_of_mem_edges {t : CodeTree} {v : Byte} {p : List Bool} (h : (v, p) ∈ t.edges) (hp : p ≠ []) :
    ∃ l r, t = .node l r := by
  cases t with
  | leaf sym =>
    cases List.mem_singleton.1 h
    exact absurd rfl hp
  | node l r => exact ⟨l, r, rfl⟩

section Edge
variable {ns : List Node} {n : NodeIdx} {ix : List NodeIdx} {v : Byte} {b : Bool} {p : List Bool}

/-- The edge taken from an internal node leads to the subtree on that side. -/
theorem Holds.child {l r : CodeTree} (holds : Holds ns (.node l r) n ix) (b : Bool) :
    ∃ x y prio ix', nodeAt ns n = some (.internal x y prio) ∧
      Holds ns (if b then r else l) (if b then y else x) ix' := by
  obtain ⟨x, y, prio, xs, ys, hn, hl, hr, -⟩ := holds
  cases b with
  | false => exact ⟨x, y, prio, xs, hn, hl⟩
  | true => exact ⟨x, y, prio, ys, hn, hr⟩

theorem Holds.root_allocated {T : CodeTree} (holds : Holds ns T n ix) : ∃ nd, nodeAt ns n = some nd :=
  ⟨_, List.getElem?_eq_getElem (holds.allocated n holds.root_mem)⟩

/-- A bit that is not a code's last leads to a node below which the rest of the code is a code. -/
theorem Holds.walkStep_inside {T : CodeTree} (holds : Holds ns T n ix) (code : (v, b :: p) ∈ T.codes) (hp : p ≠ []) :
    ∃ m T' ix', walkStep ns n (.bit b) = .go m ∧ Holds ns T' m ix' ∧ (v, p) ∈ T'.codes := by
  cases T with
  | leaf sym =>
    cases List.mem_singleton.1 code
    exact absurd rfl hp
  | node l r =>
    obtain ⟨_, _, hbp, edge⟩ := CodeTree.of_mem_codes_node code
    cases hbp
    obtain ⟨x, y, prio, ix', hn, hc⟩ := holds.child b
    obtain ⟨l', r', hlr⟩ := CodeTree.eq_node_of_mem_edges edge hp
    rw [hlr] at hc edge
    obtain ⟨x', y', prio', -, hm, -⟩ := hc.child false
    exact ⟨_, _, _, walkStep_go hn hm, hc, edge⟩

/-- A code's last bit leads to its leaf. -/
theorem Holds.walkStep_last {T : CodeTree} (holds : Holds ns T n ix) (code : (v, [b]) ∈ T.codes) :
    walkStep ns n (.bit b) = .sym v := by
  cases T with
  | leaf sym =>
    cases List.mem_singleton.1 code
    exact walkStep_sym (.inl ⟨holds.1, rfl⟩)
  | node l r =>
    obtain ⟨_, _, hbp, edge⟩ := CodeTree.of_mem_codes_node code
    cases hbp
    obtain ⟨x, y, prio, ix', hn, hc⟩ := holds.child b
    rw [CodeTree.eq_leaf_of_nil_mem_edges edge] at hc
    exact walkStep_sym (.inr ⟨x, y, prio, hn, hc.1⟩)

end Edge

/-! ## Reading codes (44_stream_codec.md R183) -/

section Codes
variable {i : Instr} {s t : State} {T : CodeTree} {n : NodeIdx} {ix : List NodeIdx} {started : Bool} {limit : Word}
  {v : Byte} {p q rest : List Bool}

/-- From a node of a tree a walk reads the bits of a code up to some place before its last, and then reads on at a node below
which the rest of the code is a code; `t` is the state with the work before the walk done. -/
theorem decode_readsPath (hi : i = .decodeSym ∨ i = .decodeN ∨ i = .decodeEos)
    (step : StepReads i s { t with inp := s.inp } (.walk n started limit)) (ha : t.stat.abortReq = false)
    (holds : Holds t.arena.nodes T n ix) (code : (v, q ++ p) ∈ T.codes) (hp : p ≠ []) (hin : inBits s.inp = q ++ rest) :
    ∃ s' m T' ix', runUnits i q.length s = .next s' ∧
      StepReads i s' { t with inp := s'.inp } (.walk m (started || !q.isEmpty) limit) ∧
        Holds t.arena.nodes T' m ix' ∧ (v, p) ∈ T'.codes ∧ ReadsOn s.inp q s'.inp := by
  induction q generalizing s n started T ix with
  | nil => exact ⟨s, n, T, ix, rfl, by simpa using step, holds, code, .refl _⟩
  | cons b q ih =>
    obtain ⟨m, T1, ix1, go, holds1, code1⟩ := holds.walkStep_inside code (by simp [hp])
    obtain ⟨r, run1, hin1, on1⟩ := step.reads hin
    have step1 := stepReads_of_read (s := { t with inp := r, cont := .walk n started limit (.bit b) }) ha
      (workOf_walk_go hi rfl go)
    obtain ⟨s', m', T', ix', run, step', holds', code', on⟩ := ih step1 holds1 code1 hin1
    exact ⟨s', m', T', ix', runUnits_succ run1 run, by simpa using step', holds', code', on1.trans on⟩

/-- From a node of a tree a walk reads a code, and its last bit gives the symbol. -/
theorem decode_readsCode (hi : i = .decodeSym ∨ i = .decodeN ∨ i = .decodeEos)
    (step : StepReads i s { t with inp := s.inp } (.walk n started limit)) (ha : t.stat.abortReq = false)
    (holds : Holds t.arena.nodes T n ix) (code : (v, p) ∈ T.codes) (hin : inBits s.inp = p ++ rest) :
    ∃ m started' b r, runUnits i p.length s = .next { t with inp := r, cont := .walk m started' limit (.bit b) } ∧
      walkStep t.arena.nodes m (.bit b) = .sym v ∧ ReadsOn s.inp p r := by
  obtain ⟨q, b, rfl⟩ := (List.eq_nil_or_concat' p).resolve_left (CodeTree.ne_nil_of_mem_codes code)
  obtain ⟨s', m, T', ix', run1, step', holds', code', on1⟩ :=
    decode_readsPath hi step ha holds code (List.cons_ne_nil b []) (hin.trans (List.append_assoc ..))
  obtain ⟨r, run2, -, on2⟩ := step'.reads (on1.rest (hin.trans (List.append_assoc ..)))
  refine ⟨m, started || !q.isEmpty, b, r, ?_, holds'.walkStep_last code', on1.trans on2⟩
  rw [List.length_append]
  exact (runUnits_add _ _ _ run1).trans (runUnits_one run2)

end Codes

/-- Settles O34: the walk begins at ROOT, and the step after the code's last bit completes. -/
theorem decodeSymReadsOneCode : Obligations.DecodeSymReadsOneCode := by
  rintro s T ix v p rest ⟨hc, ha⟩ hv holds code hin -
  obtain ⟨m, started, b, r, run, sym, on⟩ := decode_readsCode (t := { s with symcnt := 0 }) (.inl rfl)
    (stepReads_of_read ha (workOf_decode_start (.inl rfl) hc hv)) ha holds code hin
  have last := exec_of_finish .decodeSym (s := { s with symcnt := 0, inp := r, cont := .walk m started 0 (.bit b) }) ha
    (workOf_decodeSym_sym rfl sym)
  exact ⟨_, (runUnits_add _ _ 1 run).trans (runUnits_one last), rfl, rfl, on.rest hin, on.count, rfl⟩

/-! ## DECODE_N and DECODE_EOS over several symbols (44_stream_codec.md R185, R186) -/

/-- The decoder stands at `c` with the two cursors and SYMCNT as given; the rest is as in `s`. -/
def decoding (s : State) (r : BitReader) (w : BitWriter) (c : EngineCont) (n : Word) : State :=
  { s with inp := r, out := w, cont := c, symcnt := n }

section Symbols
variable {i : Instr} {T : CodeTree} {ix : List NodeIdx} {limit : Word} (hi : i = .decodeN ∨ i = .decodeEos)
include hi

/-- A walk from ROOT reads the code of a leaf, and its symbol is written as a byte. -/
theorem decode_writesSymbol {s t : State} {e : Byte × List Bool} {rest : List Bool} {m : Nat}
    (step : StepReads i s { t with inp := s.inp } (.walk t.arena.root false limit)) (ha : t.stat.abortReq = false)
    (holds : Holds t.arena.nodes T t.arena.root ix) (code : e ∈ T.codes) (hin : inBits s.inp = e.2 ++ rest)
    (room : outRoom t.ext.params.outCap ((bitsOf 8 e.1).length + m) t.out) :
    ∃ r w, runUnits i (e.2.length + 8) s = .next (decoding t r w (.outSym e.1 0 limit) t.symcnt) ∧ ReadsOn s.inp e.2 r ∧
      WritesOn t.out (bitsOf 8 e.1) w := by
  obtain ⟨n, started, b, r, run1, sym, on⟩ := decode_readsCode (.inr hi) step ha holds code hin
  have top := stepWrites_of_write (s := { t with inp := r, cont := .walk n started limit (.bit b) }) ha
    (workOf_walk_sym hi rfl sym)
  obtain ⟨w, run2, won⟩ := top.writesField (c := fun j => .outSym e.1 j limit) rfl
    (fun _ _ => stepWrites_of_write ha (workOf_outSym_bit hi rfl)) room
  exact ⟨r, w, (runUnits_add _ _ _ run1).trans run2, on, won⟩

/-- Where the next symbol comes, SYMCNT being `n` then, the codes of leaves are decoded to their symbols and counted, and the
next symbol comes again. -/
theorem decode_decodesOn (l : List (Byte × List Bool)) {s : State} {n : Word} {rest : List Bool} {m : Nat}
    (work : workOf i s = nextSymbol i limit { s with symcnt := n }) (ha : s.stat.abortReq = false)
    (holds : Holds s.arena.nodes T s.arena.root ix) (codes : ∀ e ∈ l, e ∈ T.codes)
    (hin : inBits s.inp = l.flatMap Prod.snd ++ rest) (hlimit : i = .decodeN → n.toNat + l.length ≤ limit.toNat)
    (room : outRoom s.ext.params.outCap ((bytesBits (l.map Prod.fst)).length + m) s.out) :
    ∃ k r w c n', runUnits i k s = .next (decoding s r w c n') ∧
      workOf i (decoding s r w c n') = nextSymbol i limit (decoding s r w c (n + BitVec.ofNat 32 l.length)) ∧
        ReadsOn s.inp (l.flatMap Prod.snd) r ∧ WritesOn s.out (bytesBits (l.map Prod.fst)) w := by
  induction l generalizing s n with
  | nil =>
    rw [List.length_nil, BitVec.add_zero]
    exact ⟨0, s.inp, s.out, s.cont, s.symcnt, rfl, work, .refl _, .refl _⟩
  | cons e l ih =>
    obtain ⟨code, codes⟩ := List.forall_mem_cons.1 codes
    rw [List.flatMap_cons, List.append_assoc] at hin
    rw [List.map_cons, bytesBits_cons, List.length_append, Nat.add_assoc] at room
    rw [List.length_cons] at hlimit
    have walks : nextSymbol i limit { s with symcnt := n } = walkStart limit { s with symcnt := n } :=
      nextSymbol_walks fun h => show n < limit by have := hlimit h; bv_omega
    obtain ⟨r1, w1, run1, on1, won1⟩ := decode_writesSymbol hi (t := { s with symcnt := n })
      (stepReads_of_read ha (work.trans walks)) ha holds code hin room
    obtain ⟨k, r, w, c, n', run, work', on, won⟩ :=
      ih (s := decoding s r1 w1 (.outSym e.1 0 limit) n) (n := n + 1) (workOf_outSym_done hi rfl) ha holds codes
        (on1.rest hin) (fun h => by have := hlimit h; bv_omega) (won1.outRoom room)
    refine ⟨_, r, w, c, n', (runUnits_add _ _ _ run1).trans run, work'.trans ?_, on1.trans on, won1.trans won⟩
    rw [List.length_cons, Nat.add_comm l.length, BitVec.ofNat_add, ← BitVec.add_assoc]
    rfl

end Symbols

/-- Settles O36: the first unit step is the loop test with SYMCNT at 0, and after the last symbol SYMCNT is N. -/
theorem decodeNReadsItsCount : Obligations.DecodeNReadsItsCount := by
  intro s T ix l rest hfirst ha hv holds codes harg hin _ room
  have hn : BitVec.ofNat 32 l.length = s.regs.arg0 := by rw [← harg]; simp
  obtain ⟨k, r, w, c, n, run, work, on, won⟩ := decode_decodesOn (m := 0) (.inl rfl) l
    ((workOf_decodeN_first hfirst).trans (decodeNStart_tree hv)) ha holds codes hin (fun _ => by simp [harg])
    (by simpa [bytesBits_length] using room)
  rw [hn, zero_add] at work
  have last := exec_of_finish .decodeN (s := decoding s r w c n) ha (work.trans (decodeNLoop_done (BitVec.le_refl _)))
  exact ⟨k + 1, _, (runUnits_add _ _ 1 run).trans (runUnits_one last), won.bits, rfl, on.rest hin, on.count, rfl⟩

/-- Settles O38: past the last whole code the walk reads the rest of the input and finds it exhausted. -/
theorem decodeEosDecodesToTheEnd : Obligations.DecodeEosDecodesToTheEnd := by
  rintro s T ix l ⟨v, _⟩ tail ⟨hc, ha⟩ hv holds codes code ⟨p, rfl⟩ hp hin - heos hpart room
  have hp' : p ≠ [] := fun h => hp (by simp [h])
  obtain ⟨k, r, w, c, n, run, work, on, won⟩ := decode_decodesOn (m := 0) (.inr rfl) l
    (workOf_decode_start (.inr rfl) hc hv) ha holds codes hin nofun (by simpa [bytesBits_length] using room)
  rw [zero_add] at work
  have step := stepReads_of_read (i := .decodeEos) (s := decoding s r w c n) ha (work.trans (nextSymbol_walks nofun))
  have hrest : inBits r = tail ++ [] := (on.rest hin).trans (List.append_nil _).symm
  obtain ⟨s', m, T', ix', run', step', holds', -, on'⟩ := decode_readsPath
    (t := decoding s r w c (BitVec.ofNat 32 l.length)) (.inr (.inr rfl)) step ha holds code hp' hrest
  obtain ⟨nd, hn⟩ := holds'.root_allocated
  have hend := on'.rest hrest
  have exh := step'.exhausted hend (on'.eos.trans (on.eos.trans heos))
  have last := exec_of_finish .decodeEos
    (s := decoding s s'.inp w (.walk m (false || !tail.isEmpty) 0 .exh) (BitVec.ofNat 32 l.length)) ha
    (workOf_decodeEos_ended rfl (walkStep_exhausted hn))
  rw [Bool.false_or] at exh last
  refine ⟨k + (tail.length + 2), _, (runUnits_add _ _ _ run).trans ((runUnits_add _ _ _ run').trans
    (runUnits_succ exh (runUnits_one last))), won.bits, rfl, hend, ?_, ?_⟩
  · rw [hin]
    exact (on.trans on').count
  · simp [decoding, complete, hpart]

end Sys2Proof.Machine
end

section
/-! SUPPORT. The bit cursor commands and NOP (45_bitcursor.md R200 to R204): place by place, and over a whole field or
padding. -/

namespace Sys2Proof.Machine

/-- Settles O46: both commands are one unit step without a bit operation. -/
theorem nopAndStreamReset : Obligations.NopAndStreamReset := fun _ ha =>
  ⟨exec_of_finish .nop ha rfl, fun o i => exec_of_finish (.streamReset o i) ha rfl⟩

/-- A legal field is not empty (30_encoding.md R104). -/
theorem exists_succ_of_bitCountLegal {n : BitVec 6} (hn : bitCountLegal n = true) : ∃ k, n.toNat = k + 1 :=
  Nat.exists_eq_succ_of_ne_zero fun h => by simp [bitCountLegal, h] at hn

/-! ## The work of the bit cursor commands, place by place (45_bitcursor.md R201 to R203) -/

section BitCursor
variable {s : State} {n : BitVec 6} {k : Nat} {v : Word} {b : Bool}

theorem workOf_putBits_illegal (hn : bitCountLegal n = false) :
    workOf (.putBits n) s = .fail .illegal s.regs.curCmd s := by
  simp [workOf, workPutBits, hn]

theorem workOf_putBits_start (hn : bitCountLegal n = true) (hc : s.cont = .start) (hk : n.toNat = k + 1) :
    workOf (.putBits n) s = .write (s.regs.arg0.getLsbD k) s (.putBits s.regs.arg0 k) := by
  simp [workOf, workPutBits, hn, hc, hk, putNext, fieldBit]

theorem workOf_putBits_next (hn : bitCountLegal n = true) (hc : s.cont = .putBits v (k + 1)) :
    workOf (.putBits n) s = .write (v.getLsbD k) s (.putBits v k) := by
  simp [workOf, workPutBits, hn, hc, putNext, fieldBit]

theorem workOf_putBits_done (hn : bitCountLegal n = true) (hc : s.cont = .putBits v 0) :
    workOf (.putBits n) s = .finish s := by
  simp [workOf, workPutBits, hn, hc, putNext]

theorem workOf_getBits_illegal (hn : bitCountLegal n = false) :
    workOf (.getBits n) s = .fail .illegal s.regs.curCmd s := by
  simp [workOf, workGetBits, hn]

theorem workOf_getBits_start (hn : bitCountLegal n = true) (hc : s.cont = .start) :
    workOf (.getBits n) s = .read s (.getBits 0 0) := by
  simp [workOf, workGetBits, hn, hc]

theorem workOf_getBits_more (hn : bitCountLegal n = true) (hc : s.cont = .getBits k v (.bit b)) (hk : k + 1 ≠ n.toNat) :
    workOf (.getBits n) s = .read s (.getBits (k + 1) (shiftIn v b)) := by
  simp [workOf, workGetBits, hn, hc, hk]

theorem workOf_getBits_done (hn : bitCountLegal n = true) (hc : s.cont = .getBits k v (.bit b)) (hk : k + 1 = n.toNat) :
    workOf (.getBits n) s = .finish { s with regs := { s.regs with res0 := shiftIn v b } } := by
  simp [workOf, workGetBits, hn, hc, hk]

theorem workOf_getBits_cut (hn : bitCountLegal n = true) (hc : s.cont = .getBits k v .exh) :
    workOf (.getBits n) s = .fail .corrupt (natWord k) s := by
  simp [workOf, workGetBits, hn, hc]

theorem workOf_flush (hc : s.cont = .start ∨ s.cont = .flush) :
    workOf .flush s = if s.out.wrCnt = 0 then .finish s else .write false s .flush := by
  rcases hc with hc | hc <;> simp only [workOf, workFlush, hc]

end BitCursor

/-- Settles O41: in each place the work is one of four, and it fails, writes or completes. -/
theorem putBitsUnitSteps : Obligations.PutBitsUnitSteps := by
  intro n s ha
  refine ⟨fun hn => ?_, fun k hn hc hk => ?_, fun v k hn hc => ?_, fun v hn hc => ?_⟩
  · exact exec_of_fail (.putBits n) ha (workOf_putBits_illegal hn)
  · exact stepWrites_of_write ha (workOf_putBits_start hn hc hk)
  · exact stepWrites_of_write ha (workOf_putBits_next hn hc)
  · exact exec_of_finish (.putBits n) ha (workOf_putBits_done hn hc)

/-- Settles O43: in each place the work is one of five, and it fails, reads or completes. -/
theorem getBitsUnitSteps : Obligations.GetBitsUnitSteps := by
  intro n s ha
  refine ⟨fun hn => ?_, fun hn hc => ?_, fun k v b hn hc hk => ?_, fun k v b hn hc hk => ?_, fun k v hn hc => ?_⟩
  · exact exec_of_fail (.getBits n) ha (workOf_getBits_illegal hn)
  · exact stepReads_of_read ha (workOf_getBits_start hn hc)
  · exact stepReads_of_read ha (workOf_getBits_more hn hc hk)
  · exact exec_of_finish (.getBits n) ha (workOf_getBits_done hn hc hk)
  · exact exec_of_fail (.getBits n) ha (workOf_getBits_cut hn hc)

/-! ## PUT_BITS over a whole field (45_bitcursor.md R201) -/

/-- Settles O42: the field is written from bit N − 1, and the step after bit 0 completes. -/
theorem putBitsWritesTheField : Obligations.PutBitsWritesTheField := by
  rintro n s hn ⟨hc, ha⟩ room
  obtain ⟨k, hk⟩ := exists_succ_of_bitCountLegal hn
  have hlen := bitsOf_length n.toNat s.regs.arg0
  have top := stepWrites_of_write ha (workOf_putBits_start hn hc hk)
  obtain ⟨w, run, on⟩ := top.writesField (c := .putBits s.regs.arg0) (m := 0) rfl
    (fun _ _ => stepWrites_of_write ha (workOf_putBits_next hn rfl)) (by rwa [← hk, hlen])
  rw [← hk] at run on
  rw [hlen] at run
  have last := exec_of_finish (.putBits n) (s := { s with out := w, cont := .putBits s.regs.arg0 0 }) ha
    (workOf_putBits_done hn rfl)
  refine ⟨{ complete s with out := w }, (runUnits_add _ _ 1 run).trans (runUnits_one last), on.bits, ?_, rfl⟩
  rw [← BitVec.ofNat_toNat, ← hlen]
  exact on.count

/-! ## GET_BITS over a whole field (45_bitcursor.md R202) -/

/-- GET_BITS reads the bits that are next in the input, up to N of them, and stands behind the last. -/
theorem getBits_reads {n : BitVec 6} {s : State} (hn : bitCountLegal n = true) (ha : s.stat.abortReq = false)
    (hc : s.cont = .start) {b : Bool} {bs rest : List Bool} (hle : (b :: bs).length ≤ n.toNat)
    (hin : inBits s.inp = b :: bs ++ rest) :
    ∃ (v : Word) (b' : Bool) (r : BitReader),
      runUnits (.getBits n) (b :: bs).length s = .next { s with inp := r, cont := .getBits bs.length v (.bit b') } ∧
        shiftIn v b' = ofBits (b :: bs) ∧ ReadsOn s.inp (b :: bs) r := by
  rw [List.length_cons] at hle
  exact (stepReads_of_read ha (workOf_getBits_start hn hc)).readsField (t := s) (c := .getBits)
    (fun _ _ _ _ hk => stepReads_of_read ha (workOf_getBits_more hn rfl (by omega))) (Nat.zero_add _) hin

/-- Where GET_BITS reads on with `k` bits read and a terminated input has none left, the next two steps find the input exhausted
and raise E_CORRUPT(k). -/
theorem getBits_endsCut {n : BitVec 6} {s t : State} {k : Nat} {v : Word} (hn : bitCountLegal n = true)
    (step : StepReads (.getBits n) s t (.getBits k v)) (ha : t.stat.abortReq = false) (hin : inBits s.inp = [])
    (heos : s.inp.eos = true) : runUnits (.getBits n) 2 s = .next (raise .corrupt (natWord k) t) := by
  have last := exec_of_fail (.getBits n) (s := { t with cont := .getBits k v .exh }) ha (workOf_getBits_cut hn rfl)
  exact runUnits_succ (step.exhausted hin heos) (runUnits_one last)

/-- Settles O44: the bits that there are, up to N, are read; the step after the N-th completes, and that after an earlier end
is E_CORRUPT. -/
theorem getBitsReadsTheField : Obligations.GetBitsReadsTheField := by
  rintro n s hn ⟨hc, ha⟩ -
  refine ⟨fun bs rest hin hlen => ?_, fun hlt heos => ?_⟩
  · obtain ⟨k, hk⟩ := exists_succ_of_bitCountLegal hn
    obtain ⟨b, bs, rfl⟩ := List.exists_cons_of_length_eq_add_one (hlen.trans hk)
    obtain ⟨v, b', r, run, hv, on⟩ := getBits_reads hn ha hc hlen.le hin
    have last := exec_of_finish (.getBits n) (s := { s with inp := r, cont := .getBits bs.length v (.bit b') }) ha
      (workOf_getBits_done hn rfl hlen)
    rw [hlen] at run
    refine ⟨_, (runUnits_add _ _ 1 run).trans (runUnits_one last), hv, on.rest hin, ?_, rfl⟩
    rw [← BitVec.ofNat_toNat, ← hlen]
    exact on.count
  · cases hin : inBits s.inp with
    | nil =>
      have step := stepReads_of_read ha (workOf_getBits_start hn hc)
      exact ⟨_, getBits_endsCut hn step ha hin heos, hin, rfl⟩
    | cons b bs =>
      rw [hin] at hlt
      have hall : inBits s.inp = b :: bs ++ [] := by rw [hin, List.append_nil]
      obtain ⟨v, b', r, run, -, on⟩ := getBits_reads hn ha hc hlt.le hall
      have step := stepReads_of_read (s := { s with inp := r, cont := .getBits bs.length v (.bit b') }) ha
        (workOf_getBits_more hn rfl hlt.ne)
      have hend := on.rest hall
      exact ⟨_, (runUnits_add _ _ 2 run).trans (getBits_endsCut hn step ha hend (on.eos.trans heos)), hend, rfl⟩

/-! ## FLUSH over a whole padding (45_bitcursor.md R203) -/

/-- Every WriteBit that takes place moves WR_CNT on by 1, past 7 to 0 (20_memory.md R73). -/
theorem writeBit_wrCnt {cap : Nat} {b : Bool} {w w' : BitWriter} (h : writeBit cap b w = some w') :
    w'.wrCnt = w.wrCnt + 1 := by
  rcases writeBit_cases h with ⟨-, rfl⟩ | ⟨h7, -, rfl⟩
  · rfl
  · rw [h7]
    rfl

theorem stepWrites_flush {s : State} (ha : s.stat.abortReq = false) (hc : s.cont = .start ∨ s.cont = .flush)
    (h : s.out.wrCnt ≠ 0) : StepWrites .flush s s false .flush :=
  stepWrites_of_write ha ((workOf_flush hc).trans (if_neg h))

theorem exec_flush_done {s : State} (ha : s.stat.abortReq = false) (hc : s.cont = .start ∨ s.cont = .flush)
    (h : s.out.wrCnt = 0) : exec .flush s = .next (complete s) :=
  exec_of_finish .flush ha ((workOf_flush hc).trans (if_pos h))

/-- FLUSH writes 0 bits until WR_CNT, which counts modulo 8, is 0 again, `m` of them, and completes. -/
theorem flush_pads (m : Nat) {s : State} (ha : s.stat.abortReq = false) (hc : s.cont = .start ∨ s.cont = .flush)
    (hm : (-s.out.wrCnt).toNat = m) (room : outRoom s.ext.params.outCap m s.out) :
    ∃ w, runUnits .flush (m + 1) s = .next { complete s with out := w } ∧ w.wrCnt = 0 ∧
      WritesOn s.out (List.replicate m false) w := by
  induction m generalizing s with
  | zero =>
    have h0 : s.out.wrCnt = 0 := by bv_omega
    exact ⟨s.out, runUnits_one (exec_flush_done ha hc h0), h0, .refl _⟩
  | succ m ih =>
    have h0 : s.out.wrCnt ≠ 0 := by bv_omega
    obtain ⟨w1, hw1, on1⟩ := writeBit_writesOn room false
    have hm1 : (-w1.wrCnt).toNat = m := by
      rw [writeBit_wrCnt hw1]
      bv_omega
    obtain ⟨w, run, hend, on⟩ := ih (s := { s with out := w1, cont := .flush }) ha (.inr rfl) hm1
      (on1.outRoom (by rwa [List.length_singleton, Nat.add_comm]))
    exact ⟨w, runUnits_succ ((stepWrites_flush ha hc h0).2 w1 hw1) run, hend, on1.trans on⟩

/-- Settles O45: (8 − WR_CNT) mod 8 is the negation of WR_CNT in its 3 bits. -/
theorem flushPadsWithZeros : Obligations.FlushPadsWithZeros := by
  intro s ha hc
  refine ⟨exec_flush_done ha hc, stepWrites_flush ha hc, fun room => ?_⟩
  obtain ⟨w, run, hend, on⟩ := flush_pads _ ha hc (BitVec.toNat_neg _) room
  refine ⟨_, run, on.bits, hend, ?_, rfl⟩
  simpa using on.count

end Sys2Proof.Machine
end

section
/-! SUPPORT. The life cycle of a command (60_exceptions.md): acceptance, what a raise writes, the error of an illegal word, the
abort, and which unit steps raise an error at all. -/

namespace Sys2Proof.Machine

/-! ## Acceptance (60_exceptions.md R230) -/

theorem writeCmd_busy {s : State} (hb : s.stat.busy = true) (v : Word) :
    writeCmd v s = { s with stat := { s.stat with cmdOvr := true } } := if_pos hb

theorem writeCmd_idle {s : State} (hb : s.stat.busy = false) (v : Word) : writeCmd v s = accept v s :=
  if_neg (by simp [hb])

/-- Settles O54: 0x00C is CMD, and the write finds the engine busy or idle. -/
theorem cmdWriteAcceptsOrDrops : Obligations.CmdWriteAcceptsOrDrops := by
  intro s v rest hr ha
  have write : step s = .next (writeCmd v (withAgenda rest s)) := step_write hr ha rfl
  exact ⟨fun hb => write.trans (congrArg _ (writeCmd_busy (s := withAgenda rest s) hb v)),
    fun hb => write.trans (congrArg _ (writeCmd_idle (s := withAgenda rest s) hb v))⟩

/-! ## What a raise writes (60_exceptions.md R221, R231) -/

/-- Settles O6: it is the definition of `raise` with `complete` written out. -/
theorem raiseWritesErrorStatus : Obligations.RaiseWritesErrorStatus := fun _ _ _ => rfl

/-! ## Aborts and illegal words (60_exceptions.md R225, R232, R233) -/

/-- ABORT_REQ is tested before the work of a unit step, whatever that is. -/
theorem unitStep_abort {s : State} (ha : s.stat.abortReq = true) (rel : State → State) (work : State → Work) :
    unitStep rel work s = .next (raise .abort 0 (if s.cont = .start then s else rel s)) := if_pos ha

/-- With the agenda used up and CUR_CMD an illegal word, the step is the one unit step of that word. -/
theorem step_illegal {s : State} {why : Illegal} (hr : s.ext.resetIn = false) (hag : s.ext.agenda = [])
    (hb : s.stat.busy = true) (hd : decode s.regs.curCmd = .illegal why) : step s = execIllegal s := by
  rw [step, takeTurn_run hr, runTurn, hag]
  simp only [engineTurn, hb, if_true, hd]

theorem execIllegal_abort {s : State} (ha : s.stat.abortReq = true) : execIllegal s = .next (raise .abort 0 s) := by
  rw [execIllegal, unitStep_abort ha, releaseNone_eq, ite_self]

theorem execIllegal_illegal {s : State} (ha : s.stat.abortReq = false) :
    execIllegal s = .next (raise .illegal s.regs.curCmd s) := by
  simp [execIllegal, unitStep, ha, workIllegal]

/-- Settles O5: the unit step of an illegal word raises E_ABORT or E_ILLEGAL. -/
theorem illegalWordEndsInError : Obligations.IllegalWordEndsInError := by
  intro s why hr hag hb hd
  rw [step_illegal hr hag hb hd]
  exact ⟨fun ha => (execIllegal_illegal ha).trans (congrArg _ (raiseWritesErrorStatus ..)), execIllegal_abort⟩

theorem exec_abort_first {s : State} (ha : s.stat.abortReq = true) (hc : s.cont = .start) (i : Instr) :
    exec i s = .next (raise .abort 0 s) := by
  rw [exec_eq_unitStep, unitStep_abort ha, if_pos hc]

theorem exec_abort_later {s : State} (ha : s.stat.abortReq = true) (hc : s.cont ≠ .start) (i : Instr) :
    exec i s = .next (raise .abort 0 (releaseOf i s)) := by
  rw [exec_eq_unitStep, unitStep_abort ha, if_neg hc]

/-- The last bit of a symbol is written and SYMCNT does not count it yet (44_stream_codec.md R181). -/
theorem countWritten_uncounted {s : State} (h : (∃ v, s.cont = .emit v 0) ∨ ∃ v l, s.cont = .outSym v 0 l) :
    countWritten s = { s with symcnt := s.symcnt + 1 } := by
  rcases h with ⟨v, hc⟩ | ⟨v, l, hc⟩ <;> simp [countWritten, hc]

theorem countWritten_counted {s : State} (h1 : ∀ v, s.cont ≠ .emit v 0) (h2 : ∀ v l, s.cont ≠ .outSym v 0 l) :
    countWritten s = s := by
  unfold countWritten
  split
  · next v hc => exact absurd hc (h1 v)
  · next v l hc => exact absurd hc (h2 v l)
  · rfl

/-- Settles O7: an abort comes before the work; after the first unit step it is the release rule that tells the commands
apart. -/
theorem abortEndsEveryCommand : Obligations.AbortEndsEveryCommand := by
  refine ⟨fun i s ha hc => exec_abort_first ha hc i, fun s why hr hag hb hd ha => ?_, fun s ha hc => ?_⟩
  · rw [step_illegal hr hag hb hd, execIllegal_abort ha]
  · have later := exec_abort_later ha hc
    refine ⟨later .freqCount, later .deserializeTree, later .serializeTree, later .decodeSym, fun n => later (.putBits n),
      fun n => later (.getBits n), later .flush, fun i hi => ?_⟩
    have counts : releaseOf i s = countWritten s := by
      rcases hi with ⟨v, rfl⟩ | rfl | rfl | rfl <;> rfl
    refine ⟨fun h1 h2 => ?_, fun h => ?_⟩
    · rw [later i, counts, countWritten_counted h1 h2]
    · rw [later i, counts, countWritten_uncounted h]

/-! ## Which unit steps raise an error (60_exceptions.md R221, R222, R224) -/

/-- If the work `w` of a unit step from `s` fails, it names an error and has written no register. -/
def Work.FailsFrom (s : State) : Work → Prop
  | .fail e _ u => e ≠ .none ∧ u.regs = s.regs
  | .finish _ | .read _ _ | .write _ _ _ | .broken _ => True

section FailsFrom
variable {s t : State} {after : State → Work}

theorem emitNext_failsFrom (v : Byte) (rem : Nat) (h : (after t).FailsFrom s) : (emitNext v rem after t).FailsFrom s := by
  cases rem
  · exact h
  · trivial

theorem outNext_failsFrom (v : Byte) (rem : Nat) (limit : Word) (h : (after t).FailsFrom s) :
    (outNext v rem limit after t).FailsFrom s := by
  cases rem
  · exact h
  · trivial

theorem emitStart_failsFrom (v : Byte) (ht : t.regs = s.regs) : (emitStart v t).FailsFrom s :=
  emitNext_failsFrom _ _ ⟨nofun, ht⟩

theorem serNext_failsFrom (st : List NodeIdx) : (serNext st t).FailsFrom s := by
  unfold serNext
  repeat' split
  all_goals trivial

theorem putNext_failsFrom (v : Word) (rem : Nat) : (putNext v rem t).FailsFrom s := by
  cases rem <;> trivial

theorem decodeNLoop_failsFrom (limit : Word) : (decodeNLoop limit t).FailsFrom s := by
  unfold decodeNLoop
  split <;> trivial

theorem deliver_failsFrom (st : List Frame) (n : NodeIdx) : (deliver n st t).FailsFrom s := by
  rcases deliver_ends st n t with ⟨u, h⟩ | ⟨u, st', h⟩ <;> rw [h] <;> trivial

end FailsFrom

theorem workSerializeTree_failsFrom (s : State) : (workSerializeTree s).FailsFrom s := by
  unfold workSerializeTree
  split
  · split
    · exact ⟨nofun, rfl⟩
    · exact serNext_failsFrom _
  · split
    · exact serNext_failsFrom _
    · trivial
  · trivial

theorem workDeserializeTree_failsFrom (s : State) : (workDeserializeTree s).FailsFrom s := by
  unfold workDeserializeTree
  split
  · trivial
  · split
    · split <;> exact ⟨nofun, rfl⟩
    · unfold desControl
      split
      · exact ⟨nofun, rfl⟩
      · split <;> trivial
  · split
    · exact ⟨nofun, rfl⟩
    · split
      · exact deliver_failsFrom _ _
      · trivial
  · trivial

theorem workEncodeSym_failsFrom (sym : Byte) (s : State) : (workEncodeSym sym s).FailsFrom s := by
  unfold workEncodeSym
  split
  · split
    · exact ⟨nofun, rfl⟩
    · exact emitStart_failsFrom _ rfl
  · exact emitNext_failsFrom _ _ trivial
  · trivial

theorem workEncodeEos_failsFrom (s : State) : (workEncodeEos s).FailsFrom s := by
  unfold workEncodeEos
  split
  · split
    · exact ⟨nofun, rfl⟩
    · trivial
  · split
    · trivial
    · trivial
    · exact ⟨nofun, rfl⟩
    · exact emitStart_failsFrom _ rfl
  · exact emitNext_failsFrom _ _ trivial
  · trivial

theorem decodeNStart_failsFrom (s : State) : (decodeNStart s).FailsFrom s := by
  unfold decodeNStart
  split
  · exact ⟨nofun, rfl⟩
  · exact decodeNLoop_failsFrom _

theorem workDecodeN_failsFrom (s : State) : (workDecodeN s).FailsFrom s := by
  unfold workDecodeN
  split
  · exact decodeNStart_failsFrom s
  · split
    · trivial
    · exact decodeNStart_failsFrom s
  · split
    · exact outNext_failsFrom _ _ _ (decodeNLoop_failsFrom _)
    · trivial
    · exact ⟨nofun, rfl⟩
    · exact ⟨nofun, rfl⟩
    · trivial
  · exact outNext_failsFrom _ _ _ (decodeNLoop_failsFrom _)
  · trivial

theorem workDecodeEos_failsFrom (s : State) : (workDecodeEos s).FailsFrom s := by
  unfold workDecodeEos
  split
  · split
    · exact ⟨nofun, rfl⟩
    · trivial
  · split
    · exact outNext_failsFrom _ _ _ trivial
    · trivial
    · trivial
    · exact ⟨nofun, rfl⟩
    · trivial
  · exact outNext_failsFrom _ _ _ trivial
  · trivial

theorem workPutBits_failsFrom (n : BitVec 6) (s : State) : (workPutBits n s).FailsFrom s := by
  unfold workPutBits
  split
  · exact ⟨nofun, rfl⟩
  · split
    · exact putNext_failsFrom _ _
    · exact putNext_failsFrom _ _
    · trivial

/-- The work of no command fails without a named error (60_exceptions.md R222), or with a result register written (R224). -/
theorem workOf_failsFrom (i : Instr) (s : State) : (workOf i s).FailsFrom s := by
  cases i with
  | nop | heapCreate | freqClear | treeClear | streamReset => trivial
  | heapDestroy | heapAdd | heapRemove | heapSize | freqCount | buildTree | buildCodes | decodeSym | getBits | flush =>
    simp only [workOf, workHeapDestroy, workHeapAdd, workHeapRemove, workHeapSize, workFreqCount, workBuildTree,
      workBuildCodes, workDecodeSym, walkStart, workGetBits, workFlush]
    repeat' split
    all_goals simp [Work.FailsFrom]
  | serializeTree => exact workSerializeTree_failsFrom s
  | deserializeTree => exact workDeserializeTree_failsFrom s
  | encodeSym sym => exact workEncodeSym_failsFrom sym s
  | encodeEos => exact workEncodeEos_failsFrom s
  | decodeN => exact workDecodeN_failsFrom s
  | decodeEos => exact workDecodeEos_failsFrom s
  | putBits n => exact workPutBits_failsFrom n s

/-- The work of a command does not turn ERR on: only a raise does (60_exceptions.md R221). -/
theorem workOf_carries_err {i : Instr} {s u : State} (h : (workOf i s).carries u) : u.stat.err = s.stat.err := by
  rw [(workOf_within i s).carries h, touched_stat]

/-- A unit step raises a named error, with the registers as they were, or leaves ERR as it was. -/
theorem exec_raises_or_keeps_err {i : Instr} {s t : State} (h : exec i s = .next t) :
    (∃ e info u, t = raise e info u ∧ e ≠ .none ∧ u.regs = s.regs) ∨ t.stat.err = s.stat.err := by
  have fails := workOf_failsFrom i s
  have err : ∀ u, (workOf i s).carries u → u.stat.err = s.stat.err := fun u => workOf_carries_err
  rw [exec_eq_unitStep] at h
  rcases unitStep_cases h with ⟨_, rfl⟩ | ⟨_, ⟨_, rfl⟩ | ⟨u, e, rfl⟩ | ⟨code, info, u, e, rfl⟩ | ⟨u, k, e, _, rfl⟩ |
    ⟨u, k, b, r, e, _, rfl⟩ | ⟨b, u, c, w, e, _, rfl⟩⟩
  · refine .inl ⟨.abort, 0, _, rfl, nofun, ?_⟩
    split
    · rfl
    · exact (releaseOf_keeps i s).1
  · exact .inr rfl
  all_goals rw [e] at fails err
  · exact .inr (err u rfl)
  · exact .inl ⟨code, info, u, rfl, fails⟩
  all_goals exact .inr (err u rfl)

/-- Settles O10: a step that turns ERR on raises. -/
theorem everyErrorEndsItsCommand : Obligations.EveryErrorEndsItsCommand := by
  intro i s t h h0 h1
  rcases exec_raises_or_keeps_err h with ⟨e, info, u, rfl, hne, hu⟩ | keeps
  · simp [hu, hne]
  · exact absurd (h1.symm.trans (keeps.trans h0)) nofun

end Sys2Proof.Machine
end

section
/-! SUPPORT. The invariants at reset (70_reset_and_hazards.md R262): the base case of the statements that every step keeps
them. -/

namespace Sys2Proof.Machine

/-- What the host's turns keep, a reset among them, holds right after reset. -/
theorem KeptByHost.holds_at_reset {P : State → Prop} (k : KeptByHost P) : P State.reset := k.reset State.reset.ext

/-- Settles O52: each of the three is kept by the host's turns, whose reset starts from the same state. -/
theorem invariantsHoldAtReset : Obligations.InvariantsHoldAtReset :=
  ⟨sound_keptByHost.holds_at_reset, heapOrdered_keptByHost.holds_at_reset, freqOk_keptByHost.holds_at_reset⟩

end Sys2Proof.Machine
end
